-- ==== Sys2Proof/Word.lean ====
section
/-! DEFINITION. The word types of the block: a command word (R70), a byte of the input buffer (R21) and a
stream bit (R10). -/

namespace Sys2Proof

/-- A command word: 32 bits, `OPC[31:24] A[23:16] B[15:0]` (R70). -/
abbrev Word := BitVec 32

/-- A byte of the input buffer, of a header or of a packed bit sequence. -/
abbrev Byte := BitVec 8

/-- A bit sequence in read order: the first bit of the list is read first (R10). -/
abbrev Bits := List Bool

/-- A bit sequence as the response channel carries it: its length in bits and its bytes, packed by R44 (R73). -/
structure BitSeq where
  len   : Nat
  bytes : List Byte
  deriving DecidableEq, Repr

end Sys2Proof
end

