-- ==== Sys2Proof/Machine/Tables.lean ====
section
/-! DEFINITION. The fixed tables of the block: codebook parameters (R140), the 48 kHz band edges (R173), the
gain-control widths (R189) and the scalar parameters of R8. They stand under Machine/ so that a test that shows
one wrong can be answered by a repair. -/

namespace Sys2Proof.Machine

/-- `INBUF_BYTES`, the capacity of the input buffer (R8). -/
def inbufBytes : Nat := 8192

/-- `MAX_READ_BITS`, the largest n of READBITS (R8). -/
def maxReadBits : Nat := 32

/-- `NUM_HUFF_TABLES` (R8, R123). -/
def numHuffTables : Nat := 12

/-- `NUM_SWB_LONG` (R8). -/
def numSwbLong : Nat := 49

/-- `NUM_SWB_SHORT` (R8). -/
def numSwbShort : Nat := 14

/-- `PRED_SFB_MAX` (R8). -/
def predSfbMax : Nat := 40

/-- `PRED_RESET_GROUP_BITS` (R8, R183). -/
def predResetGroupBits : Nat := 5

/-- The largest byte count of an extension payload, `15 + 255 - 1` (R227, R228). -/
def maxExtCount : Nat := 269

/-- An extension payload's byte count is in range (R71, R228). -/
def extCountOk (cnt : Nat) : Bool := decide (1 ≤ cnt) && decide (cnt ≤ maxExtCount)

/-- A 4-bit code names none of the extension types that have a row of their own (R78). -/
def isOtherExtCode (code : Nat) : Bool :=
  decide (code < 16) && !(code == 1 || code == 11 || code == 13 || code == 14)

/-- One row of R140: dimension, signedness and largest absolute value of a spectral codebook. -/
structure CbParams where
  dim    : Nat
  signed : Bool
  lav    : Nat
  deriving DecidableEq, Repr

/-- `CB_PARAMS` (R140). Numbers that name no spectral codebook get the row of codebook 11; no rule asks for them. -/
def cbParams : Nat → CbParams
  | 1 => ⟨4, true, 1⟩
  | 2 => ⟨4, true, 1⟩
  | 3 => ⟨4, false, 2⟩
  | 4 => ⟨4, false, 2⟩
  | 5 => ⟨2, true, 4⟩
  | 6 => ⟨2, true, 4⟩
  | 7 => ⟨2, false, 7⟩
  | 8 => ⟨2, false, 7⟩
  | 9 => ⟨2, false, 12⟩
  | 10 => ⟨2, false, 12⟩
  | _ => ⟨2, false, 16⟩

/-- The base m of a codebook: 2·LAV+1 if signed, LAV+1 if not (R140). -/
def cbBase (cb : Nat) : Nat :=
  if (cbParams cb).signed then 2 * (cbParams cb).lav + 1 else (cbParams cb).lav + 1

/-- The offset of a codebook: LAV if signed, 0 if not (R140). -/
def cbOffset (cb : Nat) : Nat :=
  if (cbParams cb).signed then (cbParams cb).lav else 0

/-- The size of a codebook in symbols, m^dim (R140). -/
def cbSize (cb : Nat) : Nat := cbBase cb ^ (cbParams cb).dim

/-- A number is that of a spectral codebook (R140, R180). -/
def isSpectralCb (cb : Nat) : Bool := decide (1 ≤ cb) && decide (cb ≤ 11)

/-- `SWB_OFFSET_LONG`, 50 edges of 49 bands (R173). -/
def swbOffsetLong : List Nat :=
  [0, 4, 8, 12, 16, 20, 24, 28, 32, 36, 40, 48, 56, 64, 72, 80, 88, 96, 108, 120] ++
  [132, 144, 160, 176, 196, 216, 240, 264, 292, 320, 352, 384, 416, 448, 480, 512] ++
  [544, 576, 608, 640, 672, 704, 736, 768, 800, 832, 864, 896, 928, 1024]

/-- `SWB_OFFSET_SHORT`, 15 edges of 14 bands (R173). -/
def swbOffsetShort : List Nat :=
  [0, 4, 8, 12, 16, 20, 28, 36, 44, 56, 68, 80, 96, 112, 128]

end Sys2Proof.Machine
end

