-- ==== Sys2Proof/Syntax.lean ====
section
/-! DEFINITION. The block's instructions: one constructor for each row of spec/opcode_table.json. The first 27 are
command words (R71). The other 13 are codes the block reads from its bit stream: the eight element ids (R77) and the
extension types (R78). Each stream code stands for the arm that the dispatch loop (R231) or the extension payload
parser (R228) runs once the code has been read. -/

namespace Sys2Proof

/-- The 3-bit element ids of the stream (R77). -/
inductive ElementId where
  | sce | cpe | cce | lfe | dse | pce | fil | endId
  deriving DecidableEq, Repr

/-- The 4-bit extension types of the stream (R78); `other` keeps the code it was read from. -/
inductive ExtType where
  | fillData
  | dynamicRange
  | sbrData
  | sbrDataCrc
  | other (code : Nat)
  deriving DecidableEq, Repr

/-- The instructions. An operand of a command is the number in its immediate field. The operand `cnt` of a stream
extension type is the payload's byte count, which its 4 bits do not hold: the EXT_PAYLOAD command or the enclosing
fill element gives it (R228). -/
inductive Instr where
  | load
  | readbits (n : Nat)
  | readbool
  | bytealign
  | isempty
  | consumeArray
  | consumeClear
  | huffDecode (t : Nat)
  | cbValue (cb idx : Nat)
  | specUnit (cb : Nat)
  | escSeq
  | icsInfo
  | sectionData
  | scaleFactorData
  | pulseData
  | tnsData
  | gainControlData
  | spectralData
  | ics (commonWindow : Bool)
  | sce
  | pce
  | fil
  | extPayload (cnt : Nat)
  | elementStep
  | runFrame
  | adtsParse
  | adtsGenerate
  | idSce
  | idCpe
  | idCce
  | idLfe
  | idDse
  | idPce
  | idFil
  | idEnd
  | extFillData (cnt : Nat)
  | extDynamicRange
  | extSbrData
  | extSbrDataCrc
  | extOther (code cnt : Nat)
  deriving DecidableEq, Repr

end Sys2Proof
end

