-- ==== Sys2Proof/WellFormed.lean ====
section
/-! DEFINITION. Which instructions are well formed: every immediate in the range R71 gives it, CB_VALUE's index
below its codebook's size (R74, R141), an extension count in 1..269 (R71, R228), and an extension type kept as
`other` none of the four that have a name (R78). -/

namespace Sys2Proof

/-- The argument check of R74 on an instruction's operands. -/
def Instr.wf : Instr → Bool
  | .readbits n => decide (n ≤ Machine.maxReadBits)
  | .huffDecode t => decide (t < Machine.numHuffTables)
  | .cbValue cb idx => Machine.isSpectralCb cb && decide (idx < Machine.cbSize cb)
  | .specUnit cb => Machine.isSpectralCb cb
  | .extPayload cnt => Machine.extCountOk cnt
  | .extFillData cnt => Machine.extCountOk cnt
  | .extOther code cnt => Machine.isOtherExtCode code && Machine.extCountOk cnt
  | .load => true
  | .readbool => true
  | .bytealign => true
  | .isempty => true
  | .consumeArray => true
  | .consumeClear => true
  | .escSeq => true
  | .icsInfo => true
  | .sectionData => true
  | .scaleFactorData => true
  | .pulseData => true
  | .tnsData => true
  | .gainControlData => true
  | .spectralData => true
  | .ics _ => true
  | .sce => true
  | .pce => true
  | .fil => true
  | .elementStep => true
  | .runFrame => true
  | .adtsParse => true
  | .adtsGenerate => true
  | .idSce => true
  | .idCpe => true
  | .idCce => true
  | .idLfe => true
  | .idDse => true
  | .idPce => true
  | .idFil => true
  | .idEnd => true
  | .extDynamicRange => true
  | .extSbrData => true
  | .extSbrDataCrc => true

end Sys2Proof
end

