-- ==== Sys2Proof/Decode.lean ====
section
/-! DEFINITION. The decoder of command words (R70 to R75) and of the stream's element ids and extension types (R77,
R78), both total, and the encoder of every instruction. -/

namespace Sys2Proof

/-- Why the preamble turns a command word away (R302). -/
inductive DecodeError where
  /-- The opcode is one R71 does not list (R75). -/
  | illegalOpcode
  /-- A reserved field is not zero or an immediate is out of its range (R74). -/
  | badArgument
  deriving DecidableEq, Repr

/-- `OPC`, bits 31..24 of a command word (R70). -/
def wordOpc (w : Word) : Nat := (w.extractLsb' 24 8).toNat

/-- `A`, bits 23..16 of a command word (R70). -/
def wordA (w : Word) : Nat := (w.extractLsb' 16 8).toNat

/-- `B`, bits 15..0 of a command word (R70). -/
def wordB (w : Word) : Nat := (w.extractLsb' 0 16).toNat

/-- The instruction, if the argument check of R74 passes. -/
def argsChecked (ok : Bool) (i : Instr) : Except DecodeError Instr :=
  if ok then .ok i else .error .badArgument

/-- The decoder of a command word: the opcode map of R71, its reserved fields and ranges (R74), and the reserved
opcodes (R75). -/
def decode (w : Word) : Except DecodeError Instr :=
  let a := wordA w
  let b := wordB w
  let bare := a == 0 && b == 0
  match wordOpc w with
  | 0x01 => argsChecked bare .load
  | 0x02 => argsChecked (a == 0 && decide (b ≤ Machine.maxReadBits)) (.readbits b)
  | 0x03 => argsChecked bare .readbool
  | 0x04 => argsChecked bare .bytealign
  | 0x05 => argsChecked bare .isempty
  | 0x06 => argsChecked bare .consumeArray
  | 0x07 => argsChecked bare .consumeClear
  | 0x10 => argsChecked (decide (a < Machine.numHuffTables) && b == 0) (.huffDecode a)
  | 0x11 => argsChecked (Machine.isSpectralCb a && decide (b < Machine.cbSize a)) (.cbValue a b)
  | 0x12 => argsChecked (Machine.isSpectralCb a && b == 0) (.specUnit a)
  | 0x13 => argsChecked bare .escSeq
  | 0x20 => argsChecked bare .icsInfo
  | 0x21 => argsChecked bare .sectionData
  | 0x22 => argsChecked bare .scaleFactorData
  | 0x23 => argsChecked bare .pulseData
  | 0x24 => argsChecked bare .tnsData
  | 0x25 => argsChecked bare .gainControlData
  | 0x26 => argsChecked bare .spectralData
  | 0x27 => argsChecked (decide (a < 2) && b == 0) (.ics (a == 1))
  | 0x30 => argsChecked bare .sce
  | 0x31 => argsChecked bare .pce
  | 0x32 => argsChecked bare .fil
  | 0x33 => argsChecked (a == 0 && Machine.extCountOk b) (.extPayload b)
  | 0x34 => argsChecked bare .elementStep
  | 0x35 => argsChecked bare .runFrame
  | 0x40 => argsChecked bare .adtsParse
  | 0x41 => argsChecked bare .adtsGenerate
  | _ => .error .illegalOpcode

/-- The element an id names (R77). An id is 3 bits; the last case is the id 7. -/
def elementIdOf : Nat → ElementId
  | 0 => .sce
  | 1 => .cpe
  | 2 => .cce
  | 3 => .lfe
  | 4 => .dse
  | 5 => .pce
  | 6 => .fil
  | _ => .endId

/-- The number of an element id (R77). -/
def elementIdCode : ElementId → Nat
  | .sce => 0
  | .cpe => 1
  | .cce => 2
  | .lfe => 3
  | .dse => 4
  | .pce => 5
  | .fil => 6
  | .endId => 7

/-- The extension type a 4-bit code names (R78). -/
def extTypeOf : Nat → ExtType
  | 1 => .fillData
  | 11 => .dynamicRange
  | 13 => .sbrData
  | 14 => .sbrDataCrc
  | code => .other code

/-- The 4-bit code of an extension type (R78). -/
def extTypeCode : ExtType → Nat
  | .fillData => 1
  | .dynamicRange => 11
  | .sbrData => 13
  | .sbrDataCrc => 14
  | .other code => code

/-- The instruction of an element id. -/
def elementInstr : ElementId → Instr
  | .sce => .idSce
  | .cpe => .idCpe
  | .cce => .idCce
  | .lfe => .idLfe
  | .dse => .idDse
  | .pce => .idPce
  | .fil => .idFil
  | .endId => .idEnd

/-- The instruction of an extension type in a payload of `cnt` bytes. -/
def extInstr (cnt : Nat) : ExtType → Instr
  | .fillData => .extFillData cnt
  | .dynamicRange => .extDynamicRange
  | .sbrData => .extSbrData
  | .sbrDataCrc => .extSbrDataCrc
  | .other code => .extOther code cnt

/-- The bits of an instruction: a command word, or the 3 or 4 stream bits of an element id or extension type. -/
inductive Code where
  | command (w : Word)
  | elementId (c : BitVec 3)
  | extType (c : BitVec 4)
  deriving DecidableEq, Repr

/-- The decoder of all three kinds of code. `cnt` is the byte count of the extension payload in which an extension
type is read (R228). -/
def decodeCode (cnt : Nat) : Code → Except DecodeError Instr
  | .command w => decode w
  | .elementId c => .ok (elementInstr (elementIdOf c.toNat))
  | .extType c => .ok (extInstr cnt (extTypeOf c.toNat))

/-- A command word from its three fields, `OPC<<24 | A<<16 | B` (R76). -/
def commandWord (opc a b : Nat) : Word :=
  BitVec.ofNat 8 opc ++ BitVec.ofNat 8 a ++ BitVec.ofNat 16 b

/-- The encoder of an instruction (R71, R76, R77, R78). -/
def encode : Instr → Code
  | .load => .command (commandWord 0x01 0 0)
  | .readbits n => .command (commandWord 0x02 0 n)
  | .readbool => .command (commandWord 0x03 0 0)
  | .bytealign => .command (commandWord 0x04 0 0)
  | .isempty => .command (commandWord 0x05 0 0)
  | .consumeArray => .command (commandWord 0x06 0 0)
  | .consumeClear => .command (commandWord 0x07 0 0)
  | .huffDecode t => .command (commandWord 0x10 t 0)
  | .cbValue cb idx => .command (commandWord 0x11 cb idx)
  | .specUnit cb => .command (commandWord 0x12 cb 0)
  | .escSeq => .command (commandWord 0x13 0 0)
  | .icsInfo => .command (commandWord 0x20 0 0)
  | .sectionData => .command (commandWord 0x21 0 0)
  | .scaleFactorData => .command (commandWord 0x22 0 0)
  | .pulseData => .command (commandWord 0x23 0 0)
  | .tnsData => .command (commandWord 0x24 0 0)
  | .gainControlData => .command (commandWord 0x25 0 0)
  | .spectralData => .command (commandWord 0x26 0 0)
  | .ics cw => .command (commandWord 0x27 cw.toNat 0)
  | .sce => .command (commandWord 0x30 0 0)
  | .pce => .command (commandWord 0x31 0 0)
  | .fil => .command (commandWord 0x32 0 0)
  | .extPayload cnt => .command (commandWord 0x33 0 cnt)
  | .elementStep => .command (commandWord 0x34 0 0)
  | .runFrame => .command (commandWord 0x35 0 0)
  | .adtsParse => .command (commandWord 0x40 0 0)
  | .adtsGenerate => .command (commandWord 0x41 0 0)
  | .idSce => .elementId (BitVec.ofNat 3 (elementIdCode .sce))
  | .idCpe => .elementId (BitVec.ofNat 3 (elementIdCode .cpe))
  | .idCce => .elementId (BitVec.ofNat 3 (elementIdCode .cce))
  | .idLfe => .elementId (BitVec.ofNat 3 (elementIdCode .lfe))
  | .idDse => .elementId (BitVec.ofNat 3 (elementIdCode .dse))
  | .idPce => .elementId (BitVec.ofNat 3 (elementIdCode .pce))
  | .idFil => .elementId (BitVec.ofNat 3 (elementIdCode .fil))
  | .idEnd => .elementId (BitVec.ofNat 3 (elementIdCode .endId))
  | .extFillData _ => .extType (BitVec.ofNat 4 (extTypeCode .fillData))
  | .extDynamicRange => .extType (BitVec.ofNat 4 (extTypeCode .dynamicRange))
  | .extSbrData => .extType (BitVec.ofNat 4 (extTypeCode .sbrData))
  | .extSbrDataCrc => .extType (BitVec.ofNat 4 (extTypeCode .sbrDataCrc))
  | .extOther code _ => .extType (BitVec.ofNat 4 (extTypeCode (.other code)))

/-- The payload byte count an instruction carries beside its bits: an extension type's `cnt` (R228), 0 for the rest. -/
def extCountOf : Instr → Nat
  | .extFillData cnt => cnt
  | .extOther _ cnt => cnt
  | _ => 0

/-- The code a table row's bits stand for, when the host names a row by its width in bits and its bits. Command rows
have 32 bits. An element id has 3 and an extension type 4; of the two, a row given as one whole byte is read as an
element id where its value fits 3 bits and as an extension type where it needs 4. -/
def tableCode (nbits w : Nat) : Option Code :=
  match nbits with
  | 32 => some (.command (BitVec.ofNat 32 w))
  | 3 => some (.elementId (BitVec.ofNat 3 w))
  | 4 => some (.extType (BitVec.ofNat 4 w))
  | 8 =>
    if w < 8 then some (.elementId (BitVec.ofNat 3 w))
    else if w < 16 then some (.extType (BitVec.ofNat 4 w))
    else none
  | _ => none

/-- The instruction the decoder reads from a table row's bits; an extension type is read in a payload of one byte. -/
def decodeTableWord (nbits w : Nat) : Option Instr :=
  match tableCode nbits w with
  | some c => (decodeCode 1 c).toOption
  | none => none

end Sys2Proof
end

