-- ==== Sys2Proof/Machine/Trie.lean ====
section
/-! DEFINITION. The Huffman tries of the ROM: their type (R31), their construction from a codebook table (R120)
and the well-formedness of a table (R12, R122). -/

namespace Sys2Proof.Machine

/-- One triple of a codebook table: symbol index, codeword and codeword length in bits (R12). -/
structure HcbEntry where
  sym  : Nat
  code : Nat
  len  : Nat
  deriving DecidableEq, Repr

/-- One codebook table `HCB[t]` (R12). -/
abbrev HcbTable := List HcbEntry

/-- A node of a trie, or the absence of one (R31): a child of an internal node may be absent, the root never is. -/
inductive Trie where
  | absent
  | leaf (sym : Nat)
  | node (child0 child1 : Trie)
  deriving DecidableEq, Repr

/-- The trie of an empty table: an internal root with no child (R120). -/
def emptyTrie : Trie := .node .absent .absent

/-- The descent of R120 for one triple below a node: `j` codeword bits are still to be spelled, the most
significant first. `none` is R120's "refuse configuration". -/
def insertCode (sym code : Nat) : Nat → Trie → Option Trie
  | 0, .absent => some (.leaf sym)
  | 0, .leaf _ => none
  | 0, .node _ _ => none
  | _ + 1, .leaf _ => none
  | j + 1, .absent =>
    if code.testBit j then (insertCode sym code j .absent).map (.node .absent ·)
    else (insertCode sym code j .absent).map (.node · .absent)
  | j + 1, .node c0 c1 =>
    if code.testBit j then (insertCode sym code j c1).map (.node c0 ·)
    else (insertCode sym code j c0).map (.node · c1)

/-- One pass of R120's loop: a codeword of length 0 makes the root the leaf, in a table of one entry only. -/
def insertEntry (size : Nat) (root : Trie) (e : HcbEntry) : Option Trie :=
  if e.len = 0 then (if size > 1 then none else some (.leaf e.sym))
  else insertCode e.sym e.code e.len root

/-- `Build(T)` (R120); `none` where the configuration is refused (R122). -/
def build (table : HcbTable) : Option Trie :=
  table.foldlM (insertEntry table.length) emptyTrie

/-- The codeword of `e` is a prefix of the codeword of `f`, or equal to it, both taken as bit strings with the most
significant bit first (R12). -/
def isCodePrefix (e f : HcbEntry) : Bool :=
  decide (e.len ≤ f.len) && decide (f.code / 2 ^ (f.len - e.len) = e.code)

/-- Two triples may stand in one table: neither codeword is a prefix of the other and the symbols differ (R12). -/
def compatible (e f : HcbEntry) : Bool :=
  !isCodePrefix e f && !isCodePrefix f e && decide (e.sym ≠ f.sym)

/-- Each triple of a list is compatible with every later one. -/
def pairwiseCompatible : HcbTable → Bool
  | [] => true
  | e :: rest => rest.all (compatible e) && pairwiseCompatible rest

/-- A triple may stand in table `t`: its codeword fits its length, and a spectral symbol is below the codebook's
size (R12). -/
def entryFits (t : Nat) (e : HcbEntry) : Bool :=
  decide (e.code < 2 ^ e.len) && (decide (t = 0) || decide (e.sym < cbSize t))

/-- A table is well formed as `HCB[t]` (R12, R122). -/
def wfTable (t : Nat) (table : HcbTable) : Bool :=
  table.all (entryFits t) && pairwiseCompatible table

/-- All tables from number `t` on are well formed. -/
def wfTablesFrom : Nat → List HcbTable → Bool
  | _, [] => true
  | t, table :: rest => wfTable t table && wfTablesFrom (t + 1) rest

/-- A configuration is well formed: twelve tables, each well formed under its number (R12, R123). -/
def wfTables (tables : List HcbTable) : Bool :=
  decide (tables.length = numHuffTables) && wfTablesFrom 0 tables

/-- The trie reset builds from one table of an accepted configuration (R120, R340). A well-formed table is never
refused, so the empty trie stands for no case that exists (R341). -/
def buildTrie (table : HcbTable) : Trie := (build table).getD emptyTrie

/-- HROM as reset builds it (R31, R340). -/
def buildHrom (tables : List HcbTable) : List Trie := tables.map buildTrie

end Sys2Proof.Machine
end

