-- ==== Sys2Proof/Config.lean ====
section
/-! DEFINITION. What one block's configuration fixes: the open codebook tables HCB (R8, R12, no value in any
source) and the choice of the payload-offset rule (R8, R266). -/

namespace Sys2Proof

/-- A configuration the block accepts (R12, R341): twelve well-formed codebook tables. An ill-formed configuration
is no value of this type, since no block exists under it. -/
structure HcbConfig where
  tables : List Machine.HcbTable := List.replicate 12 []
  wf     : Machine.wfTables tables = true := by decide
  deriving Inhabited

/-- The block's codebooks, OPEN (R8, N1): a constant without a body, so that no proof can lean on a codeword. -/
opaque Config.hcb : HcbConfig

/-- The two readings of the payload offset when `frames > 0` (R266, C4). -/
inductive RdbSkipRule where
  | iso
  | always2N
  deriving DecidableEq, Repr

/-- `RDB_SKIP_RULE`, at its default (R8, D26). -/
def Config.rdbSkipRule : RdbSkipRule := .iso

/-- `HOST_APPEND_END`, at its default (R8, D30). -/
def Config.hostAppendEnd : Bool := false

end Sys2Proof
end

