-- ==== Sys2Proof/Machine/State.lean ====
section
/-! DEFINITION. The block's architectural state (10_state.md), its three channels (R40) as plain data, the errors it
reports (R300), the reasons a step can stop, and the state after reset (R34, R340). -/

namespace Sys2Proof.Machine

/-- INBUF: the input byte array as (address, byte) pairs in one canonical form: addresses strictly rising, and no pair
whose byte is what an unlisted address reads as (R21). -/
abbrev Memory := List Host.Cell

/-- What an address reads as that no pair lists. DESIGN CHOICE, log entry 3: R34 leaves the buffer's contents at reset
unspecified and no command can read them (R41). -/
def unlistedByte : Byte := 0

/-- The canonical form of a memory: strictly rising addresses, none below `lo`, and no unlisted byte. -/
def Memory.wfFrom : Nat → Memory → Bool
  | _, [] => true
  | lo, (a, b) :: rest => decide (lo ≤ a) && decide (b ≠ unlistedByte) && Memory.wfFrom (a + 1) rest

/-- The canonical form of a memory. -/
def Memory.wf (m : Memory) : Bool := Memory.wfFrom 0 m

/-- The window sequences (R170). -/
inductive WindowSequence where
  | onlyLong | longStart | eightShort | longStop
  deriving DecidableEq, Repr

/-- One stored section: its codebook and its bands `[first, last)`, that is `sect_cb`, `sect_start` and `sect_end` at
one index (R28). -/
structure Section where
  cb    : Nat
  first : Nat
  last  : Nat
  deriving DecidableEq, Repr

/-- The syntax-context registers (R28). An array register is a list that holds the entries the last ICS_INFO or
SECTION_DATA wrote; no rule reads any other entry. -/
structure Ctx where
  globalGain           : Nat
  icsReservedBit       : Nat
  windowSequence       : WindowSequence
  windowShape          : Nat
  maxSfb               : Nat
  scaleFactorGrouping  : Nat
  predictorDataPresent : Nat
  numWindows           : Nat
  numWindowGroups      : Nat
  windowGroupLength    : List Nat
  sectSfbOffset        : List (List Nat)
  numSec               : List Nat
  sect                 : List (List Section)
  sfbCb                : List (List Nat)
  vInfo                : Bool
  vSect                : Bool
  deriving DecidableEq, Repr

/-- DSTATE, the dispatch-loop state (R26). Its fourth code is never written and has no constructor. -/
inductive DState where
  | idle | active | ended
  deriving DecidableEq, Repr

/-- The errors the block raises, by cause (R300). -/
inductive Cause where
  /-- EXHAUSTION, READ: a read asks for more bits than remain (R100). -/
  | read
  /-- UNSUPPORTED, COMMON_WINDOW (R224). -/
  | commonWindow
  /-- UNSUPPORTED, EXT_DYNAMIC_RANGE (R230). -/
  | extDynamicRange
  /-- UNSUPPORTED, EXT_SBR_DATA (R230). -/
  | extSbrData
  /-- UNSUPPORTED, EXT_SBR_DATA_CRC (R230). -/
  | extSbrDataCrc
  /-- DECODE, HUFF_NO_CHILD (R124). -/
  | huffNoChild
  /-- DECODE, SECTION_OVERRUN (R177). -/
  | sectionOverrun
  /-- DECODE, MAX_SFB_RANGE (R175). -/
  | maxSfbRange
  /-- COMMAND, ILLEGAL_OPCODE (R75). -/
  | illegalOpcode
  /-- COMMAND, BAD_ARGUMENT (R74). -/
  | badArgument
  /-- COMMAND, CONTEXT_UNWRITTEN (R29). -/
  | contextUnwritten
  /-- COMMAND, FIELD_RANGE (R262). -/
  | fieldRange
  deriving DecidableEq, Repr

/-- The 15 fields of an ADTS header record, in header order (R260). Each is a natural number (R72). -/
structure AdtsHeader where
  syncword               : Nat
  mpegVersion            : Nat
  layer                  : Nat
  protectionAbsent       : Nat
  profile                : Nat
  samplingFrequencyIndex : Nat
  privateBit             : Nat
  channelConfiguration   : Nat
  originality            : Nat
  home                   : Nat
  copyrightIdBit         : Nat
  copyrightIdStart       : Nat
  frameLength            : Nat
  bufferFullness         : Nat
  frames                 : Nat
  deriving DecidableEq, Repr

/-- One iteration's result of the dispatch loop (R231). -/
inductive StepResult where
  | done
  | exhausted
  | element (id : Nat) (record : BitSeq)
  | endElement (record : BitSeq)
  | skipped (id : Nat)
  deriving DecidableEq, Repr

/-- The kind of an iteration's result (R235). -/
inductive LoopKind where
  | done | exhausted | element | endId | skipped
  deriving DecidableEq, Repr

/-- The result values of the commands (R73), one constructor for each shape a `result` line gives. -/
inductive Value where
  /-- The unit value: LOAD, CONSUME_CLEAR. -/
  | unit
  /-- A number: READBITS, HUFF_DECODE, SCALE_FACTOR_DATA, PULSE_DATA, TNS_DATA, GAIN_CONTROL_DATA, SCE, FIL. -/
  | nat (n : Nat)
  /-- READBOOL, ISEMPTY. -/
  | bool (b : Bool)
  /-- BYTEALIGN: the bits read as a number, and how many (R103). -/
  | aligned (value count : Nat)
  /-- CONSUME_ARRAY (R108). -/
  | record (record : BitSeq)
  /-- CB_VALUE: the coefficient tuple (R141). -/
  | tuple (v : List Int)
  /-- SPEC_UNIT: symbol, tuple and bits consumed (R203). -/
  | unitOf (idx : Nat) (v : List Int) (bits : Nat)
  /-- ESC_SEQ: prefix length and the word's low 32 bits (R205). -/
  | escape (prefixLen word : Nat)
  /-- ICS_INFO (R171). -/
  | icsInfo (ws : WindowSequence) (maxSfb groups : Nat) (lengths : List Nat)
  /-- SECTION_DATA: the stored sections of each group (R176). -/
  | sections (groups : List (List Section))
  /-- SPECTRAL_DATA: units and bits (R207). -/
  | spectral (units bits : Nat)
  /-- ICS: global_gain and bits (R222). -/
  | ics (globalGain bits : Nat)
  /-- PCE: tag and comment byte count (R225). -/
  | pce (tag commentBytes : Nat)
  /-- EXT_PAYLOAD: type and count (R228). -/
  | ext (type cnt : Nat)
  /-- ELEMENT_STEP (R231). -/
  | step (r : StepResult)
  /-- RUN_FRAME: the listed results and the last one's kind (R237). -/
  | frame (l : List StepResult) (kind : LoopKind)
  /-- ADTS_PARSE (R261). -/
  | header (h : AdtsHeader) (headerBytes : Nat)
  /-- ADTS_GENERATE (R262). -/
  | bytes (b : List Byte)
  deriving DecidableEq, Repr

/-- A response (R40): the result; the error this command raised, with its position; or the refusal that repeats the
pending error's class, cause and position as the fields of ERR hold them. -/
inductive Response where
  | ok (v : Value)
  | error (c : Cause) (pos : Nat)
  | refused (cls : BitVec 4) (cause : BitVec 8) (pos : BitVec 20)
  deriving DecidableEq, Repr

/-- What the data-in channel carries beside a command word (R72): a byte sequence and a header record. A command reads
the one its rule names and ignores the other. -/
structure DataIn where
  bytes  : List Byte
  header : AdtsHeader
  deriving DecidableEq, Repr

/-- One command: its word and its data-in (R40). -/
structure Command where
  word : Word
  data : DataIn
  deriving DecidableEq, Repr

/-- What the host does to the block between two commands: it issues a command (R40), or it resets the block (R343). -/
inductive HostInput where
  | command (c : Command)
  | reset
  deriving DecidableEq, Repr

/-- The state of one block. -/
structure State where
  /-- INBUF (R21). -/
  inbuf     : Memory
  /-- CUR_POS (R22). -/
  curPos    : Nat
  /-- CUR_LEN (R23). -/
  curLen    : Nat
  /-- CUR_MARK (R24). -/
  curMark   : Nat
  /-- ERR (R25). -/
  err       : BitVec 32
  /-- DSTATE (R26). -/
  dstate    : DState
  /-- The syntax context (R28). -/
  ctx       : Ctx
  /-- HROM, the twelve tries (R31). -/
  hrom      : List Trie
  /-- The command channel: what the host will do next, the next first (R40, R343). -/
  inputs    : List HostInput
  /-- The data-in channel: what came with the command now being run (R40, R72). -/
  dataIn    : DataIn
  /-- The response channel: the responses given, the oldest first (R40). -/
  responses : List Response
  deriving DecidableEq, Repr

/-- The faults of the machine: none. Every error of the spec is a response after which the block goes on (R301, R306),
and no rule stops the block. -/
inductive Fault where
  deriving DecidableEq, Repr

/-- The refusals of the model. -/
inductive Refusal where
  /-- Raised by `exec` for an instruction that has no meaning yet; no arm raises it now. Safe: the model stops where the
  block goes on. -/
  | notModelled (mnemonic : String)
  deriving DecidableEq, Repr

/-- A header record with every field 0: what the data-in channel holds where the host supplied none. -/
def emptyHeader : AdtsHeader := ⟨0, 0, 0, 0, 0, 0, 0, 0, 0, 0, 0, 0, 0, 0, 0⟩

/-- The data-in of a command that comes with none. -/
def emptyData : DataIn := ⟨[], emptyHeader⟩

/-- The syntax context after reset: both valid flags clear (R34). The other registers hold no value the spec gives;
the zeros are a DESIGN CHOICE, log entry 2. -/
def resetCtx : Ctx where
  globalGain := 0
  icsReservedBit := 0
  windowSequence := .onlyLong
  windowShape := 0
  maxSfb := 0
  scaleFactorGrouping := 0
  predictorDataPresent := 0
  numWindows := 0
  numWindowGroups := 0
  windowGroupLength := []
  sectSfbOffset := []
  numSec := []
  sect := []
  sfbCb := []
  vInfo := false
  vSect := false

/-- The block right after reset (R34, R340): no command and no response pending. -/
def State.reset : State where
  inbuf := []
  curPos := 0
  curLen := 0
  curMark := 0
  err := 0
  dstate := .idle
  ctx := resetCtx
  hrom := buildHrom Config.hcb.tables
  inputs := []
  dataIn := emptyData
  responses := []

end Sys2Proof.Machine
end

