-- ==== Sys2Proof/Machine/Flags.lean ====
section
/-! DEFINITION. The status the block keeps: ERR and its fields (R25), the class and cause codes of R300, the valid
flags of the context (R28 to R30) and DSTATE (R26). -/

namespace Sys2Proof.Machine

/-- ERR_CLASS of a cause (R300). -/
def causeClass : Cause → BitVec 4
  | .read => 1
  | .commonWindow => 2
  | .extDynamicRange => 2
  | .extSbrData => 2
  | .extSbrDataCrc => 2
  | .huffNoChild => 3
  | .sectionOverrun => 3
  | .maxSfbRange => 3
  | .illegalOpcode => 4
  | .badArgument => 4
  | .contextUnwritten => 4
  | .fieldRange => 4

/-- ERR_CAUSE of a cause, unique within its class (R300). -/
def causeCode : Cause → BitVec 8
  | .read => 1
  | .commonWindow => 1
  | .extDynamicRange => 2
  | .extSbrData => 3
  | .extSbrDataCrc => 4
  | .huffNoChild => 1
  | .sectionOverrun => 2
  | .maxSfbRange => 3
  | .illegalOpcode => 1
  | .badArgument => 2
  | .contextUnwritten => 3
  | .fieldRange => 4

/-- The ERR word of an error: position in bits 31..12, cause in 11..4, class in 3..0 (R25, R300). -/
def errWord (c : Cause) (pos : Nat) : BitVec 32 :=
  BitVec.ofNat 20 pos ++ causeCode c ++ causeClass c

/-- ERR_CLASS, bits 3..0 (R25). -/
def State.errClass (s : State) : BitVec 4 := s.err.extractLsb' 0 4

/-- ERR_CAUSE, bits 11..4 (R25). -/
def State.errCause (s : State) : BitVec 8 := s.err.extractLsb' 4 8

/-- ERR_POS, bits 31..12 (R25). -/
def State.errPos (s : State) : BitVec 20 := s.err.extractLsb' 12 20

/-- Both valid flags cleared (R30). -/
def clearValid (c : Ctx) : Ctx := { c with vInfo := false, vSect := false }

/-- V_SECT alone cleared (R30). -/
def clearValidSect (c : Ctx) : Ctx := { c with vSect := false }

/-- V_INFO set (R30). -/
def setValidInfo (c : Ctx) : Ctx := { c with vInfo := true }

/-- V_SECT set (R30). -/
def setValidSect (c : Ctx) : Ctx := { c with vSect := true }

/-- The 2-bit code of DSTATE (R26). -/
def dstateCode : DState → Nat
  | .idle => 0
  | .active => 1
  | .ended => 2

end Sys2Proof.Machine
end

