-- ==== Sys2Proof/Machine/Ops.lean ====
section
/-! DEFINITION. The operations every meaning is made of: memory, bit order and packing (R42 to R44), the updates of the
registers, taking an error and returning from one (R301, R303), the walk that a command's pseudocode is (R11), the read
primitives (R100 to R104), the record (R107) and the loops. -/

namespace Sys2Proof.Machine

/-! ## Memory -/

/-- The byte at an address of INBUF. -/
def Memory.read : Memory → Nat → Byte
  | [], _ => unlistedByte
  | (k, v) :: rest, a => if k = a then v else Memory.read rest a

/-- A memory with one byte written, in canonical form. -/
def Memory.write : Memory → Nat → Byte → Memory
  | [], a, b => if b = unlistedByte then [] else [(a, b)]
  | (k, v) :: rest, a, b =>
    if a < k then (if b = unlistedByte then (k, v) :: rest else (a, b) :: (k, v) :: rest)
    else if a = k then (if b = unlistedByte then rest else (a, b) :: rest)
    else (k, v) :: Memory.write rest a b

/-- A memory with a byte sequence written from an address on. -/
def Memory.writeBytes : Memory → Nat → List Byte → Memory
  | m, _, [] => m
  | m, a, b :: rest => Memory.writeBytes (Memory.write m a b) (a + 1) rest

/-! ## Bits, numbers and bytes -/

/-- Stream bit k is bit (7 - k mod 8) of byte floor(k/8) (R10, R100). -/
def streamBit (m : Memory) (k : Nat) : Bool := (m.read (k / 8)).getLsbD (7 - k % 8)

/-- The `n` stream bits from index `p` on, in read order. -/
def streamBits (m : Memory) (p n : Nat) : Bits := (List.range' p n).map (streamBit m)

/-- The number a bit sequence spells, its first bit the most significant (R10, R43). -/
def bitsToNat (bits : Bits) : Nat := bits.foldl (fun acc b => 2 * acc + b.toNat) 0

/-- The `n`-bit sequence that spells a number, most significant bit first. -/
def natToBits (n v : Nat) : Bits := (List.range n).map fun i => v.testBit (n - 1 - i)

/-- Byte k of a packed sequence: sequence bit 8k + j becomes bit 7 - j, and a bit past the end is 0 (R44). -/
def packedByte (bits : Bits) (k : Nat) : Byte :=
  BitVec.ofNat 8 (bitsToNat ((List.range 8).map fun j => bits.getD (8 * k + j) false))

/-- The bytes of a bit sequence, the last one padded with 0 bits (R44). -/
def pack (bits : Bits) : List Byte := (List.range ((bits.length + 7) / 8)).map (packedByte bits)

/-- A bit sequence as the response channel carries it (R73). -/
def bitSeq (bits : Bits) : BitSeq := ⟨bits.length, pack bits⟩

/-- The bits of a byte sequence in read order (R10). -/
def bytesToBits (bytes : List Byte) : Bits := bytes.flatMap fun b => natToBits 8 b.toNat

/-! ## Named register updates -/

/-- The cursor moved on by `n` bits (R22). -/
def State.advance (s : State) (n : Nat) : State := { s with curPos := s.curPos + n }

/-- The checkpoint moved to the cursor (R24, R110). -/
def State.markHere (s : State) : State := { s with curMark := s.curPos }

/-- ERR written (R25). -/
def State.withErr (s : State) (e : BitVec 32) : State := { s with err := e }

/-- DSTATE written (R26). -/
def State.withDState (s : State) (d : DState) : State := { s with dstate := d }

/-- The context written (R28). -/
def State.withCtx (s : State) (c : Ctx) : State := { s with ctx := c }

/-- One response put on the response channel (R40). -/
def State.respond (s : State) (r : Response) : State := { s with responses := s.responses ++ [r] }

/-- A new cursor over a byte sequence: the buffer's first bytes, the length, and position and checkpoint 0 (R106). -/
def State.withStream (s : State) (bytes : List Byte) : State :=
  { s with inbuf := s.inbuf.writeBytes 0 bytes, curLen := 8 * bytes.length, curPos := 0, curMark := 0 }

/-- The command channel and the data-in channel once a command has been taken from the host (R40). -/
def State.accept (s : State) (data : DataIn) (rest : List HostInput) : State :=
  { s with inputs := rest, dataIn := data }

/-- Reset, between two commands (R340, R343): every register as after reset and no response pending. HROM is rebuilt
from the same HCB, so it is the HROM that was there; what the host does next is the host's. -/
def State.resetBlock (s : State) (rest : List HostInput) : State :=
  { State.reset with hrom := s.hrom, inputs := rest }

/-- How many stream bits are unread (R23). -/
def State.unread (s : State) : Nat := s.curLen - s.curPos

/-- The unread bits themselves, `[CUR_POS, CUR_LEN)` (R23). -/
def State.unreadBits (s : State) : Bits := streamBits s.inbuf s.curPos s.unread

/-- REC, the bits consumed since the checkpoint, `[CUR_MARK, CUR_POS)` (R24, R107). -/
def State.record (s : State) : Bits := streamBits s.inbuf s.curMark (s.curPos - s.curMark)

/-- HROM[t] (R31). -/
def State.trie (s : State) (t : Nat) : Trie := s.hrom.getD t emptyTrie

/-! ## Taking an error, and returning from one -/

/-- `raise` in a stateful command (R301, R306): ERR takes the error and CUR_POS unless it already holds one, the
response reports both, and nothing else is undone or saved. -/
def State.takeError (s : State) (c : Cause) : State :=
  ((if s.err = 0 then s.withErr (errWord c s.curPos) else s)).respond (.error c s.curPos)

/-- An error that the response alone reports, with position 0: one the preamble finds (R302) or one a pure command
raises (R301). -/
def State.reportError (s : State) (c : Cause) : State := s.respond (.error c 0)

/-- The refusal of a stateful command while an error is pending: no effect but the response (R302, R308). -/
def State.refuse (s : State) : State := s.respond (.refused s.errClass s.errCause s.errPos)

/-- The end of a pending error, by LOAD (R303, R307). -/
def State.clearError (s : State) : State := s.withErr 0

/-! ## Walks -/

/-- The pseudocode of a command: it runs on the state and either returns a value or raises a cause. The state it had
reached when it raised is kept (R301). -/
abbrev Walk (α : Type) := EStateM Cause State α

/-- `raise` (R301). -/
def raise {α : Type} (c : Cause) : Walk α := fun s => .error c s

/-- The state as it stands. -/
def getState : Walk State := fun s => .ok s s

/-- CUR_POS. -/
def getPos : Walk Nat := fun s => .ok s.curPos s

/-- The context. -/
def getCtx : Walk Ctx := fun s => .ok s.ctx s

/-- A change of the context. -/
def updateCtx (f : Ctx → Ctx) : Walk Unit := fun s => .ok () (s.withCtx (f s.ctx))

/-- A change of DSTATE. -/
def setDState (d : DState) : Walk Unit := fun s => .ok () (s.withDState d)

/-- CUR_MARK <- CUR_POS (R110, R236). -/
def setMark : Walk Unit := fun s => .ok () s.markHere

/-- `CONTEXT_UNWRITTEN` unless the flag is set, before any read (R29, R304). -/
def requireValid (flag : Ctx → Bool) : Walk Unit := fun s =>
  if flag s.ctx then .ok () s else .error .contextUnwritten s

/-- A walk that runs only where a condition holds. -/
def whenTrue (b : Bool) (m : Walk Unit) : Walk Unit := if b then m else pure ()

/-- A walk after which both valid flags are cleared, also when it raised (R30, R223). -/
def clearAfter {α : Type} (m : Walk α) : Walk α := fun s =>
  match m s with
  | .ok a s' => .ok a (s'.withCtx (clearValid s'.ctx))
  | .error c s' => .error c (s'.withCtx (clearValid s'.ctx))

/-! ## Reads -/

/-- `ReadBits(n)` (R100): all `n` bits at once or none. -/
def readBits (n : Nat) : Walk Nat := fun s =>
  if s.unread < n then .error .read s
  else .ok (bitsToNat (streamBits s.inbuf s.curPos n)) (s.advance n)

/-- `ReadBool()` (R102). -/
def readBool : Walk Bool := do
  let v ← readBits 1
  pure (v != 0)

/-- A read whose value nothing uses. -/
def skipBits (n : Nat) : Walk Unit := do
  let _ ← readBits n
  pure ()

/-- The bits from a position to the next multiple of 8 (R103, C1). -/
def alignGap (pos : Nat) : Nat := (8 - pos % 8) % 8

/-- `ByteAlign()` (R103): the value read and the number of bits. -/
def byteAlign : Walk (Nat × Nat) := do
  let p ← getPos
  let v ← readBits (alignGap p)
  pure (v, alignGap p)

/-- `Take()` (R231): the record, and the checkpoint moved to the cursor. -/
def takeRecord : Walk BitSeq := do
  let s ← getState
  setMark
  pure (bitSeq s.record)

/-! ## Loops -/

/-- `for i in [i, i + n)`, carrying a value. -/
def foldFrom {α : Type} (f : Nat → α → Walk α) : Nat → Nat → α → Walk α
  | _, 0, a => pure a
  | i, n + 1, a => do
    let a' ← f i a
    foldFrom f (i + 1) n a'

/-- A walk run `n` times. -/
def times (n : Nat) (m : Walk Unit) : Walk Unit := foldFrom (fun _ _ => m) 0 n ()

/-- A walk run for each element of a list, in order. -/
def forEach {β : Type} (f : β → Walk Unit) : List β → Walk Unit
  | [] => pure ()
  | b :: rest => do
    f b
    forEach f rest

/-- A loop that repeats its body while it answers `inl`, at most `fuel` times. -/
def loopFuel {α β : Type} (body : α → Walk (α ⊕ β)) : Nat → α → Walk β
  | 0, _ => raise .read
  | fuel + 1, a => do
    match ← body a with
    | .inl a' => loopFuel body fuel a'
    | .inr b => pure b

/-- A loop whose body consumes at least one stream bit each time it goes on (R351). Its fuel is one more than the
unread bits, so it ends by its own exit or by an error of its body before the fuel does. -/
def whileBits {α β : Type} (body : α → Walk (α ⊕ β)) (a : α) : Walk β := fun s =>
  loopFuel body (s.unread + 1) a s

/-! ## Lists as array registers -/

/-- An array register with the entry at one index changed. -/
def modifyAt {α : Type} (f : α → α) : Nat → List α → List α
  | _, [] => []
  | 0, a :: rest => f a :: rest
  | i + 1, a :: rest => a :: modifyAt f i rest

end Sys2Proof.Machine
end

