-- ==== Sys2Proof/Machine/Operands.lean ====
section
/-! DEFINITION. The preamble every command runs (R302): the argument check, the refusal of a stateful command while an
error is pending, and the two groups of R71; and the codebook value decoder that the argument forms of CB_VALUE and
SPEC_UNIT name (R141). -/

namespace Sys2Proof.Machine

/-- A stateful command's pseudocode run to its response: the result, or the error taken (R40, R301). -/
def runWalk (m : Walk Value) (s : State) : State :=
  match m s with
  | .ok v s' => s'.respond (.ok v)
  | .error c s' => s'.takeError c

/-- A command of group S other than LOAD (R302): its argument check, then the refusal, then its pseudocode. -/
def stateful (argsOk : Bool) (m : Walk Value) (s : State) : State :=
  if argsOk then (if s.err = 0 then runWalk m s else s.refuse) else s.reportError .badArgument

/-- A command of group P (R302): its argument check, then its result or an error the response alone reports. -/
def pureCommand (argsOk : Bool) (r : Except Cause Value) (s : State) : State :=
  if argsOk then
    match r with
    | .ok v => s.respond (.ok v)
    | .error c => s.reportError c
  else s.reportError .badArgument

/-- A command word the decoder turns away: the response reports it and nothing else happens (R302). -/
def rejectWord (e : DecodeError) (s : State) : State :=
  match e with
  | .illegalOpcode => s.reportError .illegalOpcode
  | .badArgument => s.reportError .badArgument

/-- Component `k` of `CbValue(cb, idx)` (R141). -/
def cbComponent (cb idx k : Nat) : Int :=
  ((idx / cbBase cb ^ ((cbParams cb).dim - 1 - k) % cbBase cb : Nat) : Int) - (cbOffset cb : Int)

/-- `CbValue(cb, idx)` (R141): w, x, y, z or y, z. -/
def cbValue (cb idx : Nat) : List Int := (List.range (cbParams cb).dim).map (cbComponent cb idx)

/-- `SignCount(cb, v)` (R142). -/
def signCount (cb : Nat) (v : List Int) : Nat :=
  if (cbParams cb).signed then 0 else v.countP (fun x => decide (x ≠ 0))

/-- `EscCount(cb, v)` (R143). -/
def escCount (cb : Nat) (v : List Int) : Nat :=
  if cb = 11 then v.countP (fun x => decide (x = 16)) else 0

end Sys2Proof.Machine
end

