-- ==== Sys2Proof/Machine/Channel.lean ====
section
/-! DEFINITION. How a step takes its next instruction: what an input of the host becomes, and how a code is placed so
that the very next step runs it. -/

namespace Sys2Proof.Machine

/-- The stream a placed stream code is read from: the code in its first bits, then zeros, 16 bytes in all. -/
def codeStream (first : Byte) : List Byte := first :: List.replicate 15 0

/-- A state in which the next command is `word` and the stream is fresh, the loop active and no error pending. -/
def State.withStreamCode (s : State) (word : Word) (first : Byte) : State :=
  { (((s.withStream (codeStream first)).clearError).withDState .active) with
    inputs := .command ⟨word, emptyData⟩ :: s.inputs }

/-- A state whose very next step runs a code: a command word is put first on the command channel, with no data-in; an
element id is put at the cursor of a fresh stream with ELEMENT_STEP on the channel (R231); an extension type likewise
with EXT_PAYLOAD 1 (R228). -/
def State.withCode (s : State) : Code → State
  | .command w => { s with inputs := .command ⟨w, emptyData⟩ :: s.inputs }
  | .elementId c => s.withStreamCode (commandWord 0x34 0 0) (c ++ (0 : BitVec 5))
  | .extType c => s.withStreamCode (commandWord 0x33 0 1) (c ++ (0 : BitVec 4))

end Sys2Proof.Machine
end

