-- ==== Sys2Proof/Machine/Adts.lean ====
section
/-! DEFINITION. The ADTS frame header codec (46_adts.md): two pure commands. -/

namespace Sys2Proof.Machine

/-- A header's bytes as one 56-bit number, the first byte the most significant (R260). -/
def headerWord (bytes : List Byte) : BitVec 56 :=
  bytes.getD 0 0 ++ bytes.getD 1 0 ++ bytes.getD 2 0 ++ bytes.getD 3 0 ++ bytes.getD 4 0 ++ bytes.getD 5 0 ++
    bytes.getD 6 0

/-- Header bits `[first, first + width)` as an unsigned number (R260, R261). -/
def headerField (h : BitVec 56) (first width : Nat) : Nat := (h.extractLsb' (56 - first - width) width).toNat

/-- The 15 fields of a header (R260, R261). No field is checked (R264). -/
def parseHeader (h : BitVec 56) : AdtsHeader where
  syncword := headerField h 0 12
  mpegVersion := headerField h 12 1
  layer := headerField h 13 2
  protectionAbsent := headerField h 15 1
  profile := headerField h 16 2
  samplingFrequencyIndex := headerField h 18 4
  privateBit := headerField h 22 1
  channelConfiguration := headerField h 23 3
  originality := headerField h 26 1
  home := headerField h 27 1
  copyrightIdBit := headerField h 28 1
  copyrightIdStart := headerField h 29 1
  frameLength := headerField h 30 13
  bufferFullness := headerField h 43 11
  frames := headerField h 54 2

/-- `HeaderBytes(H)` (R266). -/
def headerBytes (rule : RdbSkipRule) (h : AdtsHeader) : Nat :=
  match rule with
  | .iso => 7 + (if h.protectionAbsent = 0 then 2 + 2 * h.frames else 0)
  | .always2N => 7 + (if h.protectionAbsent = 0 then 2 else 0) + 2 * h.frames

/-- Every field fits its width (R260, R262). -/
def headerFits (h : AdtsHeader) : Bool :=
  decide (h.syncword < 2 ^ 12) && decide (h.mpegVersion < 2 ^ 1) && decide (h.layer < 2 ^ 2) &&
    decide (h.protectionAbsent < 2 ^ 1) && decide (h.profile < 2 ^ 2) &&
    decide (h.samplingFrequencyIndex < 2 ^ 4) && decide (h.privateBit < 2 ^ 1) &&
    decide (h.channelConfiguration < 2 ^ 3) && decide (h.originality < 2 ^ 1) && decide (h.home < 2 ^ 1) &&
    decide (h.copyrightIdBit < 2 ^ 1) && decide (h.copyrightIdStart < 2 ^ 1) &&
    decide (h.frameLength < 2 ^ 13) && decide (h.bufferFullness < 2 ^ 11) && decide (h.frames < 2 ^ 2)

/-- The header as one 56-bit number, from its fields in order (R260, R262). -/
def packHeader (h : AdtsHeader) : BitVec 56 :=
  BitVec.ofNat 12 h.syncword ++ BitVec.ofNat 1 h.mpegVersion ++ BitVec.ofNat 2 h.layer ++
    BitVec.ofNat 1 h.protectionAbsent ++ BitVec.ofNat 2 h.profile ++ BitVec.ofNat 4 h.samplingFrequencyIndex ++
    BitVec.ofNat 1 h.privateBit ++ BitVec.ofNat 3 h.channelConfiguration ++ BitVec.ofNat 1 h.originality ++
    BitVec.ofNat 1 h.home ++ BitVec.ofNat 1 h.copyrightIdBit ++ BitVec.ofNat 1 h.copyrightIdStart ++
    BitVec.ofNat 13 h.frameLength ++ BitVec.ofNat 11 h.bufferFullness ++ BitVec.ofNat 2 h.frames

/-- The seven bytes of a header, b0 first (R260). -/
def headerToBytes (h : BitVec 56) : List Byte :=
  [h.extractLsb' 48 8, h.extractLsb' 40 8, h.extractLsb' 32 8, h.extractLsb' 24 8, h.extractLsb' 16 8,
    h.extractLsb' 8 8, h.extractLsb' 0 8]

/-- The result of ADTS_PARSE on a byte sequence (R261). -/
def adtsParse (bytes : List Byte) : Except Cause Value :=
  if bytes.length < 7 then .error .read
  else .ok (.header (parseHeader (headerWord bytes))
    (headerBytes Config.rdbSkipRule (parseHeader (headerWord bytes))))

/-- The result of ADTS_GENERATE on a header record (R262). -/
def adtsGenerate (h : AdtsHeader) : Except Cause Value :=
  if headerFits h then .ok (.bytes (headerToBytes (packHeader h))) else .error .fieldRange

/-- ADTS_PARSE (R261). -/
def execAdtsParse (s : State) : Host.Outcome State Fault Refusal :=
  .next (pureCommand true (adtsParse s.dataIn.bytes) s)

/-- ADTS_GENERATE (R262). -/
def execAdtsGenerate (s : State) : Host.Outcome State Fault Refusal :=
  .next (pureCommand true (adtsGenerate s.dataIn.header) s)

end Sys2Proof.Machine
end

