-- ==== Sys2Proof/Machine/Cursor.lean ====
section
/-! DEFINITION. The cursor commands (40_cursor.md). -/

namespace Sys2Proof.Machine

/-- The state LOAD leaves (R106): the new cursor, the error cleared, the loop active, the context invalid. -/
def loadState (s : State) (bytes : List Byte) : State :=
  (((s.withStream bytes).clearError).withDState .active).withCtx (clearValid s.ctx)

/-- LOAD (R106). It is never refused (R303); a sequence longer than INBUF is a bad argument of the preamble (R302). -/
def execLoad (s : State) : Host.Outcome State Fault Refusal :=
  .next (if s.dataIn.bytes.length ≤ inbufBytes then (loadState s s.dataIn.bytes).respond (.ok .unit)
    else s.reportError .badArgument)

/-- READBITS n (R101). -/
def execReadbits (n : Nat) (s : State) : Host.Outcome State Fault Refusal :=
  .next (stateful (decide (n ≤ maxReadBits)) (do let v ← readBits n; pure (.nat v)) s)

/-- READBOOL (R102). -/
def execReadbool (s : State) : Host.Outcome State Fault Refusal :=
  .next (stateful true (do let b ← readBool; pure (.bool b)) s)

/-- BYTEALIGN (R103). -/
def execBytealign (s : State) : Host.Outcome State Fault Refusal :=
  .next (stateful true (do let r ← byteAlign; pure (.aligned r.1 r.2)) s)

/-- ISEMPTY (R104). -/
def execIsempty (s : State) : Host.Outcome State Fault Refusal :=
  .next (stateful true (do let t ← getState; pure (.bool (decide (t.curPos = t.curLen)))) s)

/-- CONSUME_ARRAY (R108). -/
def execConsumeArray (s : State) : Host.Outcome State Fault Refusal :=
  .next (stateful true (do let t ← getState; pure (.record (bitSeq t.record))) s)

/-- CONSUME_CLEAR (R110). -/
def execConsumeClear (s : State) : Host.Outcome State Fault Refusal :=
  .next (stateful true (do setMark; pure .unit) s)

end Sys2Proof.Machine
end

