-- ==== Sys2Proof/Machine/Huffman.lean ====
section
/-! DEFINITION. Huffman decoding and the codebook value command (41_huffman.md, 42_codebook_values.md). -/

namespace Sys2Proof.Machine

/-- The descent of R124 from a node: one read for each edge; a missing child raises after its bit was read. -/
def descend : Trie → Walk Nat
  | .leaf sym => pure sym
  | .absent => raise .huffNoChild
  | .node c0 c1 => do
    let b ← readBits 1
    if b = 0 then descend c0 else descend c1

/-- `HuffDecode(t)` (R124). -/
def huffDecode (t : Nat) : Walk Nat := do
  let s ← getState
  descend (s.trie t)

/-- HUFF_DECODE t (R125). -/
def execHuffDecode (t : Nat) (s : State) : Host.Outcome State Fault Refusal :=
  .next (stateful (decide (t < numHuffTables)) (do let v ← huffDecode t; pure (.nat v)) s)

/-- CB_VALUE cb, idx (R141), a pure command. -/
def execCbValue (cb idx : Nat) (s : State) : Host.Outcome State Fault Refusal :=
  .next (pureCommand (isSpectralCb cb && decide (idx < cbSize cb)) (.ok (.tuple (cbValue cb idx))) s)

end Sys2Proof.Machine
end

