-- ==== Sys2Proof/Machine/SideInfo.lean ====
section
/-! DEFINITION. The side information of an individual channel stream (43_ics_side_info.md): ics_info, the section
parser, the scale-factor counter, pulse, TNS and gain control. -/

namespace Sys2Proof.Machine

/-! ## ics_info -/

/-- The window sequence of a 2-bit code (R170). -/
def windowSequenceOf : Nat → WindowSequence
  | 0 => .onlyLong
  | 1 => .longStart
  | 2 => .eightShort
  | _ => .longStop

/-- "is EIGHT_SHORT" (R170). -/
def isShort (ws : WindowSequence) : Bool := decide (ws = .eightShort)

/-- One pass of `Grouping()` (R172): a 1 extends the last group, a 0 starts a new one. `done` holds the finished
groups' lengths, the latest first, and `cur` the length of the last group. -/
def groupLengths : List Nat → Nat → Bits → List Nat
  | done, cur, [] => (cur :: done).reverse
  | done, cur, true :: rest => groupLengths done (cur + 1) rest
  | done, cur, false :: rest => groupLengths (cur :: done) 1 rest

/-- `Grouping()` on the 7 grouping bits, the first read one first (R172). -/
def grouping (g : Nat) : List Nat := groupLengths [] 1 (natToBits 7 g)

/-- The band edges of one short-window group of `len` windows (R174): band widths scaled by the group's length. -/
def shortOffsetsFrom (len : Nat) : Nat → Nat → Nat → List Nat
  | off, _, 0 => [off]
  | off, i, n + 1 =>
    off :: shortOffsetsFrom len (off + (swbOffsetShort.getD (i + 1) 0 - swbOffsetShort.getD i 0) * len) (i + 1) n

/-- `Offsets()` (R174, C2). -/
def offsets (ws : WindowSequence) (maxSfb : Nat) (lengths : List Nat) : List (List Nat) :=
  if isShort ws then lengths.map fun len => shortOffsetsFrom len 0 0 maxSfb
  else [(List.range (maxSfb + 1)).map fun i => swbOffsetLong.getD i 0]

/-- The rest of ics_info after window_shape, for EIGHT_SHORT (R171). -/
def icsInfoShort : Walk Unit := do
  let maxSfb ← readBits 4
  updateCtx fun c => { c with maxSfb := maxSfb }
  if maxSfb > numSwbShort then raise .maxSfbRange
  else do
    let g ← readBits 7
    updateCtx fun c => { c with
      scaleFactorGrouping := g, predictorDataPresent := 0, numWindows := 8,
      numWindowGroups := (grouping g).length, windowGroupLength := grouping g }

/-- The predictor block of a long window (R171, R183). -/
def predictorData (maxSfb : Nat) : Walk Unit := do
  let reset ← readBits 1
  whenTrue (reset == 1) (skipBits predResetGroupBits)
  times (min maxSfb predSfbMax) (skipBits 1)

/-- The rest of ics_info after window_shape, for a long window (R171). -/
def icsInfoLong : Walk Unit := do
  let maxSfb ← readBits 6
  updateCtx fun c => { c with maxSfb := maxSfb }
  if maxSfb > numSwbLong then raise .maxSfbRange
  else do
    updateCtx fun c => { c with scaleFactorGrouping := 0 }
    let pred ← readBits 1
    updateCtx fun c => { c with predictorDataPresent := pred }
    whenTrue (pred == 1) (predictorData maxSfb)
    updateCtx fun c => { c with numWindows := 1, numWindowGroups := 1, windowGroupLength := [1] }

/-- What ics_info reads after window_shape (R171). -/
def icsInfoWindow (ws : WindowSequence) : Walk Unit := if isShort ws then icsInfoShort else icsInfoLong

/-- The body of ICS_INFO (R171). -/
def icsInfoBody : Walk Unit := do
  updateCtx clearValid
  let reserved ← readBits 1
  updateCtx fun c => { c with icsReservedBit := reserved }
  let ws ← readBits 2
  updateCtx fun c => { c with windowSequence := windowSequenceOf ws }
  let shape ← readBits 1
  updateCtx fun c => { c with windowShape := shape }
  icsInfoWindow (windowSequenceOf ws)
  updateCtx fun c => { c with sectSfbOffset := offsets c.windowSequence c.maxSfb c.windowGroupLength }
  updateCtx setValidInfo

/-- The result of ICS_INFO (R171). -/
def icsInfoResult (c : Ctx) : Value :=
  .icsInfo c.windowSequence c.maxSfb c.numWindowGroups (c.windowGroupLength.take c.numWindowGroups)

/-- ICS_INFO (R171). -/
def execIcsInfo (s : State) : Host.Outcome State Fault Refusal :=
  .next (stateful true (do icsInfoBody; let c ← getCtx; pure (icsInfoResult c)) s)

/-! ## section_data -/

/-- The width of a section length increment (R176). -/
def sectBits (ws : WindowSequence) : Nat := if isShort ws then 3 else 5

/-- The increment that says "more to add", all ones (R176). -/
def sectEsc (ws : WindowSequence) : Nat := if isShort ws then 7 else 31

/-- One increment of a section's length (R176). -/
def sectionIncrement (ws : WindowSequence) (len : Nat) : Walk (Nat ⊕ Nat) := do
  let incr ← readBits (sectBits ws)
  pure (if incr = sectEsc ws then .inl (len + incr) else .inr (len + incr))

/-- The escaped length of a section (R176). -/
def sectionLength (ws : WindowSequence) : Walk Nat := whileBits (sectionIncrement ws) 0

/-- The context writes of one stored section of group `g`: its codebook and bounds, and the codebook of each of its
bands (R176). Bands are covered in order without gaps, so they are appended (R179). -/
def storeSection (g : Nat) (x : Section) (c : Ctx) : Ctx :=
  { c with
    sect := modifyAt (· ++ [x]) g c.sect
    sfbCb := modifyAt (· ++ List.replicate (x.last - x.first) x.cb) g c.sfbCb }

/-- One section of group `g` from band `k` on (R176 to R178). -/
def sectionPass (g k : Nat) : Walk (Nat ⊕ Unit) := do
  let c ← getCtx
  if k < c.maxSfb then do
    let cb ← readBits 4
    let len ← sectionLength c.windowSequence
    if k + len > c.maxSfb then raise .sectionOverrun
    else do
      whenTrue (decide (len > 0)) (updateCtx (storeSection g ⟨cb, k, k + len⟩))
      pure (.inl (k + len))
  else pure (.inr ())

/-- The context with group `g` opened: no section and no band yet. -/
def openGroup (c : Ctx) : Ctx := { c with sect := c.sect ++ [[]], sfbCb := c.sfbCb ++ [[]] }

/-- The context with `num_sec[g]` written (R176). -/
def closeGroup (g : Nat) (c : Ctx) : Ctx := { c with numSec := c.numSec ++ [(c.sect.getD g []).length] }

/-- The sections of group `g` (R176). -/
def sectionGroup (g : Nat) : Walk Unit := do
  updateCtx openGroup
  whileBits (sectionPass g) 0
  updateCtx (closeGroup g)

/-- The context at the start of SECTION_DATA: V_SECT clear (R30) and no section held. -/
def startSections (c : Ctx) : Ctx := { clearValidSect c with sect := [], sfbCb := [], numSec := [] }

/-- The body of SECTION_DATA (R176). -/
def sectionDataBody : Walk Unit := do
  requireValid Ctx.vInfo
  updateCtx startSections
  let c ← getCtx
  foldFrom (fun g _ => sectionGroup g) 0 c.numWindowGroups ()
  updateCtx setValidSect

/-- SECTION_DATA (R176). -/
def execSectionData (s : State) : Host.Outcome State Fault Refusal :=
  .next (stateful true (do sectionDataBody; let c ← getCtx; pure (.sections c.sect)) s)

/-! ## scale_factor_data -/

/-- The codebook of a band, `sfb_cb[g][sfb]` (R179). -/
def bandCb (c : Ctx) (g sfb : Nat) : Nat := (c.sfbCb.getD g []).getD sfb 0

/-- One band of scale_factor_data: a symbol unless its codebook is ZERO_HCB (R181). -/
def scaleFactorBand (g sfb n : Nat) : Walk Nat := do
  let c ← getCtx
  if bandCb c g sfb = 0 then pure n
  else do
    let _ ← huffDecode 0
    pure (n + 1)

/-- The body of SCALE_FACTOR_DATA: the number of symbols (R181, R182). -/
def scaleFactorDataBody : Walk Nat := do
  requireValid Ctx.vSect
  let c ← getCtx
  foldFrom (fun g n => foldFrom (scaleFactorBand g) 0 c.maxSfb n) 0 c.numWindowGroups 0

/-- SCALE_FACTOR_DATA (R181). -/
def execScaleFactorData (s : State) : Host.Outcome State Fault Refusal :=
  .next (stateful true (do let n ← scaleFactorDataBody; pure (.nat n)) s)

/-! ## pulse_data -/

/-- The body of PULSE_DATA: the number of bits (R185, R186). -/
def pulseDataBody : Walk Nat := do
  let numberPulse ← readBits 2
  skipBits 6
  times (numberPulse + 1) (do skipBits 5; skipBits 4)
  pure (8 + 9 * (numberPulse + 1))

/-- PULSE_DATA (R185). -/
def execPulseData (s : State) : Host.Outcome State Fault Refusal :=
  .next (stateful true (do let n ← pulseDataBody; pure (.nat n)) s)

/-! ## tns_data -/

/-- One TNS filter (R187, R188). -/
def tnsFilter (short : Bool) (coefRes : Nat) : Walk Unit := do
  skipBits (if short then 4 else 6)
  let order ← readBits (if short then 3 else 5)
  if order > 0 then do
    skipBits 1
    let compress ← readBits 1
    times order (skipBits (3 + coefRes - compress))
  else pure ()

/-- The TNS filters of one window (R187). -/
def tnsWindow (short : Bool) : Walk Unit := do
  let nFilt ← readBits (if short then 1 else 2)
  if nFilt > 0 then do
    let coefRes ← readBits 1
    times nFilt (tnsFilter short coefRes)
  else pure ()

/-- The body of TNS_DATA: the number of bits (R187). -/
def tnsDataBody : Walk Nat := do
  requireValid Ctx.vInfo
  let c ← getCtx
  let n0 ← getPos
  times c.numWindows (tnsWindow (isShort c.windowSequence))
  let n1 ← getPos
  pure (n1 - n0)

/-- TNS_DATA (R187). -/
def execTnsData (s : State) : Host.Outcome State Fault Refusal :=
  .next (stateful true (do let n ← tnsDataBody; pure (.nat n)) s)

/-! ## gain_control_data -/

/-- The aloccode widths of the windows of a window sequence (R189). -/
def alocWidths : WindowSequence → List Nat
  | .onlyLong => [5]
  | .longStart => [4, 2]
  | .eightShort => [2, 2, 2, 2, 2, 2, 2, 2]
  | .longStop => [4, 5]

/-- The adjustments of one window of one band (R189). -/
def gainWindow (alocWidth : Nat) : Walk Unit := do
  let adjustNum ← readBits 3
  times adjustNum (do skipBits 4; skipBits alocWidth)

/-- The body of GAIN_CONTROL_DATA: the number of bits (R189). -/
def gainControlDataBody : Walk Nat := do
  requireValid Ctx.vInfo
  let c ← getCtx
  let n0 ← getPos
  let maxBand ← readBits 2
  times maxBand (forEach gainWindow (alocWidths c.windowSequence))
  let n1 ← getPos
  pure (n1 - n0)

/-- GAIN_CONTROL_DATA (R189). -/
def execGainControlData (s : State) : Host.Outcome State Fault Refusal :=
  .next (stateful true (do let n ← gainControlDataBody; pure (.nat n)) s)

end Sys2Proof.Machine
end

