-- ==== Sys2Proof/Machine/Spectral.lean ====
section
/-! DEFINITION. The spectral-coefficient Huffman unpacker (44_spectral.md). -/

namespace Sys2Proof.Machine

/-- One bit of an escape prefix: a 1 goes on (R204). -/
def escPrefixBit (n : Nat) : Walk (Nat ⊕ Nat) := do
  let b ← readBits 1
  pure (if b = 1 then .inl (n + 1) else .inr n)

/-- `EscSeq()` (R204, R206): the prefix length N and the word of N + 4 bits. -/
def escSeq : Walk (Nat × Nat) := do
  let n ← whileBits escPrefixBit 0
  let w ← readBits (n + 4)
  pure (n, w)

/-- An escape sequence whose value nothing uses. -/
def skipEscape : Walk Unit := do
  let _ ← escSeq
  pure ()

/-- What `SpecUnit` reads after a codeword whose tuple is `v`: all sign bits, then the escapes (R201, R202). -/
def unitTail (cb : Nat) (v : List Int) : Walk Unit := do
  whenTrue (!(cbParams cb).signed) (forEach (fun x => whenTrue (x != 0) (skipBits 1)) v)
  whenTrue (cb == 11) (forEach (fun x => whenTrue (x == 16) skipEscape) v)

/-- `SpecUnit(cb)` (R201): symbol, tuple and bits consumed. -/
def specUnit (cb : Nat) : Walk (Nat × List Int × Nat) := do
  let n0 ← getPos
  let idx ← huffDecode cb
  unitTail cb (cbValue cb idx)
  let n1 ← getPos
  pure (idx, cbValue cb idx, n1 - n0)

/-- SPEC_UNIT cb (R203). -/
def execSpecUnit (cb : Nat) (s : State) : Host.Outcome State Fault Refusal :=
  .next (stateful (isSpectralCb cb) (do let r ← specUnit cb; pure (.unitOf r.1 r.2.1 r.2.2)) s)

/-- ESC_SEQ (R205): the word's low 32 bits. -/
def execEscSeq (s : State) : Host.Outcome State Fault Refusal :=
  .next (stateful true (do let r ← escSeq; pure (.escape r.1 (r.2 % 2 ^ 32))) s)

/-- The coefficient offset of band edge `i` of group `g` (R174). -/
def bandEdge (c : Ctx) (g i : Nat) : Nat := (c.sectSfbOffset.getD g []).getD i 0

/-- How often R207's loop runs from `k` to `kend` in steps of `dim`. -/
def unitsBetween (k kend dim : Nat) : Nat := (kend - k + (dim - 1)) / dim

/-- The units of one section of group `g`; `n` is the number of units so far (R207). -/
def spectralSection (c : Ctx) (g : Nat) (x : Section) (n : Nat) : Walk Nat :=
  if isSpectralCb x.cb then
    foldFrom (fun _ m => do let _ ← specUnit x.cb; pure (m + 1)) 0
      (unitsBetween (bandEdge c g x.first) (bandEdge c g x.last) (cbParams x.cb).dim) n
  else pure n

/-- The sections of group `g` (R207). -/
def spectralGroup (c : Ctx) (g n : Nat) : Walk Nat :=
  foldFrom (fun i m => spectralSection c g ((c.sect.getD g []).getD i ⟨0, 0, 0⟩) m) 0 (c.numSec.getD g 0) n

/-- The body of SPECTRAL_DATA: units and bits (R207). -/
def spectralDataBody : Walk (Nat × Nat) := do
  requireValid Ctx.vSect
  let c ← getCtx
  let n0 ← getPos
  let units ← foldFrom (spectralGroup c) 0 c.numWindowGroups 0
  let n1 ← getPos
  pure (units, n1 - n0)

/-- SPECTRAL_DATA (R207). -/
def execSpectralData (s : State) : Host.Outcome State Fault Refusal :=
  .next (stateful true (do let r ← spectralDataBody; pure (.spectral r.1 r.2)) s)

end Sys2Proof.Machine
end

