-- ==== Sys2Proof/Machine/Elements.lean ====
section
/-! DEFINITION. The syntax elements and the element-boundary detector (45_elements.md): ICS, SCE, PCE, FIL, the
extension payload, the dispatch loop, and the arm of each element id and extension type. -/

namespace Sys2Proof.Machine

/-! ## Individual channel stream and single channel element -/

/-- An optional block behind its presence flag (R222). -/
def whenFlag (body : Walk Nat) : Walk Unit := do
  let flag ← readBits 1
  whenTrue (flag == 1) (do let _ ← body; pure ())

/-- The body of ICS after the common_window check: global_gain and bits (R221, R222). -/
def icsBody : Walk (Nat × Nat) := do
  updateCtx clearValid
  let n0 ← getPos
  let gain ← readBits 8
  updateCtx fun c => { c with globalGain := gain }
  icsInfoBody
  sectionDataBody
  let _ ← scaleFactorDataBody
  whenFlag pulseDataBody
  whenFlag tnsDataBody
  whenFlag gainControlDataBody
  let _ ← spectralDataBody
  let n1 ← getPos
  pure (gain, n1 - n0)

/-- ICS cw (R222, R224). -/
def execIcs (commonWindow : Bool) (s : State) : Host.Outcome State Fault Refusal :=
  .next (stateful true
    (if commonWindow then raise .commonWindow else (do let r ← icsBody; pure (.ics r.1 r.2))) s)

/-- The body of SCE: its tag (R223). -/
def sceBody : Walk Nat := do
  let tag ← readBits 4
  let _ ← clearAfter icsBody
  pure tag

/-- SCE (R223). -/
def execSce (s : State) : Host.Outcome State Fault Refusal :=
  .next (stateful true (do let tag ← sceBody; pure (.nat tag)) s)

/-! ## Program config element -/

/-- An optional group of PCE fields behind its presence flag (R225). -/
def pceMixdown (fields : Walk Unit) : Walk Unit := do
  let flag ← readBits 1
  whenTrue (flag == 1) fields

/-- The body of PCE: tag and comment byte count (R225, R226). -/
def pceBody : Walk (Nat × Nat) := do
  let tag ← readBits 4
  skipBits 2
  skipBits 4
  let nf ← readBits 4
  let ns ← readBits 4
  let nb ← readBits 4
  let nl ← readBits 2
  let na ← readBits 3
  let nc ← readBits 4
  pceMixdown (skipBits 4)
  pceMixdown (skipBits 4)
  pceMixdown (do skipBits 2; skipBits 1)
  times nf (do skipBits 1; skipBits 4)
  times ns (do skipBits 1; skipBits 4)
  times nb (do skipBits 1; skipBits 4)
  times nl (skipBits 4)
  times na (skipBits 4)
  times nc (do skipBits 1; skipBits 4)
  let _ ← byteAlign
  let ncb ← readBits 8
  times ncb (skipBits 8)
  pure (tag, ncb)

/-- PCE (R225). -/
def execPce (s : State) : Host.Outcome State Fault Refusal :=
  .next (stateful true (do let r ← pceBody; pure (.pce r.1 r.2)) s)

/-! ## Fill element and extension payload -/

/-- What an extension payload of `cnt` bytes reads after its type (R228 to R230). -/
def extBody (cnt : Nat) : ExtType → Walk Unit
  | .fillData => do
    skipBits 4
    times (cnt - 1) (skipBits 8)
  | .dynamicRange => raise .extDynamicRange
  | .sbrData => raise .extSbrData
  | .sbrDataCrc => raise .extSbrDataCrc
  | .other _ => skipBits (8 * (cnt - 1) + 4)

/-- `ExtPayload(cnt)` (R228): the type's code and the count. -/
def extPayload (cnt : Nat) : Walk (Nat × Nat) := do
  let code ← readBits 4
  extBody cnt (extTypeOf code)
  pure (code, cnt)

/-- EXT_PAYLOAD cnt (R228). -/
def execExtPayload (cnt : Nat) (s : State) : Host.Outcome State Fault Refusal :=
  .next (stateful (extCountOk cnt) (do let r ← extPayload cnt; pure (.ext r.1 r.2)) s)

/-- The byte count of a fill element (R227). -/
def fillCount : Walk Nat := do
  let cnt ← readBits 4
  if cnt = 15 then (do let esc ← readBits 8; pure (cnt + esc - 1)) else pure cnt

/-- One pass of FIL's loop (R227). -/
def fillPass (cnt : Nat) : Walk (Nat ⊕ Unit) :=
  if cnt > 0 then (do let r ← extPayload cnt; pure (.inl (cnt - r.2))) else pure (.inr ())

/-- The body of FIL: the byte count (R227). -/
def filBody : Walk Nat := do
  let total ← fillCount
  whileBits fillPass total
  pure total

/-- FIL (R227). -/
def execFil (s : State) : Host.Outcome State Fault Refusal :=
  .next (stateful true (do let n ← filBody; pure (.nat n)) s)

/-! ## The dispatch loop -/

/-- An element that yields a record: its body, then `Take()` (R231, R233). -/
def recordElement {α : Type} (id : Nat) (body : Walk α) : Walk StepResult := do
  let _ ← body
  let r ← takeRecord
  pure (.element id r)

/-- An id in 1..4: the record is cleared and no body is parsed (R236). -/
def skipElement (id : Nat) : Walk StepResult := do
  setMark
  pure (.skipped id)

/-- The arm of the dispatch loop for an element id that has been read (R231). -/
def elementArm : ElementId → Walk StepResult
  | .sce => recordElement 0 sceBody
  | .cpe => skipElement 1
  | .cce => skipElement 2
  | .lfe => skipElement 3
  | .dse => skipElement 4
  | .pce => recordElement 5 pceBody
  | .fil => recordElement 6 filBody
  | .endId => do
    let r ← takeRecord
    setDState .ended
    pure (.endElement r)

/-- The body of ELEMENT_STEP (R231, R232, R234). -/
def elementStepBody : Walk StepResult := do
  let s ← getState
  if s.dstate = .ended then pure .done
  else if s.curPos = s.curLen then do
    setDState .ended
    pure .exhausted
  else do
    let id ← readBits 3
    elementArm (elementIdOf id)

/-- ELEMENT_STEP (R231). -/
def execElementStep (s : State) : Host.Outcome State Fault Refusal :=
  .next (stateful true (do let r ← elementStepBody; pure (.step r)) s)

/-- The kind of a result (R235). -/
def stepKind : StepResult → LoopKind
  | .done => .done
  | .exhausted => .exhausted
  | .element _ _ => .element
  | .endElement _ => .endId
  | .skipped _ => .skipped

/-- A result is listed by RUN_FRAME (R237). -/
def isListed (r : StepResult) : Bool :=
  match stepKind r with
  | .element => true
  | .skipped => true
  | .endId => true
  | .exhausted => false
  | .done => false

/-- A result ends RUN_FRAME's loop (R237). -/
def endsLoop (r : StepResult) : Bool :=
  match stepKind r with
  | .endId => true
  | .exhausted => true
  | .done => true
  | .element => false
  | .skipped => false

/-- One pass of RUN_FRAME's loop; `l` is the list so far (R237). -/
def framePass (l : List StepResult) : Walk (List StepResult ⊕ List StepResult × LoopKind) := do
  let r ← elementStepBody
  let l' := if isListed r then l ++ [r] else l
  pure (if endsLoop r then .inr (l', stepKind r) else .inl l')

/-- The body of RUN_FRAME (R237). -/
def runFrameBody : Walk (List StepResult × LoopKind) := whileBits framePass []

/-- RUN_FRAME (R237). -/
def execRunFrame (s : State) : Host.Outcome State Fault Refusal :=
  .next (stateful true (do let r ← runFrameBody; pure (.frame r.1 r.2)) s)

/-! ## The stream codes

The block reads a stream code inside ELEMENT_STEP, RUN_FRAME, EXT_PAYLOAD or FIL. Its meaning is the effect from the
point where its 3 or 4 bits have been read, as the cursor then stands, to the command's response. -/

/-- The element id SCE, 000 (R77, R231). -/
def execIdSce (s : State) : Host.Outcome State Fault Refusal :=
  .next (stateful true (do let r ← elementArm .sce; pure (.step r)) s)

/-- The element id CPE, 001: skipped (R77, R236). -/
def execIdCpe (s : State) : Host.Outcome State Fault Refusal :=
  .next (stateful true (do let r ← elementArm .cpe; pure (.step r)) s)

/-- The element id CCE, 010: skipped (R77, R236). -/
def execIdCce (s : State) : Host.Outcome State Fault Refusal :=
  .next (stateful true (do let r ← elementArm .cce; pure (.step r)) s)

/-- The element id LFE, 011: skipped (R77, R236). -/
def execIdLfe (s : State) : Host.Outcome State Fault Refusal :=
  .next (stateful true (do let r ← elementArm .lfe; pure (.step r)) s)

/-- The element id DSE, 100: skipped (R77, R236). -/
def execIdDse (s : State) : Host.Outcome State Fault Refusal :=
  .next (stateful true (do let r ← elementArm .dse; pure (.step r)) s)

/-- The element id PCE, 101 (R77, R231). -/
def execIdPce (s : State) : Host.Outcome State Fault Refusal :=
  .next (stateful true (do let r ← elementArm .pce; pure (.step r)) s)

/-- The element id FIL, 110 (R77, R231). -/
def execIdFil (s : State) : Host.Outcome State Fault Refusal :=
  .next (stateful true (do let r ← elementArm .fil; pure (.step r)) s)

/-- The element id END, 111 (R77, R231). -/
def execIdEnd (s : State) : Host.Outcome State Fault Refusal :=
  .next (stateful true (do let r ← elementArm .endId; pure (.step r)) s)

/-- The extension type EXT_FILL_DATA, 0001, in a payload of `cnt` bytes (R78, R228). -/
def execExtFillData (cnt : Nat) (s : State) : Host.Outcome State Fault Refusal :=
  .next (stateful (extCountOk cnt) (do extBody cnt .fillData; pure (.ext (extTypeCode .fillData) cnt)) s)

/-- The extension type EXT_DYNAMIC_RANGE, 1011: the unsupported-input error (R78, R230). -/
def execExtDynamicRange (s : State) : Host.Outcome State Fault Refusal :=
  .next (stateful true (raise .extDynamicRange) s)

/-- The extension type EXT_SBR_DATA, 1101: the unsupported-input error (R78, R230). -/
def execExtSbrData (s : State) : Host.Outcome State Fault Refusal :=
  .next (stateful true (raise .extSbrData) s)

/-- The extension type EXT_SBR_DATA_CRC, 1110: the unsupported-input error (R78, R230). -/
def execExtSbrDataCrc (s : State) : Host.Outcome State Fault Refusal :=
  .next (stateful true (raise .extSbrDataCrc) s)

/-- Any other extension type, in a payload of `cnt` bytes (R78, R229). -/
def execExtOther (code cnt : Nat) (s : State) : Host.Outcome State Fault Refusal :=
  .next (stateful (isOtherExtCode code && extCountOk cnt)
    (do extBody cnt (.other code); pure (.ext code cnt)) s)

end Sys2Proof.Machine
end

