-- ==== Sys2Proof/Machine/Dispatch.lean ====
section
/-! DEFINITION. One arm for each instruction. -/

namespace Sys2Proof.Machine

/-- The meaning of every instruction. -/
def exec (i : Instr) (s : State) : Host.Outcome State Fault Refusal :=
  match i with
  | .load => Sys2Proof.Machine.execLoad s
  | .readbits n => Sys2Proof.Machine.execReadbits n s
  | .readbool => Sys2Proof.Machine.execReadbool s
  | .bytealign => Sys2Proof.Machine.execBytealign s
  | .isempty => Sys2Proof.Machine.execIsempty s
  | .consumeArray => Sys2Proof.Machine.execConsumeArray s
  | .consumeClear => Sys2Proof.Machine.execConsumeClear s
  | .huffDecode t => Sys2Proof.Machine.execHuffDecode t s
  | .cbValue cb idx => Sys2Proof.Machine.execCbValue cb idx s
  | .specUnit cb => Sys2Proof.Machine.execSpecUnit cb s
  | .escSeq => Sys2Proof.Machine.execEscSeq s
  | .icsInfo => Sys2Proof.Machine.execIcsInfo s
  | .sectionData => Sys2Proof.Machine.execSectionData s
  | .scaleFactorData => Sys2Proof.Machine.execScaleFactorData s
  | .pulseData => Sys2Proof.Machine.execPulseData s
  | .tnsData => Sys2Proof.Machine.execTnsData s
  | .gainControlData => Sys2Proof.Machine.execGainControlData s
  | .spectralData => Sys2Proof.Machine.execSpectralData s
  | .ics commonWindow => Sys2Proof.Machine.execIcs commonWindow s
  | .sce => Sys2Proof.Machine.execSce s
  | .pce => Sys2Proof.Machine.execPce s
  | .fil => Sys2Proof.Machine.execFil s
  | .extPayload cnt => Sys2Proof.Machine.execExtPayload cnt s
  | .elementStep => Sys2Proof.Machine.execElementStep s
  | .runFrame => Sys2Proof.Machine.execRunFrame s
  | .adtsParse => Sys2Proof.Machine.execAdtsParse s
  | .adtsGenerate => Sys2Proof.Machine.execAdtsGenerate s
  | .idSce => Sys2Proof.Machine.execIdSce s
  | .idCpe => Sys2Proof.Machine.execIdCpe s
  | .idCce => Sys2Proof.Machine.execIdCce s
  | .idLfe => Sys2Proof.Machine.execIdLfe s
  | .idDse => Sys2Proof.Machine.execIdDse s
  | .idPce => Sys2Proof.Machine.execIdPce s
  | .idFil => Sys2Proof.Machine.execIdFil s
  | .idEnd => Sys2Proof.Machine.execIdEnd s
  | .extFillData cnt => Sys2Proof.Machine.execExtFillData cnt s
  | .extDynamicRange => Sys2Proof.Machine.execExtDynamicRange s
  | .extSbrData => Sys2Proof.Machine.execExtSbrData s
  | .extSbrDataCrc => Sys2Proof.Machine.execExtSbrDataCrc s
  | .extOther code cnt => Sys2Proof.Machine.execExtOther code cnt s

end Sys2Proof.Machine
end

