-- ==== Sys2Proof/Machine/Step.lean ====
section
/-! DEFINITION. One step of the block: the host's next input, run to its response. -/

namespace Sys2Proof.Machine

/-- One step. With nothing on the command channel the block waits (R342). A reset puts the block in its reset state
(R343). A command word is taken with its data-in, decoded, and run or reported (R302); each is one atomic step (R48). -/
def step (s : State) : Host.Outcome State Fault Refusal :=
  match s.inputs with
  | [] => .next s
  | .reset :: rest => .next (s.resetBlock rest)
  | .command c :: rest =>
    match decode c.word with
    | .ok i => exec i (s.accept c.data rest)
    | .error e => .next (rejectWord e (s.accept c.data rest))

/-- The state with a table row's instruction placed where the next step takes its instruction. -/
def State.withFetchWord (s : State) (nbits w : Nat) : State :=
  match tableCode nbits w with
  | some c => s.withCode c
  | none => s

end Sys2Proof.Machine
end

