-- ==== Sys2Proof/Safety.lean ====
section
/-! DEFINITION. What a sound state of the block is, in the terms claims use: the bounds of the cursor (R22 to R24), the
canonical buffer (R21), the legal contents of ERR (R25, R300, R301) and the ranges of a valid context (R28, R179). -/

namespace Sys2Proof.Machine

/-- A cause that ERR can hold: the preamble's errors and those of the pure commands are only ever in a response (R300,
R302). -/
def isRecorded : Cause → Bool
  | .illegalOpcode => false
  | .badArgument => false
  | .fieldRange => false
  | .read => true
  | .commonWindow => true
  | .extDynamicRange => true
  | .extSbrData => true
  | .extSbrDataCrc => true
  | .huffNoChild => true
  | .sectionOverrun => true
  | .maxSfbRange => true
  | .contextUnwritten => true

/-- The buffer is in canonical form and lists no address outside it (R21, R41). -/
def State.bufferOk (s : State) : Prop :=
  s.inbuf.wf = true ∧ ∀ x ∈ s.inbuf, x.1 < inbufBytes

/-- The cursor's bounds: whole bytes, at most 8·INBUF_BYTES bits, and CUR_MARK <= CUR_POS <= CUR_LEN (R22 to R24). -/
def State.cursorOk (s : State) : Prop :=
  s.curMark ≤ s.curPos ∧ s.curPos ≤ s.curLen ∧ s.curLen ≤ 8 * inbufBytes ∧ s.curLen % 8 = 0

/-- ERR is clear, or holds a recorded cause at the present cursor: after an error nothing moves the cursor until LOAD
(R301, R308). -/
def State.errOk (s : State) : Prop :=
  s.err = 0 ∨ ∃ c, isRecorded c = true ∧ s.err = errWord c s.curPos

/-- The largest max_sfb of a window sequence (R175). -/
def sfbLimit (ws : WindowSequence) : Nat := if isShort ws then numSwbShort else numSwbLong

/-- The number of windows of a window sequence (R170). -/
def windowCount (ws : WindowSequence) : Nat := if isShort ws then 8 else 1

/-- The window part of a valid context (R28, R172, R174). -/
def Ctx.infoOk (c : Ctx) : Prop :=
  c.maxSfb ≤ sfbLimit c.windowSequence ∧
  c.numWindows = windowCount c.windowSequence ∧
  c.numWindowGroups = c.windowGroupLength.length ∧
  c.windowGroupLength.sum = c.numWindows ∧
  (∀ n ∈ c.windowGroupLength, 1 ≤ n) ∧
  c.sectSfbOffset = offsets c.windowSequence c.maxSfb c.windowGroupLength

/-- Sections that cover the bands `[k, last)` in order without gaps or overlaps, each with at least one band and a 4-bit
codebook (R179). -/
def tiles : Nat → List Section → Nat → Prop
  | k, [], last => k = last
  | k, x :: rest, last => x.cb < 16 ∧ x.first = k ∧ k < x.last ∧ tiles x.last rest last

/-- The codebook of each band, from a group's sections in order (R179). -/
def bandCodebooks (sections : List Section) : List Nat :=
  sections.flatMap fun x => List.replicate (x.last - x.first) x.cb

/-- The section part of a valid context (R28, R178, R179). -/
def Ctx.sectOk (c : Ctx) : Prop :=
  c.vInfo = true ∧
  c.sect.length = c.numWindowGroups ∧
  c.numSec = c.sect.map List.length ∧
  c.sfbCb = c.sect.map bandCodebooks ∧
  ∀ sections ∈ c.sect, tiles 0 sections c.maxSfb

/-- The context holds what its valid flags promise (R28 to R30). -/
def State.ctxOk (s : State) : Prop :=
  (s.ctx.vInfo = true → s.ctx.infoOk) ∧ (s.ctx.vSect = true → s.ctx.sectOk)

/-- A sound state, context apart. -/
def State.sound (s : State) : Prop := s.bufferOk ∧ s.cursorOk ∧ s.errOk

/-- A safe run: from `s`, `k` steps end in a state, none in a fault or a refusal. -/
def safeRun (k : Nat) (s : State) : Prop :=
  ∃ t, Host.Core.run { State := State, Fault := Fault, Refusal := Refusal, step := step, reset := State.reset } k s =
    .next t

end Sys2Proof.Machine
end

