-- ==== Sys2Proof/Certificates/Slice0/Grammar.lean ====
section
/-! DEFINITION. The syntax elements of a raw_data_block as data, with the bits each is written in: the grammar of R171,
R176, R181, R185, R187, R189, R201, R204, R207, R222 to R228 and R231 from the writer's side. A statement about a syntax
command says that on a stream that begins with an element's bits the command consumes exactly them. -/

namespace Sys2Proof.Grammar

open Sys2Proof.Machine

/-- The unread stream begins with these bits. -/
def Ahead (s : State) (bits : Bits) : Prop := bits <+: s.unreadBits

/-- The node a bit path leads to, `absent` where the path leaves the trie (R121, R124). -/
def subtrie : Trie → Bits → Trie
  | t, [] => t
  | .node c0 c1, b :: rest => subtrie (if b then c1 else c0) rest
  | .leaf _, _ :: _ => .absent
  | .absent, _ :: _ => .absent

/-- A bit path is the codeword of a symbol in table `t` (R121). -/
def IsCodeword (s : State) (t : Nat) (path : Bits) (sym : Nat) : Prop := subtrie (s.trie t) path = .leaf sym

/-! ## Spectral units -/

/-- An escape sequence: the prefix length and the word's bits (R204). -/
structure Escape where
  prefixLen : Nat
  word      : Bits

/-- The bits of an escape sequence (R204). -/
def Escape.bits (e : Escape) : Bits := List.replicate e.prefixLen true ++ false :: e.word

/-- The word is N + 4 bits (R204). -/
def Escape.Ok (e : Escape) : Prop := e.word.length = e.prefixLen + 4

/-- A spectral unit: symbol, codeword, sign bits and escape sequences (R200). -/
structure SpecUnit where
  idx      : Nat
  codeword : Bits
  signs    : Bits
  escapes  : List Escape

/-- The bits of a unit, in the order of R202. -/
def SpecUnit.bits (u : SpecUnit) : Bits := u.codeword ++ u.signs ++ u.escapes.flatMap Escape.bits

/-- A unit of codebook `cb` under the block's tries (R142, R143, R200). -/
def SpecUnit.Ok (s : State) (cb : Nat) (u : SpecUnit) : Prop :=
  IsCodeword s cb u.codeword u.idx ∧ u.signs.length = signCount cb (cbValue cb u.idx) ∧
  u.escapes.length = escCount cb (cbValue cb u.idx) ∧ ∀ e ∈ u.escapes, e.Ok

/-! ## ics_info -/

/-- The predictor block: the reset group number, if reset is flagged, and the prediction_used flags (R171, R183). -/
structure Predictor where
  resetGroup : Option Bits
  used       : Bits

/-- What follows window_shape (R171). -/
inductive Window where
  | long (ws : WindowSequence) (maxSfb : Nat) (predictor : Option Predictor)
  | short (maxSfb : Nat) (grouping : Nat)

/-- An ics_info (R171). -/
structure IcsInfo where
  reserved : Bool
  shape    : Bool
  window   : Window

/-- The 2-bit code of a window sequence (R170). -/
def windowCode : WindowSequence → Nat
  | .onlyLong => 0
  | .longStart => 1
  | .eightShort => 2
  | .longStop => 3

/-- The bits of a presence flag and what it guards. -/
def optional {α : Type} (bits : α → Bits) : Option α → Bits
  | none => [false]
  | some a => true :: bits a

/-- The bits of a predictor block after its presence flag (R171, R183). -/
def Predictor.bits (p : Predictor) : Bits := optional id p.resetGroup ++ p.used

/-- The bits of an ics_info (R171). -/
def IcsInfo.bits (x : IcsInfo) : Bits :=
  match x.window with
  | .long ws maxSfb predictor =>
    x.reserved :: natToBits 2 (windowCode ws) ++ x.shape :: natToBits 6 maxSfb ++ optional Predictor.bits predictor
  | .short maxSfb grouping =>
    x.reserved :: natToBits 2 (windowCode .eightShort) ++ x.shape :: natToBits 4 maxSfb ++ natToBits 7 grouping

/-- The ranges of an ics_info: no max_sfb above the band count (R175), min(max_sfb, 40) prediction flags (R171). -/
def IcsInfo.Ok (x : IcsInfo) : Prop :=
  match x.window with
  | .long ws maxSfb predictor =>
    ws ≠ .eightShort ∧ maxSfb ≤ numSwbLong ∧
    ∀ p, predictor = some p → p.used.length = min maxSfb predSfbMax ∧
      ∀ g, p.resetGroup = some g → g.length = predResetGroupBits
  | .short maxSfb grouping => maxSfb ≤ numSwbShort ∧ grouping < 128

/-- The context after ICS_INFO (R171, R172, R174): the window part written and valid, the section part invalid. -/
def IcsInfo.context (x : IcsInfo) (c : Ctx) : Ctx :=
  match x.window with
  | .long ws maxSfb predictor =>
    { c with
      icsReservedBit := x.reserved.toNat, windowSequence := ws, windowShape := x.shape.toNat, maxSfb := maxSfb
      scaleFactorGrouping := 0, predictorDataPresent := predictor.isSome.toNat, numWindows := 1
      numWindowGroups := 1, windowGroupLength := [1], sectSfbOffset := offsets ws maxSfb [1]
      vInfo := true, vSect := false }
  | .short maxSfb g =>
    { c with
      icsReservedBit := x.reserved.toNat, windowSequence := .eightShort, windowShape := x.shape.toNat
      maxSfb := maxSfb, scaleFactorGrouping := g, predictorDataPresent := 0, numWindows := 8
      numWindowGroups := (grouping g).length, windowGroupLength := grouping g
      sectSfbOffset := offsets .eightShort maxSfb (grouping g), vInfo := true, vSect := false }

/-! ## section_data -/

/-- A section as the stream gives it: its codebook and its length in bands (R176). -/
structure RawSection where
  cb  : Nat
  len : Nat

/-- The bits of a section: the codebook, then as many all-ones increments as the length holds, then the rest (R176). -/
def RawSection.bits (ws : WindowSequence) (x : RawSection) : Bits :=
  natToBits 4 x.cb ++ (List.replicate (x.len / sectEsc ws) (natToBits (sectBits ws) (sectEsc ws))).flatten ++
    natToBits (sectBits ws) (x.len % sectEsc ws)

/-- Sections of a group from band `k` up to band `last`: each starts below max_sfb and none passes it (R176, R177). -/
def groupPrefix (maxSfb : Nat) : Nat → List RawSection → Nat → Prop
  | k, [], last => k = last
  | k, x :: rest, last => x.cb < 16 ∧ k < maxSfb ∧ k + x.len ≤ maxSfb ∧ groupPrefix maxSfb (k + x.len) rest last

/-- The sections of a whole group: they end when max_sfb is reached (R176). -/
def groupOk (maxSfb : Nat) (g : List RawSection) : Prop := groupPrefix maxSfb 0 g maxSfb

/-- The sections the block stores for a group, from band `k` on: those with a band (R178). -/
def storedFrom : Nat → List RawSection → List Section
  | _, [] => []
  | k, x :: rest =>
    if x.len = 0 then storedFrom k rest else ⟨x.cb, k, k + x.len⟩ :: storedFrom (k + x.len) rest

/-- The bits of section_data (R176). -/
def sectionBits (ws : WindowSequence) (groups : List (List RawSection)) : Bits :=
  groups.flatMap fun g => g.flatMap (RawSection.bits ws)

/-- The context after SECTION_DATA (R176, R178, R179). -/
def sectionContext (groups : List (List RawSection)) (c : Ctx) : Ctx :=
  { c with
    sect := groups.map (storedFrom 0)
    numSec := groups.map fun g => (storedFrom 0 g).length
    sfbCb := groups.map fun g => bandCodebooks (storedFrom 0 g)
    vSect := true }

/-! ## Scale factors, pulse, TNS and gain control -/

/-- How many bands of a context take a scale-factor symbol (R181). -/
def codedBands (c : Ctx) : Nat :=
  ((List.range c.numWindowGroups).map fun g =>
    (List.range c.maxSfb).countP fun sfb => decide (bandCb c g sfb ≠ 0)).sum

/-- A pulse_data: pulse_start_sfb and the 9 bits of each pulse (R185). -/
structure Pulse where
  startSfb : Bits
  pulses   : List Bits

/-- The bits of a pulse_data (R185). -/
def Pulse.bits (x : Pulse) : Bits := natToBits 2 (x.pulses.length - 1) ++ x.startSfb ++ x.pulses.flatten

/-- One to four pulses (R185). -/
def Pulse.Ok (x : Pulse) : Prop :=
  x.startSfb.length = 6 ∧ 1 ≤ x.pulses.length ∧ x.pulses.length ≤ 4 ∧ ∀ p ∈ x.pulses, p.length = 9

/-- A TNS filter; its order is the number of its coefficients (R187). -/
structure TnsFilter where
  length    : Bits
  direction : Bool
  compress  : Bool
  coefs     : List Bits

/-- The bits of a TNS filter (R187). -/
def TnsFilter.bits (short : Bool) (f : TnsFilter) : Bits :=
  f.length ++ natToBits (if short then 3 else 5) f.coefs.length ++
    (if f.coefs = [] then [] else f.direction :: f.compress :: f.coefs.flatten)

/-- The widths of a TNS filter (R187, R188). -/
def TnsFilter.Ok (short coefRes : Bool) (f : TnsFilter) : Prop :=
  f.length.length = (if short then 4 else 6) ∧ f.coefs.length < (if short then 8 else 32) ∧
  ∀ x ∈ f.coefs, x.length = 3 + coefRes.toNat - f.compress.toNat

/-- The TNS filters of one window (R187). -/
structure TnsWindow where
  coefRes : Bool
  filters : List TnsFilter

/-- The bits of one window's TNS filters (R187). -/
def TnsWindow.bits (short : Bool) (w : TnsWindow) : Bits :=
  natToBits (if short then 1 else 2) w.filters.length ++
    (if w.filters = [] then [] else w.coefRes :: w.filters.flatMap (TnsFilter.bits short))

/-- The ranges of one window's TNS filters (R187). -/
def TnsWindow.Ok (short : Bool) (w : TnsWindow) : Prop :=
  w.filters.length < (if short then 2 else 4) ∧ ∀ f ∈ w.filters, f.Ok short w.coefRes

/-- One window of one gain-control band: alevcode and aloccode of each adjustment (R189). -/
abbrev GainWindow := List (Bits × Bits)

/-- The bits of one window's adjustments (R189). -/
def gainWindowBits (w : GainWindow) : Bits := natToBits 3 w.length ++ w.flatMap fun a => a.1 ++ a.2

/-- At most seven adjustments, of 4 and `width` bits (R189). -/
def gainWindowOk (w : GainWindow) (width : Nat) : Prop :=
  w.length < 8 ∧ ∀ a ∈ w, a.1.length = 4 ∧ a.2.length = width

/-- The bits of a gain_control_data (R189). -/
def gainBits (bands : List (List GainWindow)) : Bits :=
  natToBits 2 bands.length ++ bands.flatMap fun b => b.flatMap gainWindowBits

/-- At most three bands, each with one entry for each window of the window sequence (R189). -/
def gainOk (ws : WindowSequence) (bands : List (List GainWindow)) : Prop :=
  bands.length < 4 ∧ ∀ b ∈ bands, List.Forall₂ gainWindowOk b (alocWidths ws)

/-- The codebook of every unit SPECTRAL_DATA decodes, in order (R207, R208, R210). -/
def unitCodebooks (c : Ctx) : List Nat :=
  (List.range c.numWindowGroups).flatMap fun g =>
    ((c.sect.getD g []).take (c.numSec.getD g 0)).flatMap fun x =>
      if isSpectralCb x.cb then
        List.replicate (unitsBetween (bandEdge c g x.first) (bandEdge c g x.last) (cbParams x.cb).dim) x.cb
      else []

/-! ## individual_channel_stream and the elements -/

/-- An individual_channel_stream (R222). -/
structure Ics where
  globalGain  : Nat
  info        : IcsInfo
  groups      : List (List RawSection)
  scale       : List Bits
  pulse       : Option Pulse
  tns         : Option (List TnsWindow)
  gainControl : Option (List (List GainWindow))
  units       : List SpecUnit

/-- The context once the sections of an individual_channel_stream are read (R222). -/
def Ics.context (x : Ics) (c : Ctx) : Ctx :=
  sectionContext x.groups (x.info.context { c with globalGain := x.globalGain })

/-- The window sequence of an ics_info. -/
def IcsInfo.ws (x : IcsInfo) : WindowSequence :=
  match x.window with
  | .long ws _ _ => ws
  | .short _ _ => .eightShort

/-- The bits of an individual_channel_stream (R222). -/
def Ics.bits (x : Ics) : Bits :=
  natToBits 8 x.globalGain ++ x.info.bits ++ sectionBits x.info.ws x.groups ++ x.scale.flatten ++
    optional Pulse.bits x.pulse ++
    optional (fun ws => ws.flatMap (TnsWindow.bits (isShort x.info.ws))) x.tns ++
    optional gainBits x.gainControl ++ x.units.flatMap SpecUnit.bits

/-- An individual_channel_stream that the grammar allows under the block's tries (R171 to R222). -/
def Ics.Ok (s : State) (x : Ics) : Prop :=
  x.globalGain < 256 ∧ x.info.Ok ∧
  x.groups.length = (x.context s.ctx).numWindowGroups ∧
  (∀ g ∈ x.groups, groupOk (x.context s.ctx).maxSfb g) ∧
  x.scale.length = codedBands (x.context s.ctx) ∧
  (∀ w ∈ x.scale, ∃ sym, IsCodeword s 0 w sym) ∧
  (∀ p, x.pulse = some p → p.Ok) ∧
  (∀ ws, x.tns = some ws →
    ws.length = (x.context s.ctx).numWindows ∧ ∀ w ∈ ws, w.Ok (isShort x.info.ws)) ∧
  (∀ b, x.gainControl = some b → gainOk x.info.ws b) ∧
  List.Forall₂ (SpecUnit.Ok s) (unitCodebooks (x.context s.ctx)) x.units

/-- A program_config_element; each list holds the fields of one kind of channel entry (R225). -/
structure Pce where
  tag     : Nat
  head    : Bits
  front   : List Bits
  side    : List Bits
  back    : List Bits
  lfe     : List Bits
  assoc   : List Bits
  cc      : List Bits
  mono    : Option Bits
  stereo  : Option Bits
  mixdown : Option Bits
  pad     : Bits
  comment : List Bits

/-- The bits of a program_config_element before its alignment (R225). -/
def Pce.fixedBits (x : Pce) : Bits :=
  natToBits 4 x.tag ++ x.head ++ natToBits 4 x.front.length ++ natToBits 4 x.side.length ++
    natToBits 4 x.back.length ++ natToBits 2 x.lfe.length ++ natToBits 3 x.assoc.length ++ natToBits 4 x.cc.length ++
    optional id x.mono ++ optional id x.stereo ++ optional id x.mixdown ++
    x.front.flatten ++ x.side.flatten ++ x.back.flatten ++ x.lfe.flatten ++ x.assoc.flatten ++ x.cc.flatten

/-- The bits of a program_config_element (R225). -/
def Pce.bits (x : Pce) : Bits := x.fixedBits ++ x.pad ++ natToBits 8 x.comment.length ++ x.comment.flatten

/-- A program_config_element whose first bit stands at stream position `pos` (R225, R226). -/
def Pce.Ok (pos : Nat) (x : Pce) : Prop :=
  x.tag < 16 ∧ x.head.length = 6 ∧
  x.front.length < 16 ∧ x.side.length < 16 ∧ x.back.length < 16 ∧ x.lfe.length < 4 ∧ x.assoc.length < 8 ∧
  x.cc.length < 16 ∧
  (∀ b ∈ x.front ++ x.side ++ x.back ++ x.cc, b.length = 5) ∧ (∀ b ∈ x.lfe ++ x.assoc, b.length = 4) ∧
  (∀ b, x.mono = some b → b.length = 4) ∧ (∀ b, x.stereo = some b → b.length = 4) ∧
  (∀ b, x.mixdown = some b → b.length = 3) ∧
  x.pad.length = alignGap (pos + x.fixedBits.length) ∧
  x.comment.length < 256 ∧ ∀ b ∈ x.comment, b.length = 8

/-- A fill element: its count, plain or escaped, and the payload if the count is not 0 (R227, R228). -/
structure Fil where
  escaped : Bool
  count   : Nat
  extCode : Nat
  body    : Bits

/-- The bits of a fill element's count (R227). -/
def Fil.countBits (x : Fil) : Bits :=
  if x.escaped then natToBits 4 15 ++ natToBits 8 (x.count - 14) else natToBits 4 x.count

/-- The bits of a fill element (R227). -/
def Fil.bits (x : Fil) : Bits :=
  x.countBits ++ (if x.count = 0 then [] else natToBits 4 x.extCode ++ x.body)

/-- A 4-bit extension type whose payload is not refused (R230). -/
def extAccepted (code : Nat) : Prop := code < 16 ∧ code ≠ 11 ∧ code ≠ 13 ∧ code ≠ 14

/-- A fill element the grammar allows (R227, R229). -/
def Fil.Ok (x : Fil) : Prop :=
  (if x.escaped then 14 ≤ x.count ∧ x.count ≤ 269 else x.count < 15) ∧
  (x.count ≠ 0 → extAccepted x.extCode ∧ x.body.length = 8 * x.count - 4)

/-- An element of a raw_data_block before its END (R77, R231). -/
inductive Element where
  | sce (tag : Nat) (ics : Ics)
  | pce (x : Pce)
  | fil (x : Fil)
  | skipped (id : Nat)

/-- The id of an element (R77). -/
def Element.id : Element → Nat
  | .sce _ _ => 0
  | .pce _ => 5
  | .fil _ => 6
  | .skipped id => id

/-- The bits of an element after its id. -/
def Element.body : Element → Bits
  | .sce tag ics => natToBits 4 tag ++ ics.bits
  | .pce x => x.bits
  | .fil x => x.bits
  | .skipped _ => []

/-- The bits of an element, id included (R231). -/
def Element.bits (x : Element) : Bits := natToBits 3 x.id ++ x.body

/-- An element whose id stands at stream position `pos` and that the grammar allows (R231). -/
def Element.Ok (s : State) (pos : Nat) : Element → Prop
  | .sce tag ics => tag < 16 ∧ ics.Ok s
  | .pce x => x.Ok (pos + 3)
  | .fil x => x.Ok
  | .skipped id => 1 ≤ id ∧ id ≤ 4

/-- The context after an element: an SCE leaves its registers behind, invalid (R223); no other element writes it. -/
def Element.context (x : Element) (c : Ctx) : Ctx :=
  match x with
  | .sce _ ics => clearValid (ics.context c)
  | .pce _ => c
  | .fil _ => c
  | .skipped _ => c

/-- The result of the dispatch step over an element, when the record starts at the element (R231, R233, R236). -/
def Element.result (x : Element) : StepResult :=
  match x with
  | .sce _ _ => .element 0 (bitSeq x.bits)
  | .pce _ => .element 5 (bitSeq x.bits)
  | .fil _ => .element 6 (bitSeq x.bits)
  | .skipped id => .skipped id

/-- The bits of a sequence of elements. -/
def elementsBits (xs : List Element) : Bits := xs.flatMap Element.bits

/-- A sequence of elements the grammar allows from stream position `pos` on. -/
def elementsOk (s : State) : Nat → List Element → Prop
  | _, [] => True
  | pos, x :: rest => x.Ok s pos ∧ elementsOk s (pos + x.bits.length) rest

/-- The context after a sequence of elements. -/
def elementsContext (xs : List Element) (c : Ctx) : Ctx := xs.foldl (fun c x => x.context c) c

/-! ## Commands as a whole -/

/-- The opcodes R71 does not list (R75). -/
def reservedOpcode (o : Nat) : Prop :=
  o = 0x00 ∨ (0x08 ≤ o ∧ o ≤ 0x0F) ∨ (0x14 ≤ o ∧ o ≤ 0x1F) ∨ (0x28 ≤ o ∧ o ≤ 0x2F) ∨ (0x36 ≤ o ∧ o ≤ 0x3F) ∨
    (0x42 ≤ o ∧ o ≤ 0xFF)

/-- The commands of group P (R71, R302). -/
def groupP : Instr → Bool
  | .cbValue _ _ => true
  | .adtsParse => true
  | .adtsGenerate => true
  | _ => false

/-- The commands that an error pending refuses: group S but LOAD (R302). A stream code runs inside such a command. -/
def refusable (i : Instr) : Bool := !groupP i && i != .load

/-- The commands that read the stream and write nothing but the cursor, ERR and the response (R101 to R125, R181 to
R207, R225 to R228). -/
def readsOnly : Instr → Bool
  | .readbits _ => true
  | .readbool => true
  | .bytealign => true
  | .huffDecode _ => true
  | .specUnit _ => true
  | .escSeq => true
  | .scaleFactorData => true
  | .pulseData => true
  | .tnsData => true
  | .gainControlData => true
  | .spectralData => true
  | .pce => true
  | .fil => true
  | .extPayload _ => true
  | .extFillData _ => true
  | .extDynamicRange => true
  | .extSbrData => true
  | .extSbrDataCrc => true
  | .extOther _ _ => true
  | _ => false

/-- The commands that also write the syntax context (R171, R176, R222, R223). -/
def writesContext : Instr → Bool
  | .icsInfo => true
  | .sectionData => true
  | .ics _ => true
  | .sce => true
  | _ => false

/-- The commands and stream codes of the dispatch loop, which also write CUR_MARK and DSTATE (R231, R237). -/
def dispatches : Instr → Bool
  | .elementStep => true
  | .runFrame => true
  | .idSce => true
  | .idCpe => true
  | .idCce => true
  | .idLfe => true
  | .idDse => true
  | .idPce => true
  | .idFil => true
  | .idEnd => true
  | _ => false

/-- The fields of a context that ICS_INFO writes, at their reset values; what is left of a context whose window part is
not valid (R28, R29). -/
def hideInfo (c : Ctx) : Ctx :=
  { c with
    icsReservedBit := 0, windowSequence := .onlyLong, windowShape := 0, maxSfb := 0, scaleFactorGrouping := 0
    predictorDataPresent := 0, numWindows := 0, numWindowGroups := 0, windowGroupLength := [], sectSfbOffset := [] }

/-- The fields of a context that SECTION_DATA writes, at their reset values. -/
def hideSect (c : Ctx) : Ctx := { c with numSec := [], sect := [], sfbCb := [] }

/-- What the valid flags let a command see of a context (R29): all of it while the section part is valid, else the window
part while that is valid, else neither. -/
def visible (c : Ctx) : Ctx :=
  if c.vSect then c else if c.vInfo then hideSect c else hideInfo (hideSect c)

/-- Two states that differ at most in context registers whose valid flag is clear (R29). -/
def sameButUnwritten (s s' : State) : Prop := { s with ctx := visible s.ctx } = { s' with ctx := visible s'.ctx }

/-- The stream bits a list of results accounts for: its records, and 3 bits for each skipped id (R238). -/
def accountedBits (l : List StepResult) : Nat :=
  (l.map fun r => match r with
    | .element _ rec => rec.len
    | .endElement rec => rec.len
    | .skipped _ => 3
    | .done => 0
    | .exhausted => 0).sum

end Sys2Proof.Grammar
end

