-- ==== Sys2Proof/Machine/Orchestrator.lean ====
section
/-! DEFINITION. The host model (47_host_orchestrator.md): the dual-mono transmux operations as a program over the
block's commands. It is no part of the block (R7); it fixes how the block is used. -/

namespace Sys2Proof.Machine

/-- How an operation of the host fails (R288). -/
inductive HostFailure where
  /-- An ERROR response of the block, with its cause and position. -/
  | block (c : Cause) (pos : Nat)
  /-- A REFUSED response of the block, with the pending error's fields. -/
  | refused (cls : BitVec 4) (cause : BitVec 8) (pos : BitVec 20)
  /-- Exhaustion(FRAME_TRUNCATED): frame_length below header_bytes or above the access unit's size (R283). -/
  | frameTruncated
  /-- A response of a shape the issued command never gives. -/
  | unexpected
  deriving DecidableEq, Repr

/-- The class and cause code of FRAME_TRUNCATED, which only the host reports: EXHAUSTION, 2 (R300). -/
def frameTruncatedCode : BitVec 4 × BitVec 8 := (1, 2)

/-- The class and cause code a failure is reported with (R288, R300): the block's own for a response of the block. A
response of a shape the command never gives is no error of R300 and has none. -/
def HostFailure.code : HostFailure → Option (BitVec 4 × BitVec 8)
  | .block c _ => some (causeClass c, causeCode c)
  | .refused cls cause _ => some (cls, cause)
  | .frameTruncated => some frameTruncatedCode
  | .unexpected => none

/-- What an operation returns: a primary and a secondary output, each an ADTS frame or absent (R280). -/
structure HostPair where
  primary   : Option (List Byte)
  secondary : Option (List Byte)
  deriving DecidableEq, Repr

/-- A program of the host over one block. -/
abbrev HostWalk (α : Type) := EStateM HostFailure State α

/-- One command issued and its response awaited; an ERROR or REFUSED response is a failure (R280, R281). -/
def issue (word : Word) (data : DataIn) : HostWalk Value := fun s =>
  match step { s with inputs := .command ⟨word, data⟩ :: s.inputs } with
  | .next t =>
    match t.responses.getLast? with
    | some (.ok v) => .ok v t
    | some (.error c p) => .error (.block c p) t
    | some (.refused k c p) => .error (.refused k c p) t
    | none => .error .unexpected t
  | .fault _ => .error .unexpected s
  | .refused _ => .error .unexpected s

/-- A failure of the host's own. -/
def hostFail {α : Type} (f : HostFailure) : HostWalk α := fun s => .error f s

/-- The header of an access unit, by ADTS_PARSE (R281). -/
def hostParse (au : List Byte) : HostWalk (AdtsHeader × Nat) := do
  match ← issue (commandWord 0x40 0 0) ⟨au, emptyHeader⟩ with
  | .header h n => pure (h, n)
  | _ => hostFail .unexpected

/-- The results of RUN_FRAME (R281). -/
def hostRunFrame : HostWalk (List StepResult) := do
  match ← issue (commandWord 0x35 0 0) emptyData with
  | .frame l _ => pure l
  | _ => hostFail .unexpected

/-- The bits of a bit sequence as a response carries it. -/
def seqBits (b : BitSeq) : Bits := (bytesToBits b.bytes).take b.len

/-- The bits of the SCE records, in stream order (R281). -/
def sceRecords : List StepResult → List Bits
  | [] => []
  | .element 0 r :: rest => seqBits r :: sceRecords rest
  | _ :: rest => sceRecords rest

/-- `Prepare(au)` (R281 to R283): the header and the SCE records, or `none` for the pass-through. -/
def prepare (au : List Byte) : HostWalk (Option (AdtsHeader × List Bits)) := do
  let r ← hostParse au
  if r.1.channelConfiguration ≠ 0 then pure none
  else if r.2 ≤ r.1.frameLength ∧ r.1.frameLength ≤ au.length then do
    let _ ← issue (commandWord 0x01 0 0) ⟨(au.take r.1.frameLength).drop r.2, emptyHeader⟩
    let l ← hostRunFrame
    pure (some (r.1, sceRecords l))
  else hostFail .frameTruncated

/-- An output payload's bits (R284): an END id is appended only where HOST_APPEND_END says so. -/
def payloadBits (bits : Bits) : Bits := if Config.hostAppendEnd then bits ++ [true, true, true] else bits

/-- `Frame(H, cc, bits)` (R287). -/
def frame (h : AdtsHeader) (cc : Nat) (bits : Bits) : HostWalk (List Byte) := do
  let p := pack (payloadBits bits)
  let h' := { h with frameLength := 7 + p.length, channelConfiguration := cc, protectionAbsent := 1, frames := 0 }
  match ← issue (commandWord 0x41 0 0) ⟨[], h'⟩ with
  | .bytes b => pure (b ++ p)
  | _ => hostFail .unexpected

/-- A 1-channel frame of a record, or absent (R285). -/
def monoFrame (h : AdtsHeader) : Option Bits → HostWalk (Option (List Byte))
  | none => pure none
  | some bits => do
    let f ← frame h 1 bits
    pure (some f)

/-- The synthetic channel pair element of an SCE record: id 001, the tag, common_window 0, the ICS twice (R286, C9). -/
def channelPair (rec : Bits) : Bits :=
  [false, false, true] ++ (rec.drop 3).take 4 ++ [false] ++ rec.drop 7 ++ rec.drop 7

/-- `transmux_mono(au)` (R285). -/
def transmuxMono (au : List Byte) : HostWalk HostPair := do
  match ← prepare au with
  | none => pure ⟨some au, none⟩
  | some (h, recs) => do
    let p ← monoFrame h recs[0]?
    let q ← monoFrame h recs[1]?
    pure ⟨p, q⟩

/-- `transmux_stereo(au)` (R286). -/
def transmuxStereo (au : List Byte) : HostWalk HostPair := do
  match ← prepare au with
  | none => pure ⟨some au, none⟩
  | some (h, recs) =>
    match recs with
    | [] => pure ⟨none, none⟩
    | first :: rest => do
      let p ← frame h 2 (channelPair first)
      let q ← monoFrame h rest.head?
      pure ⟨some p, q⟩

end Sys2Proof.Machine
end

