-- ==== Sys2Proof/Certificates/Slice0/Obligations.lean ====
section
/-! DEFINITION. The statements for the provers. -/

open Sys2Proof Sys2Proof.Machine Sys2Proof.Grammar

/-! ## Encoding -/

/-- Every well-formed instruction is read back from its own bits with every operand (R70, R71, R76 to R78). The byte
count of an extension type, which its 4 bits do not hold, is handed to the decoder (log entry 6). -/
def Obligations.DecodeOfEncodeIsTheInstruction : Prop :=
  ∀ i : Instr, i.wf = true → decodeCode (extCountOf i) (encode i) = .ok i

/-- A word decodes to an instruction exactly when it is that well-formed instruction's encoding, and is turned away as
an illegal opcode exactly when its opcode is reserved; any other word has an illegal argument (R71, R74, R75). -/
def Obligations.WordsAreReadAsTheOpcodeMapSays : Prop :=
  (∀ (w : Word) (i : Instr), decode w = .ok i ↔ (i.wf = true ∧ encode i = .command w)) ∧
  ∀ w : Word, decode w = .error .illegalOpcode ↔ reservedOpcode (w.toNat / 2 ^ 24)

/-- A few words, written out from R71 and R76, decode to the command they stand for, and stream codes to theirs (R77,
R78). -/
def Obligations.WrittenOutWordsDecode : Prop :=
  decode 0x02000010#32 = .ok (.readbits 16) ∧ decode 0x100B0000#32 = .ok (.huffDecode 11) ∧
  decode 0x110B0113#32 = .ok (.cbValue 11 275) ∧ decode 0x27010000#32 = .ok (.ics true) ∧
  decode 0x3300010D#32 = .ok (.extPayload 269) ∧ decode 0x35000000#32 = .ok .runFrame ∧
  decode 0x41000000#32 = .ok .adtsGenerate ∧
  decodeCode 1 (.elementId 0b101#3) = .ok .idPce ∧ decodeCode 2 (.extType 0b0001#4) = .ok (.extFillData 2)

/-! ## Steps, reset and the preamble -/

/-- A command word that decodes is run on the state that has taken it from the channel with its data-in (R40, R48,
R302). -/
def Obligations.StepRunsTheDecodedCommand : Prop :=
  ∀ (s : State) (c : Command) (rest : List HostInput) (i : Instr),
    s.inputs = .command c :: rest → decode c.word = .ok i → step s = exec i (s.accept c.data rest)

/-- A command word that does not decode changes nothing: the response alone reports it, with position 0 (R302). -/
def Obligations.RejectedWordOnlyAnswers : Prop :=
  ∀ (s : State) (c : Command) (rest : List HostInput), s.inputs = .command c :: rest →
    (decode c.word = .error .illegalOpcode →
      step s = .next ((s.accept c.data rest).respond (.error .illegalOpcode 0))) ∧
    (decode c.word = .error .badArgument →
      step s = .next ((s.accept c.data rest).respond (.error .badArgument 0)))

/-- Every step answers a next state (R351). A command gets exactly one response, put after those already given (R40).
With no command the block waits, after reset as at any time (R342). -/
def Obligations.EveryStepAnswersOnce : Prop :=
  (∀ s : State, ∃ t, step s = .next t ∧
    ∀ (c : Command) (rest : List HostInput), s.inputs = .command c :: rest →
      t.inputs = rest ∧ ∃ r, t.responses = s.responses ++ [r]) ∧
  (∀ s : State, s.inputs = [] → step s = .next s) ∧
  State.reset.inputs = [] ∧ State.reset.dstate = .idle ∧ State.reset.err = 0

/-- Reset, first or later, puts the cursor, ERR, DSTATE and the valid flags at the values of R340. That HROM stays and
the channels are emptied of responses is the model's reading (log entry 5). -/
def Obligations.ResetClearsTheBlock : Prop :=
  ∀ (s : State) (rest : List HostInput), s.inputs = .reset :: rest →
    ∃ t, step s = .next t ∧ (t.curPos = 0 ∧ t.curLen = 0 ∧ t.curMark = 0 ∧ t.err = 0 ∧ t.dstate = .idle ∧
      t.ctx.vInfo = false ∧ t.ctx.vSect = false) ∧
      t.hrom = s.hrom ∧ t.inputs = rest ∧ t.responses = [] ∧
      State.reset.curPos = 0 ∧ State.reset.curLen = 0 ∧ State.reset.curMark = 0 ∧ State.reset.err = 0 ∧
      State.reset.dstate = .idle ∧ State.reset.ctx.vInfo = false ∧ State.reset.ctx.vSect = false

/-- Reset builds each of the twelve tries from its table, and refuses none of an accepted configuration (R340, R341). -/
def Obligations.ResetBuildsEveryTrie : Prop :=
  State.reset.hrom.length = 12 ∧
  ∀ (t : Nat) (table : HcbTable), Config.hcb.tables[t]? = some table →
    ∃ trie, build table = some trie ∧ State.reset.hrom[t]? = some trie

/-- While an error is pending, a stateful command with legal arguments other than LOAD is refused with the pending
error's fields, and nothing but the response changes; and no instruction but LOAD changes ERR (R302, R303, R308). -/
def Obligations.PendingErrorStaysUntilLoad : Prop :=
  (∀ (i : Instr) (s : State), refusable i = true → i.wf = true → s.err ≠ 0 →
    exec i s = .next (s.respond (.refused (s.err.extractLsb' 0 4) (s.err.extractLsb' 4 8) (s.err.extractLsb' 12 20)))) ∧
  ∀ (i : Instr) (s t : State), i ≠ .load → s.err ≠ 0 → exec i s = .next t → t.err = s.err

/-- An error raised by a stateful command is recorded with the cursor where it was found, and the response names the
same error and position; a command that succeeds leaves ERR clear (R301). -/
def Obligations.RaisedErrorIsRecordedWhereFound : Prop :=
  ∀ (i : Instr) (s t : State), refusable i = true → i.wf = true → s.err = 0 → exec i s = .next t →
    (∃ v, t.responses = s.responses ++ [.ok v] ∧ t.err = 0) ∨
    (∃ c, t.responses = s.responses ++ [.error c t.curPos] ∧ t.err = errWord c t.curPos)

/-- The fields of a recorded error: class in bits 3..0, cause in bits 11..4, position in bits 31..12; two causes are told
apart by class and cause code (R25, R300). -/
def Obligations.ErrorRegisterFields : Prop :=
  (∀ (s : State) (c : Cause) (pos : Nat), pos < 2 ^ 20 → s.err = errWord c pos →
    s.errClass = causeClass c ∧ s.errCause = causeCode c ∧ s.errPos.toNat = pos ∧ s.err ≠ 0 ∧
    s.err.toNat = pos * 4096 + (causeCode c).toNat * 16 + (causeClass c).toNat) ∧
  ∀ c d : Cause, causeClass c = causeClass d → causeCode c = causeCode d → c = d

/-- A pure command depends on its operands alone and puts its result or its error in the response only, whatever ERR
holds (R302, R307). -/
def Obligations.PureCommandsOnlyAnswer : Prop :=
  ∀ (i : Instr), groupP i = true →
    ∀ s : State, ∃ r, exec i s = .next (s.respond r) ∧ (∀ k c p, r ≠ .refused k c p) ∧
      ∀ s' : State, s'.dataIn = s.dataIn → exec i s' = .next (s'.respond r)

/-! ## Invariants -/

/-- The block is sound after reset. -/
def Obligations.ResetIsSound : Prop := State.reset.sound ∧ State.reset.ctxOk

/-- Every step keeps the buffer canonical and within its size, the cursor's bounds, and ERR legal (R21 to R25). -/
def Obligations.StepKeepsTheBlockSound : Prop :=
  ∀ s t : State, s.sound → step s = .next t → t.sound

/-- Every step keeps the context true to its valid flags: band and group counts in range, offsets as the tables give
them, sections that tile the bands (R28, R179). -/
def Obligations.StepKeepsTheContextTrue : Prop :=
  ∀ s t : State, s.ctxOk → step s = .next t → t.ctxOk

/-- HROM never changes (R31), and INBUF and CUR_LEN change only at LOAD (R21, R23). -/
def Obligations.OnlyLoadWritesTheBuffer : Prop :=
  ∀ (i : Instr) (s t : State), exec i s = .next t →
    t.hrom = s.hrom ∧
    (i ≠ .load → t.curLen = s.curLen ∧ ∀ a, t.inbuf.read a = s.inbuf.read a)

/-- The cursor moves forward only, except at LOAD, and never passes CUR_LEN (R22). -/
def Obligations.CursorMovesForwardOnly : Prop :=
  ∀ (i : Instr) (s t : State), i ≠ .load → exec i s = .next t →
    s.curPos ≤ t.curPos ∧ (s.curPos ≤ s.curLen → t.curPos ≤ s.curLen)

/-- A context register whose valid flag is clear is never observed: two states that differ only in such registers answer
alike and stay so (R29). -/
def Obligations.UnwrittenContextIsNeverSeen : Prop :=
  ∀ (i : Instr) (s s' t : State), sameButUnwritten s s' → exec i s = .next t →
    ∃ t', exec i s' = .next t' ∧ sameButUnwritten t t'

/-! ## Frames -/

/-- The commands that only read: cursor, ERR and response apart, nothing changes, and ERR changes only from 0 and only
when the command raises. -/
def Obligations.ReadingCommandsFrame : Prop :=
  ∀ (i : Instr) (s t : State), readsOnly i = true → exec i s = .next t →
    ∃ r, t = { s with curPos := t.curPos, err := t.err, responses := s.responses ++ [r] } ∧
      (∀ a, t.inbuf.read a = s.inbuf.read a) ∧ (t.err = s.err ∨ (s.err = 0 ∧ ∃ c p, r = .error c p))

/-- The commands that write the context change besides it only the cursor, ERR and the response; ICS_INFO leaves
global_gain alone, and SECTION_DATA leaves everything ICS_INFO wrote (R171, R176, R222, R223). -/
def Obligations.ContextCommandsFrame : Prop :=
  ∀ (i : Instr) (s t : State), writesContext i = true → exec i s = .next t →
    ∃ r, t = { s with curPos := t.curPos, err := t.err, ctx := t.ctx, responses := s.responses ++ [r] } ∧
      (∀ a, t.inbuf.read a = s.inbuf.read a) ∧ (t.err = s.err ∨ (s.err = 0 ∧ ∃ c p, r = .error c p)) ∧
      (i = .icsInfo → t.ctx.globalGain = s.ctx.globalGain) ∧
      (i = .sectionData → t.ctx = { s.ctx with
        numSec := t.ctx.numSec, sect := t.ctx.sect, sfbCb := t.ctx.sfbCb, vSect := t.ctx.vSect })

/-- The commands and codes of the dispatch loop change besides the context, CUR_MARK and DSTATE only the cursor, ERR and
the response; DSTATE changes only to ENDED (R26, R231, R235). -/
def Obligations.DispatchFrame : Prop :=
  ∀ (i : Instr) (s t : State), dispatches i = true → exec i s = .next t →
    ∃ r, t = { s with
        curPos := t.curPos, err := t.err, ctx := t.ctx, curMark := t.curMark, dstate := t.dstate
        responses := s.responses ++ [r] } ∧
      (∀ a, t.inbuf.read a = s.inbuf.read a) ∧ (t.err = s.err ∨ (s.err = 0 ∧ ∃ c p, r = .error c p)) ∧
      (t.dstate = s.dstate ∨ t.dstate = .ended)

/-! ## The cursor -/

/-- READBITS n and READBOOL: with enough bits left the value is the sum of R43 and the cursor moves by exactly the bits
read; with too few nothing is consumed and Exhaustion(READ) is recorded (R100 to R102). -/
def Obligations.ReadsReturnTheNextBits : Prop :=
  ∀ (s : State) (n : Nat), n ≤ 32 → s.err = 0 →
    (n ≤ s.curLen - s.curPos →
      exec (.readbits n) s = .next ((s.advance n).respond (.ok (.nat
        ((List.range n).map fun i =>
          (((s.inbuf.read ((s.curPos + i) / 8)).toNat >>> (7 - (s.curPos + i) % 8)) % 2) * 2 ^ (n - 1 - i)).sum)))) ∧
    (s.curLen - s.curPos < n →
      exec (.readbits n) s =
        .next ((s.withErr (errWord .read s.curPos)).respond (.error .read s.curPos))) ∧
    (1 ≤ s.curLen - s.curPos →
      exec .readbool s = .next ((s.advance 1).respond (.ok (.bool
        (decide ((s.inbuf.read (s.curPos / 8)).toNat >>> (7 - s.curPos % 8) % 2 = 1)))))) ∧
    (s.curLen - s.curPos = 0 →
      exec .readbool s = .next ((s.withErr (errWord .read s.curPos)).respond (.error .read s.curPos)))

/-- BYTEALIGN reads the 0 to 7 bits to the next multiple of 8 and returns their value and count; on a stream of whole
bytes with the cursor in range it never raises (R103). -/
def Obligations.ByteAlignReachesAByteBoundary : Prop :=
  ∀ s : State, s.err = 0 → s.curPos ≤ s.curLen → s.curLen % 8 = 0 →
    ∃ k, k < 8 ∧ (s.curPos + k) % 8 = 0 ∧
      exec .bytealign s = .next ((s.advance k).respond
        (.ok (.aligned (bitsToNat (streamBits s.inbuf s.curPos k)) k)))

/-- ISEMPTY compares the cursor with the length, CONSUME_ARRAY returns the record, CONSUME_CLEAR empties it (R104, R108,
R110). -/
def Obligations.RecordCommandsComplete : Prop :=
  ∀ s : State, s.err = 0 →
    exec .isempty s = .next (s.respond (.ok (.bool (decide (s.curPos = s.curLen))))) ∧
    exec .consumeArray s = .next (s.respond (.ok (.record
      ⟨s.curPos - s.curMark, pack (streamBits s.inbuf s.curMark (s.curPos - s.curMark))⟩))) ∧
    exec .consumeClear s = .next ({ s with curMark := s.curPos }.respond (.ok .unit))

/-- Bit i of a sequence becomes bit 7 - i mod 8 of byte i / 8; there are as many bytes as that takes, and the bits of the
last one past the sequence are 0 (R44). -/
def Obligations.PackingIsMostSignificantBitFirst : Prop :=
  ∀ bits : Bits, (pack bits).length = (bits.length + 7) / 8 ∧
    ∀ i, i < 8 * ((bits.length + 7) / 8) →
      ((pack bits).getD (i / 8) 0).getLsbD (7 - i % 8) = bits.getD i false

/-- LOAD starts a new cursor over its bytes, clears the error and the valid flags and activates the loop, also while an
error is pending; from a canonical buffer (an invariant, StepKeepsTheBlockSound) its bytes read back and the bytes above
its length are left alone. A sequence longer than INBUF is a bad argument and changes only the response (R72, R106,
R303). -/
def Obligations.LoadStartsANewStream : Prop :=
  ∀ s : State,
    (s.dataIn.bytes.length ≤ 8192 →
      ∃ t : State, exec .load s = .next (t.respond (.ok .unit)) ∧
        t = { s with
          inbuf := t.inbuf, curLen := 8 * s.dataIn.bytes.length, curPos := 0, curMark := 0, err := 0
          dstate := .active, ctx := { s.ctx with vInfo := false, vSect := false } } ∧
        (s.inbuf.wf = true →
          (∀ a, a < s.dataIn.bytes.length → t.inbuf.read a = s.dataIn.bytes.getD a 0) ∧
          (∀ a, s.dataIn.bytes.length ≤ a → t.inbuf.read a = s.inbuf.read a) ∧
          t.unreadBits = bytesToBits s.dataIn.bytes)) ∧
    (8192 < s.dataIn.bytes.length → exec .load s = .next (s.respond (.error .badArgument 0)))

/-! ## Huffman tries and codebooks -/

/-- A well-formed table builds, and the trie's leaves are exactly its codewords: the path of a codeword, most
significant bit first, leads to its symbol, and every path that leads to a symbol is a codeword of it (R120, R121). -/
def Obligations.BuiltTrieSpellsTheTable : Prop :=
  ∀ (t : Nat) (table : HcbTable), wfTable t table = true →
    ∃ trie, build table = some trie ∧
      (∀ e ∈ table, subtrie trie (natToBits e.len e.code) = .leaf e.sym) ∧
      (∀ (path : Bits) (sym : Nat), subtrie trie path = .leaf sym →
        ∃ e ∈ table, e.sym = sym ∧ path = natToBits e.len e.code)

/-- A table in which one codeword is a prefix of another, or equal to it, is refused (R122). -/
def Obligations.PrefixConflictIsRefused : Prop :=
  ∀ (before between after : HcbTable) (e f : HcbEntry),
    (natToBits e.len e.code <+: natToBits f.len f.code ∨ natToBits f.len f.code <+: natToBits e.len e.code) →
    build (before ++ e :: between ++ f :: after) = none

/-- HUFF_DECODE t: a codeword ahead is consumed exactly and its symbol returned; a path that leaves the trie raises
Decode(HUFF_NO_CHILD) after the bit that left it; a stream that ends inside the trie raises Exhaustion(READ) with its
bits consumed (R124). -/
def Obligations.HuffDecodeFollowsTheTrie : Prop :=
  ∀ (s : State) (t : Nat) (path : Bits), t < 12 → s.err = 0 → Ahead s path →
    (∀ sym, subtrie (s.trie t) path = .leaf sym →
      exec (.huffDecode t) s = .next ((s.advance path.length).respond (.ok (.nat sym)))) ∧
    (∀ p b c0 c1, path = p ++ [b] → subtrie (s.trie t) p = .node c0 c1 → subtrie (s.trie t) path = .absent →
      exec (.huffDecode t) s = .next (((s.advance path.length).withErr
        (errWord .huffNoChild (s.curPos + path.length))).respond (.error .huffNoChild (s.curPos + path.length)))) ∧
    (∀ c0 c1, path = s.unreadBits → subtrie (s.trie t) path = .node c0 c1 →
      exec (.huffDecode t) s = .next (((s.advance path.length).withErr
        (errWord .read (s.curPos + path.length))).respond (.error .read (s.curPos + path.length))))

/-- CB_VALUE cb, idx returns the tuple whose components, offset added, are the digits of idx in the codebook's base, the
first the most significant; each component is in its codebook's range (R140, R141). It runs whatever ERR holds. -/
def Obligations.CbValueIsThePositionalTuple : Prop :=
  ∀ (s : State) (cb idx : Nat), 1 ≤ cb → cb ≤ 11 → idx < cbSize cb →
    ∃ v : List Int, exec (.cbValue cb idx) s = .next (s.respond (.ok (.tuple v))) ∧
      v.length = (if cb < 5 then 4 else 2) ∧
      v.foldl (fun acc x => acc * (cbBase cb : Int) + (x + (cbOffset cb : Int))) 0 = (idx : Int) ∧
      ∀ x ∈ v, -(cbOffset cb : Int) ≤ x ∧ x ≤ ((cbParams cb).lav : Int)

/-! ## Side information -/

/-- A command that needs a context register whose valid flag is clear reads nothing and raises CONTEXT_UNWRITTEN (R29). -/
def Obligations.UnwrittenContextRaises : Prop :=
  ∀ (i : Instr) (s : State), s.err = 0 →
    ((s.ctx.vInfo = false ∧ (i = .sectionData ∨ i = .tnsData ∨ i = .gainControlData)) ∨
      (s.ctx.vSect = false ∧ (i = .scaleFactorData ∨ i = .spectralData))) →
    exec i s = .next ((s.withErr (errWord .contextUnwritten s.curPos)).respond
      (.error .contextUnwritten s.curPos))

/-- ICS_INFO over an ics_info consumes exactly its bits and leaves its window context, valid (R171 to R174, R183). -/
def Obligations.IcsInfoParsesWindowContext : Prop :=
  ∀ (s : State) (x : IcsInfo), s.err = 0 → x.Ok → Ahead s x.bits →
    exec .icsInfo s = .next (((s.advance x.bits.length).withCtx (x.context s.ctx)).respond
      (.ok (.icsInfo (x.context s.ctx).windowSequence (x.context s.ctx).maxSfb (x.context s.ctx).numWindowGroups
        (x.context s.ctx).windowGroupLength)))

/-- A max_sfb above the band count raises Decode(MAX_SFB_RANGE) right after the field: position 10 bits on for a long
window, 8 for EIGHT_SHORT (R175). -/
def Obligations.MaxSfbAboveTheBandCountRaises : Prop :=
  ∀ (s : State) (reserved shape : Bool) (ws : WindowSequence) (maxSfb : Nat), s.err = 0 →
    sfbLimit ws < maxSfb → maxSfb < (if isShort ws then 16 else 64) →
    Ahead s (reserved :: natToBits 2 (windowCode ws) ++ shape :: natToBits (if isShort ws then 4 else 6) maxSfb) →
    ∃ t : State, exec .icsInfo s = .next (t.respond (.error .maxSfbRange t.curPos)) ∧
      t.curPos = s.curPos + (if isShort ws then 8 else 10) ∧ t.err = errWord .maxSfbRange t.curPos ∧
      t.ctx.vInfo = false ∧ t.ctx.vSect = false

/-- The grouping bits partition the 8 short windows: as many groups as one more than the 0 bits, each of at least one
window, 8 windows in all (R172). -/
def Obligations.GroupingPartitionsTheWindows : Prop :=
  (∀ g, g < 128 → (grouping g).sum = 8 ∧ (grouping g).length = 1 + (natToBits 7 g).countP (fun b => b == false) ∧
    (grouping g).all (fun n => decide (1 ≤ n)) = true) ∧
  grouping 0b1111111 = [8] ∧ grouping 0b0000000 = [1, 1, 1, 1, 1, 1, 1, 1] ∧ grouping 0b0110100 = [1, 3, 2, 1, 1]

/-- The band edges: the long table's for a long window, and for EIGHT_SHORT each group's short edges scaled by its
length; every band width is a multiple of 4 (R174). -/
def Obligations.OffsetsScaleTheBandTables : Prop :=
  ∀ (ws : WindowSequence) (maxSfb : Nat) (lengths : List Nat), maxSfb ≤ sfbLimit ws →
    (isShort ws = false → offsets ws maxSfb lengths = [swbOffsetLong.take (maxSfb + 1)]) ∧
    (isShort ws = true → offsets ws maxSfb lengths =
      lengths.map fun len => (swbOffsetShort.take (maxSfb + 1)).map (· * len)) ∧
    ∀ edges ∈ offsets ws maxSfb lengths, ∀ i, i < maxSfb →
      edges.getD i 0 ≤ edges.getD (i + 1) 0 ∧ (edges.getD (i + 1) 0 - edges.getD i 0) % 4 = 0

/-- SECTION_DATA over the sections of every group consumes exactly their bits and stores those that have a band (R176,
R178). -/
def Obligations.SectionDataStoresTheSections : Prop :=
  ∀ (s : State) (groups : List (List RawSection)), s.err = 0 → s.ctx.vInfo = true →
    groups.length = s.ctx.numWindowGroups → (∀ g ∈ groups, groupOk s.ctx.maxSfb g) →
    Ahead s (sectionBits s.ctx.windowSequence groups) →
    exec .sectionData s = .next (((s.advance (sectionBits s.ctx.windowSequence groups).length).withCtx
      (sectionContext groups s.ctx)).respond (.ok (.sections (groups.map (storedFrom 0)))))

/-- A section that would pass max_sfb, after sections of its group that do not reach it and after whole groups, raises
Decode(SECTION_OVERRUN) after its last length increment, with V_SECT clear (R177). -/
def Obligations.SectionPastMaxSfbRaises : Prop :=
  ∀ (s : State) (groups : List (List RawSection)) (k : Nat) (g : List RawSection) (x : RawSection), s.err = 0 →
    s.ctx.vInfo = true → groups.length < s.ctx.numWindowGroups → (∀ h ∈ groups, groupOk s.ctx.maxSfb h) →
    groupPrefix s.ctx.maxSfb 0 g k → k < s.ctx.maxSfb → x.cb < 16 → s.ctx.maxSfb < k + x.len →
    Ahead s (sectionBits s.ctx.windowSequence (groups ++ [g ++ [x]])) →
    ∃ t : State, exec .sectionData s = .next (t.respond (.error .sectionOverrun t.curPos)) ∧
      t.curPos = s.curPos + (sectionBits s.ctx.windowSequence (groups ++ [g ++ [x]])).length ∧
      t.err = errWord .sectionOverrun t.curPos ∧ t.ctx.vSect = false

/-- SCALE_FACTOR_DATA reads one codeword of table 0 for each band whose codebook is not ZERO_HCB and returns their
number (R181). -/
def Obligations.ScaleFactorDataCountsSymbols : Prop :=
  ∀ (s : State) (words : List Bits), s.err = 0 → s.ctx.vSect = true → words.length = codedBands s.ctx →
    (∀ w ∈ words, ∃ sym, IsCodeword s 0 w sym) → Ahead s words.flatten →
    exec .scaleFactorData s = .next ((s.advance words.flatten.length).respond (.ok (.nat words.length)))

/-- PULSE_DATA consumes 8 bits and 9 more for each of its 1 to 4 pulses, whatever the window sequence (R185, R186). -/
def Obligations.PulseDataConsumesItsPulses : Prop :=
  ∀ (s : State) (x : Pulse), s.err = 0 → x.Ok → Ahead s x.bits →
    exec .pulseData s = .next ((s.advance (8 + 9 * x.pulses.length)).respond (.ok (.nat (8 + 9 * x.pulses.length))))

/-- TNS_DATA consumes exactly the filters of each window (R187, R188). -/
def Obligations.TnsDataConsumesItsFilters : Prop :=
  ∀ (s : State) (windows : List TnsWindow), s.err = 0 → s.ctx.vInfo = true → windows.length = s.ctx.numWindows →
    (∀ w ∈ windows, w.Ok (isShort s.ctx.windowSequence)) →
    Ahead s (windows.flatMap (TnsWindow.bits (isShort s.ctx.windowSequence))) →
    exec .tnsData s =
      .next ((s.advance (windows.flatMap (TnsWindow.bits (isShort s.ctx.windowSequence))).length).respond
        (.ok (.nat (windows.flatMap (TnsWindow.bits (isShort s.ctx.windowSequence))).length)))

/-- GAIN_CONTROL_DATA consumes exactly the adjustments of each window of each band (R189). -/
def Obligations.GainControlDataConsumesItsBands : Prop :=
  ∀ (s : State) (bands : List (List GainWindow)), s.err = 0 → s.ctx.vInfo = true →
    gainOk s.ctx.windowSequence bands → Ahead s (gainBits bands) →
    exec .gainControlData s =
      .next ((s.advance (gainBits bands).length).respond (.ok (.nat (gainBits bands).length)))

/-! ## Spectral data -/

/-- ESC_SEQ consumes the unary prefix, its 0 and a word of N + 4 bits, 2N + 5 bits in all, and returns N and the word's
low 32 bits (R204, R205). -/
def Obligations.EscapeSequenceIsTwoNPlusFive : Prop :=
  ∀ (s : State) (e : Escape), s.err = 0 → e.Ok → Ahead s e.bits →
    exec .escSeq s = .next ((s.advance (2 * e.prefixLen + 5)).respond
      (.ok (.escape e.prefixLen (bitsToNat e.word % 2 ^ 32))))

/-- SPEC_UNIT cb consumes the codeword, all sign bits, then the escapes (R201 to R203). -/
def Obligations.SpecUnitConsumesSignsThenEscapes : Prop :=
  ∀ (s : State) (cb : Nat) (u : SpecUnit), 1 ≤ cb → cb ≤ 11 → s.err = 0 → u.Ok s cb → Ahead s u.bits →
    exec (.specUnit cb) s = .next ((s.advance u.bits.length).respond
      (.ok (.unitOf u.idx (cbValue cb u.idx) u.bits.length)))

/-- SPECTRAL_DATA decodes the units of every section with a spectral codebook, in order, and returns their number and
bits (R207, R208, R211). -/
def Obligations.SpectralDataDecodesEverySection : Prop :=
  ∀ (s : State) (units : List SpecUnit), s.err = 0 → s.ctx.vSect = true →
    List.Forall₂ (SpecUnit.Ok s) (unitCodebooks s.ctx) units → Ahead s (units.flatMap SpecUnit.bits) →
    exec .spectralData s = .next ((s.advance (units.flatMap SpecUnit.bits).length).respond
      (.ok (.spectral units.length (units.map fun u => u.bits.length).sum)))

/-! ## Elements and the dispatch loop -/

/-- ICS 0 over an individual_channel_stream consumes exactly its bits and leaves its context, valid; ICS 1 reads nothing
and raises Unsupported(COMMON_WINDOW); SCE consumes a tag besides, returns it and leaves both valid flags clear (R222 to
R224, R30). -/
def Obligations.IcsAndSceParseTheChannelStream : Prop :=
  ∀ s : State, s.err = 0 →
    (∀ x : Ics, x.Ok s → Ahead s x.bits →
      exec (.ics false) s = .next (((s.advance x.bits.length).withCtx (x.context s.ctx)).respond
        (.ok (.ics x.globalGain x.bits.length)))) ∧
    exec (.ics true) s = .next ((s.withErr (errWord .commonWindow s.curPos)).respond
      (.error .commonWindow s.curPos)) ∧
    (∀ (tag : Nat) (x : Ics), tag < 16 → x.Ok s → Ahead s (natToBits 4 tag ++ x.bits) →
      exec .sce s = .next (((s.advance (4 + x.bits.length)).withCtx
        { x.context s.ctx with vInfo := false, vSect := false }).respond (.ok (.nat tag))))

/-- PCE over a program_config_element at the cursor consumes exactly its bits, alignment included (R225, R226). -/
def Obligations.PceConsumesItsFieldsAndAlignment : Prop :=
  ∀ (s : State) (x : Pce), s.err = 0 → x.Ok s.curPos → Ahead s x.bits →
    exec .pce s = .next ((s.advance x.bits.length).respond (.ok (.pce x.tag x.comment.length)))

/-- FIL consumes its count, plain or escaped, and a payload of exactly 8 bits for each byte counted (R227, R229). -/
def Obligations.FilConsumesEightBitsAByte : Prop :=
  ∀ (s : State) (x : Fil), s.err = 0 → x.Ok → Ahead s x.bits →
    exec .fil s = .next ((s.advance ((if x.escaped then 12 else 4) + 8 * x.count)).respond (.ok (.nat x.count)))

/-- EXT_PAYLOAD cnt consumes 8·cnt bits, type included, for every type not refused; the types of dynamic range and SBR
raise after their 4 bits and consume nothing of the payload (R228 to R230). -/
def Obligations.ExtPayloadConsumesEightBitsAByte : Prop :=
  ∀ (s : State) (cnt code : Nat) (body : Bits), s.err = 0 → 1 ≤ cnt → cnt ≤ 269 → code < 16 →
    (extAccepted code → body.length = 8 * cnt - 4 → Ahead s (natToBits 4 code ++ body) →
      exec (.extPayload cnt) s = .next ((s.advance (8 * cnt)).respond (.ok (.ext code cnt)))) ∧
    (∀ cause, (code = 11 ∧ cause = .extDynamicRange) ∨ (code = 13 ∧ cause = .extSbrData) ∨
        (code = 14 ∧ cause = .extSbrDataCrc) → Ahead s (natToBits 4 code) →
      exec (.extPayload cnt) s = .next (((s.advance 4).withErr (errWord cause (s.curPos + 4))).respond
        (.error cause (s.curPos + 4))))

/-- Each extension type, once read: fill data and the other types consume the rest of 8·cnt bits; the three refused
types raise at the cursor (R78, R228 to R230). The meaning of a stream code from the point where it has been read is the
model's reading (log entry 6). -/
def Obligations.ExtensionTypesComplete : Prop :=
  ∀ (s : State) (cnt code : Nat), s.err = 0 → 1 ≤ cnt → cnt ≤ 269 →
    (8 * cnt - 4 ≤ s.curLen - s.curPos →
      exec (.extFillData cnt) s = .next ((s.advance (8 * cnt - 4)).respond (.ok (.ext 1 cnt)))) ∧
    (8 * cnt - 4 ≤ s.curLen - s.curPos → isOtherExtCode code = true →
      exec (.extOther code cnt) s = .next ((s.advance (8 * cnt - 4)).respond (.ok (.ext code cnt)))) ∧
    exec .extDynamicRange s = .next ((s.withErr (errWord .extDynamicRange s.curPos)).respond
      (.error .extDynamicRange s.curPos)) ∧
    exec .extSbrData s = .next ((s.withErr (errWord .extSbrData s.curPos)).respond
      (.error .extSbrData s.curPos)) ∧
    exec .extSbrDataCrc s = .next ((s.withErr (errWord .extSbrDataCrc s.curPos)).respond
      (.error .extSbrDataCrc s.curPos))

/-- ELEMENT_STEP and EXT_PAYLOAD run the stream code they read: the state after is that of the code's own meaning, with
the cursor past its bits (R231, R228). -/
def Obligations.StreamCodesRunInsideTheirCommands : Prop :=
  ∀ s : State, s.err = 0 →
    (∀ c : BitVec 3, s.dstate ≠ .ended → s.curPos ≠ s.curLen → Ahead s (natToBits 3 c.toNat) →
      ∃ i, decodeCode 0 (.elementId c) = .ok i ∧ exec .elementStep s = exec i (s.advance 3)) ∧
    (∀ (cnt : Nat) (c : BitVec 4), 1 ≤ cnt → cnt ≤ 269 → Ahead s (natToBits 4 c.toNat) →
      ∃ i, decodeCode cnt (.extType c) = .ok i ∧ exec (.extPayload cnt) s = exec i (s.advance 4))

/-- The element ids, once read: SCE, PCE and FIL parse their element and take the record, the ids 1 to 4 clear the
record and parse nothing, END takes the record and ends the loop (R231, R236). `pre` is the record before the element. -/
def Obligations.ElementIdsComplete : Prop :=
  ∀ (s : State) (pre : Bits), s.err = 0 → s.curMark ≤ s.curPos → pre = s.record →
    (∀ (tag : Nat) (x : Ics), tag < 16 → x.Ok s → Ahead s (natToBits 4 tag ++ x.bits) →
      exec .idSce s = .next (({ s.advance (4 + x.bits.length) with
          ctx := { x.context s.ctx with vInfo := false, vSect := false }
          curMark := s.curPos + (4 + x.bits.length) }).respond
        (.ok (.step (.element 0 (bitSeq (pre ++ natToBits 4 tag ++ x.bits))))))) ∧
    (∀ x : Pce, x.Ok s.curPos → Ahead s x.bits →
      exec .idPce s = .next (({ s.advance x.bits.length with curMark := s.curPos + x.bits.length }).respond
        (.ok (.step (.element 5 (bitSeq (pre ++ x.bits))))))) ∧
    (∀ x : Fil, x.Ok → Ahead s x.bits →
      exec .idFil s = .next (({ s.advance x.bits.length with curMark := s.curPos + x.bits.length }).respond
        (.ok (.step (.element 6 (bitSeq (pre ++ x.bits))))))) ∧
    exec .idEnd s = .next (({ s with curMark := s.curPos, dstate := .ended }).respond
      (.ok (.step (.endElement (bitSeq pre))))) ∧
    exec .idCpe s = .next (({ s with curMark := s.curPos }).respond (.ok (.step (.skipped 1)))) ∧
    exec .idCce s = .next (({ s with curMark := s.curPos }).respond (.ok (.step (.skipped 2)))) ∧
    exec .idLfe s = .next (({ s with curMark := s.curPos }).respond (.ok (.step (.skipped 3)))) ∧
    exec .idDse s = .next (({ s with curMark := s.curPos }).respond (.ok (.step (.skipped 4))))

/-- ELEMENT_STEP at a checkpoint, before an element: it consumes exactly the element, id included, and returns its bits
as the record, or SKIPPED for the ids 1 to 4 (R231, R233, R236). -/
def Obligations.ElementStepReturnsTheElement : Prop :=
  ∀ (s : State) (x : Element), s.err = 0 → s.dstate ≠ .ended → s.curMark = s.curPos → x.Ok s s.curPos →
    Ahead s x.bits →
    exec .elementStep s = .next (({ s.advance x.bits.length with
        ctx := x.context s.ctx, curMark := s.curPos + x.bits.length }).respond (.ok (.step x.result)))

/-- ELEMENT_STEP at the loop's ends: DONE with no effect once ENDED, EXHAUSTED when no bit is left, Exhaustion(READ) when
1 or 2 are, and END on the id 7 (R231, R232, R234). -/
def Obligations.ElementStepEndsTheLoop : Prop :=
  ∀ s : State, s.err = 0 →
    (s.dstate = .ended → exec .elementStep s = .next (s.respond (.ok (.step .done)))) ∧
    (s.dstate ≠ .ended → s.curPos = s.curLen →
      exec .elementStep s = .next (({ s with dstate := .ended }).respond (.ok (.step .exhausted)))) ∧
    (s.dstate ≠ .ended → s.curPos < s.curLen → s.curLen < s.curPos + 3 →
      exec .elementStep s = .next ((s.withErr (errWord .read s.curPos)).respond (.error .read s.curPos))) ∧
    (s.dstate ≠ .ended → s.curMark ≤ s.curPos → Ahead s [true, true, true] →
      exec .elementStep s = .next (({ s.advance 3 with curMark := s.curPos + 3, dstate := .ended }).respond
        (.ok (.step (.endElement (bitSeq (s.record ++ [true, true, true])))))))

/-- RUN_FRAME at a checkpoint, before a sequence of elements and END, returns one result for each element and the END
record, and leaves the cursor and the checkpoint after END (R237). -/
def Obligations.RunFrameReturnsEveryElement : Prop :=
  ∀ (s : State) (xs : List Element), s.err = 0 → s.dstate ≠ .ended → s.curMark = s.curPos →
    elementsOk s s.curPos xs → Ahead s (elementsBits xs ++ [true, true, true]) →
    exec .runFrame s = .next (({ s.advance ((elementsBits xs).length + 3) with
        ctx := elementsContext xs s.ctx, curMark := s.curPos + ((elementsBits xs).length + 3)
        dstate := .ended }).respond
      (.ok (.frame (xs.map Element.result ++ [StepResult.endElement (bitSeq [true, true, true])]) .endId)))

/-- Bit-accounting closure: whenever RUN_FRAME started at a checkpoint ends, by END or by exhausted input, the records
and the skipped ids it returns account for exactly the bits it consumed, and the checkpoint is at the cursor; right
after LOAD that is CUR_POS itself (R238, R233). -/
def Obligations.RunFrameAccountsForEveryBit : Prop :=
  ∀ (s t : State) (l : List StepResult) (kind : LoopKind), s.err = 0 → s.curMark = s.curPos →
    exec .runFrame s = .next t → t.responses = s.responses ++ [.ok (.frame l kind)] →
    t.curPos = s.curPos + accountedBits l ∧ t.curMark = t.curPos ∧ t.dstate = .ended

/-! ## ADTS headers -/

/-- ADTS_PARSE of at least 7 bytes returns the fields of the first 7, each at its place in the 56 header bits, with the
payload offset of R266; a shorter sequence is reported as Exhaustion(READ) at 0 (R260, R261, R266). -/
def Obligations.AdtsParseExtractsTheFields : Prop :=
  ∀ s : State,
    (s.dataIn.bytes.length < 7 → exec .adtsParse s = .next (s.respond (.error .read 0))) ∧
    (7 ≤ s.dataIn.bytes.length → ∃ h n, exec .adtsParse s = .next (s.respond (.ok (.header h n))) ∧
      (∀ first width value, (first, width, value) ∈
        [(0, 12, h.syncword), (12, 1, h.mpegVersion), (13, 2, h.layer), (15, 1, h.protectionAbsent),
          (16, 2, h.profile), (18, 4, h.samplingFrequencyIndex), (22, 1, h.privateBit),
          (23, 3, h.channelConfiguration), (26, 1, h.originality), (27, 1, h.home), (28, 1, h.copyrightIdBit),
          (29, 1, h.copyrightIdStart), (30, 13, h.frameLength), (43, 11, h.bufferFullness), (54, 2, h.frames)] →
        value = bitsToNat (((bytesToBits (s.dataIn.bytes.take 7)).drop first).take width)) ∧
      n = 7 + (if h.protectionAbsent = 0 then 2 + 2 * h.frames else 0) ∧ 7 ≤ n ∧ n ≤ 17)

/-- ADTS_GENERATE packs a record whose fields fit into the seven bytes of R260, and reports FIELD_RANGE for a record with
a field that does not (R260, R262). -/
def Obligations.AdtsGeneratePacksTheFields : Prop :=
  ∀ (s : State) (h : AdtsHeader), s.dataIn.header = h →
    (headerFits h = false → exec .adtsGenerate s = .next (s.respond (.error .fieldRange 0))) ∧
    (headerFits h = true → ∃ b0 b1 b2 b3 b4 b5 b6 : Byte,
      exec .adtsGenerate s = .next (s.respond (.ok (.bytes [b0, b1, b2, b3, b4, b5, b6]))) ∧
      b0.toNat = h.syncword / 16 ∧
      b1.toNat = h.syncword % 16 * 16 + h.mpegVersion * 8 + h.layer * 2 + h.protectionAbsent ∧
      b2.toNat = h.profile * 64 + h.samplingFrequencyIndex * 4 + h.privateBit * 2 + h.channelConfiguration / 4 ∧
      b3.toNat = h.channelConfiguration % 4 * 64 + h.originality * 32 + h.home * 16 + h.copyrightIdBit * 8 +
        h.copyrightIdStart * 4 + h.frameLength / 2048 ∧
      b4.toNat = h.frameLength / 8 % 256 ∧
      b5.toNat = h.frameLength % 8 * 32 + h.bufferFullness / 64 ∧
      b6.toNat = h.bufferFullness % 64 * 4 + h.frames)

/-- The two ADTS commands are inverse to each other (R263). -/
def Obligations.AdtsCommandsAreInverse : Prop :=
  (∀ b0 b1 b2 b3 b4 b5 b6 : Byte, ∃ h n,
    adtsParse [b0, b1, b2, b3, b4, b5, b6] = .ok (.header h n) ∧
    adtsGenerate h = .ok (.bytes [b0, b1, b2, b3, b4, b5, b6])) ∧
  (∀ h : AdtsHeader, headerFits h = true → ∃ bytes n,
    adtsGenerate h = .ok (.bytes bytes) ∧ adtsParse bytes = .ok (.header h n) ∧
      n = headerBytes Config.rdbSkipRule h)

/-! ## The host model -/

/-- An access unit with a nonzero channel_configuration passes through both operations unchanged (R282, R293). -/
def Obligations.NonzeroChannelConfigurationPassesThrough : Prop :=
  ∀ (s : State) (au : List Byte), 7 ≤ au.length →
    (parseHeader (headerWord au)).channelConfiguration ≠ 0 →
    ∃ t, transmuxMono au s = .ok ⟨some au, none⟩ t ∧ transmuxStereo au s = .ok ⟨some au, none⟩ t

/-- What the host emits for an access unit it does not pass through: mono outputs carry channel_configuration 1, the
stereo primary 2 and the stereo secondary 1, and each declares its own length (R287, R291). -/
def Obligations.OutputsCarryTheirChannelCount : Prop :=
  ∀ (s t : State) (au : List Byte) (r : HostPair), (parseHeader (headerWord au)).channelConfiguration = 0 →
    (transmuxMono au s = .ok r t → ∀ out, r.primary = some out ∨ r.secondary = some out →
      (parseHeader (headerWord out)).channelConfiguration = 1 ∧
      (parseHeader (headerWord out)).frameLength = out.length) ∧
    (transmuxStereo au s = .ok r t →
      (∀ out, r.primary = some out → (parseHeader (headerWord out)).channelConfiguration = 2 ∧
        (parseHeader (headerWord out)).frameLength = out.length) ∧
      (∀ out, r.secondary = some out → (parseHeader (headerWord out)).channelConfiguration = 1 ∧
        (parseHeader (headerWord out)).frameLength = out.length))
end

