-- ==== Sys2Proof/Laws/State.lean ====
section
/-! SUPPORT. What each named update of the state leaves in each field, and how updates combine. -/

namespace Sys2Proof.Machine

section advance
variable (s : State) (n : Nat)
@[simp] theorem State.advance_inbuf : (s.advance n).inbuf = s.inbuf := rfl
@[simp] theorem State.advance_curPos : (s.advance n).curPos = s.curPos + n := rfl
@[simp] theorem State.advance_curLen : (s.advance n).curLen = s.curLen := rfl
@[simp] theorem State.advance_curMark : (s.advance n).curMark = s.curMark := rfl
@[simp] theorem State.advance_err : (s.advance n).err = s.err := rfl
@[simp] theorem State.advance_dstate : (s.advance n).dstate = s.dstate := rfl
@[simp] theorem State.advance_ctx : (s.advance n).ctx = s.ctx := rfl
@[simp] theorem State.advance_hrom : (s.advance n).hrom = s.hrom := rfl
@[simp] theorem State.advance_inputs : (s.advance n).inputs = s.inputs := rfl
@[simp] theorem State.advance_dataIn : (s.advance n).dataIn = s.dataIn := rfl
@[simp] theorem State.advance_responses : (s.advance n).responses = s.responses := rfl
end advance

section markHere
variable (s : State)
@[simp] theorem State.markHere_inbuf : (s.markHere).inbuf = s.inbuf := rfl
@[simp] theorem State.markHere_curPos : (s.markHere).curPos = s.curPos := rfl
@[simp] theorem State.markHere_curLen : (s.markHere).curLen = s.curLen := rfl
@[simp] theorem State.markHere_curMark : (s.markHere).curMark = s.curPos := rfl
@[simp] theorem State.markHere_err : (s.markHere).err = s.err := rfl
@[simp] theorem State.markHere_dstate : (s.markHere).dstate = s.dstate := rfl
@[simp] theorem State.markHere_ctx : (s.markHere).ctx = s.ctx := rfl
@[simp] theorem State.markHere_hrom : (s.markHere).hrom = s.hrom := rfl
@[simp] theorem State.markHere_inputs : (s.markHere).inputs = s.inputs := rfl
@[simp] theorem State.markHere_dataIn : (s.markHere).dataIn = s.dataIn := rfl
@[simp] theorem State.markHere_responses : (s.markHere).responses = s.responses := rfl
end markHere

section withErr
variable (s : State) (e : BitVec 32)
@[simp] theorem State.withErr_inbuf : (s.withErr e).inbuf = s.inbuf := rfl
@[simp] theorem State.withErr_curPos : (s.withErr e).curPos = s.curPos := rfl
@[simp] theorem State.withErr_curLen : (s.withErr e).curLen = s.curLen := rfl
@[simp] theorem State.withErr_curMark : (s.withErr e).curMark = s.curMark := rfl
@[simp] theorem State.withErr_err : (s.withErr e).err = e := rfl
@[simp] theorem State.withErr_dstate : (s.withErr e).dstate = s.dstate := rfl
@[simp] theorem State.withErr_ctx : (s.withErr e).ctx = s.ctx := rfl
@[simp] theorem State.withErr_hrom : (s.withErr e).hrom = s.hrom := rfl
@[simp] theorem State.withErr_inputs : (s.withErr e).inputs = s.inputs := rfl
@[simp] theorem State.withErr_dataIn : (s.withErr e).dataIn = s.dataIn := rfl
@[simp] theorem State.withErr_responses : (s.withErr e).responses = s.responses := rfl
end withErr

section withDState
variable (s : State) (d : DState)
@[simp] theorem State.withDState_inbuf : (s.withDState d).inbuf = s.inbuf := rfl
@[simp] theorem State.withDState_curPos : (s.withDState d).curPos = s.curPos := rfl
@[simp] theorem State.withDState_curLen : (s.withDState d).curLen = s.curLen := rfl
@[simp] theorem State.withDState_curMark : (s.withDState d).curMark = s.curMark := rfl
@[simp] theorem State.withDState_err : (s.withDState d).err = s.err := rfl
@[simp] theorem State.withDState_dstate : (s.withDState d).dstate = d := rfl
@[simp] theorem State.withDState_ctx : (s.withDState d).ctx = s.ctx := rfl
@[simp] theorem State.withDState_hrom : (s.withDState d).hrom = s.hrom := rfl
@[simp] theorem State.withDState_inputs : (s.withDState d).inputs = s.inputs := rfl
@[simp] theorem State.withDState_dataIn : (s.withDState d).dataIn = s.dataIn := rfl
@[simp] theorem State.withDState_responses : (s.withDState d).responses = s.responses := rfl
end withDState

section withCtx
variable (s : State) (c : Ctx)
@[simp] theorem State.withCtx_inbuf : (s.withCtx c).inbuf = s.inbuf := rfl
@[simp] theorem State.withCtx_curPos : (s.withCtx c).curPos = s.curPos := rfl
@[simp] theorem State.withCtx_curLen : (s.withCtx c).curLen = s.curLen := rfl
@[simp] theorem State.withCtx_curMark : (s.withCtx c).curMark = s.curMark := rfl
@[simp] theorem State.withCtx_err : (s.withCtx c).err = s.err := rfl
@[simp] theorem State.withCtx_dstate : (s.withCtx c).dstate = s.dstate := rfl
@[simp] theorem State.withCtx_ctx : (s.withCtx c).ctx = c := rfl
@[simp] theorem State.withCtx_hrom : (s.withCtx c).hrom = s.hrom := rfl
@[simp] theorem State.withCtx_inputs : (s.withCtx c).inputs = s.inputs := rfl
@[simp] theorem State.withCtx_dataIn : (s.withCtx c).dataIn = s.dataIn := rfl
@[simp] theorem State.withCtx_responses : (s.withCtx c).responses = s.responses := rfl
end withCtx

section respond
variable (s : State) (r : Response)
@[simp] theorem State.respond_inbuf : (s.respond r).inbuf = s.inbuf := rfl
@[simp] theorem State.respond_curPos : (s.respond r).curPos = s.curPos := rfl
@[simp] theorem State.respond_curLen : (s.respond r).curLen = s.curLen := rfl
@[simp] theorem State.respond_curMark : (s.respond r).curMark = s.curMark := rfl
@[simp] theorem State.respond_err : (s.respond r).err = s.err := rfl
@[simp] theorem State.respond_dstate : (s.respond r).dstate = s.dstate := rfl
@[simp] theorem State.respond_ctx : (s.respond r).ctx = s.ctx := rfl
@[simp] theorem State.respond_hrom : (s.respond r).hrom = s.hrom := rfl
@[simp] theorem State.respond_inputs : (s.respond r).inputs = s.inputs := rfl
@[simp] theorem State.respond_dataIn : (s.respond r).dataIn = s.dataIn := rfl
@[simp] theorem State.respond_responses : (s.respond r).responses = s.responses ++ [r] := rfl
end respond

section withStream
variable (s : State) (b : List Byte)
@[simp] theorem State.withStream_inbuf : (s.withStream b).inbuf = s.inbuf.writeBytes 0 b := rfl
@[simp] theorem State.withStream_curPos : (s.withStream b).curPos = 0 := rfl
@[simp] theorem State.withStream_curLen : (s.withStream b).curLen = 8 * b.length := rfl
@[simp] theorem State.withStream_curMark : (s.withStream b).curMark = 0 := rfl
@[simp] theorem State.withStream_err : (s.withStream b).err = s.err := rfl
@[simp] theorem State.withStream_dstate : (s.withStream b).dstate = s.dstate := rfl
@[simp] theorem State.withStream_ctx : (s.withStream b).ctx = s.ctx := rfl
@[simp] theorem State.withStream_hrom : (s.withStream b).hrom = s.hrom := rfl
@[simp] theorem State.withStream_inputs : (s.withStream b).inputs = s.inputs := rfl
@[simp] theorem State.withStream_dataIn : (s.withStream b).dataIn = s.dataIn := rfl
@[simp] theorem State.withStream_responses : (s.withStream b).responses = s.responses := rfl
end withStream

section accept
variable (s : State) (d : DataIn) (rest : List HostInput)
@[simp] theorem State.accept_inbuf : (s.accept d rest).inbuf = s.inbuf := rfl
@[simp] theorem State.accept_curPos : (s.accept d rest).curPos = s.curPos := rfl
@[simp] theorem State.accept_curLen : (s.accept d rest).curLen = s.curLen := rfl
@[simp] theorem State.accept_curMark : (s.accept d rest).curMark = s.curMark := rfl
@[simp] theorem State.accept_err : (s.accept d rest).err = s.err := rfl
@[simp] theorem State.accept_dstate : (s.accept d rest).dstate = s.dstate := rfl
@[simp] theorem State.accept_ctx : (s.accept d rest).ctx = s.ctx := rfl
@[simp] theorem State.accept_hrom : (s.accept d rest).hrom = s.hrom := rfl
@[simp] theorem State.accept_inputs : (s.accept d rest).inputs = rest := rfl
@[simp] theorem State.accept_dataIn : (s.accept d rest).dataIn = d := rfl
@[simp] theorem State.accept_responses : (s.accept d rest).responses = s.responses := rfl
end accept

section clearError
variable (s : State)
@[simp] theorem State.clearError_inbuf : (s.clearError).inbuf = s.inbuf := rfl
@[simp] theorem State.clearError_curPos : (s.clearError).curPos = s.curPos := rfl
@[simp] theorem State.clearError_curLen : (s.clearError).curLen = s.curLen := rfl
@[simp] theorem State.clearError_curMark : (s.clearError).curMark = s.curMark := rfl
@[simp] theorem State.clearError_err : (s.clearError).err = 0 := rfl
@[simp] theorem State.clearError_dstate : (s.clearError).dstate = s.dstate := rfl
@[simp] theorem State.clearError_ctx : (s.clearError).ctx = s.ctx := rfl
@[simp] theorem State.clearError_hrom : (s.clearError).hrom = s.hrom := rfl
@[simp] theorem State.clearError_inputs : (s.clearError).inputs = s.inputs := rfl
@[simp] theorem State.clearError_dataIn : (s.clearError).dataIn = s.dataIn := rfl
@[simp] theorem State.clearError_responses : (s.clearError).responses = s.responses := rfl
end clearError

section resetBlock
variable (s : State) (rest : List HostInput)
@[simp] theorem State.resetBlock_inbuf : (s.resetBlock rest).inbuf = [] := rfl
@[simp] theorem State.resetBlock_curPos : (s.resetBlock rest).curPos = 0 := rfl
@[simp] theorem State.resetBlock_curLen : (s.resetBlock rest).curLen = 0 := rfl
@[simp] theorem State.resetBlock_curMark : (s.resetBlock rest).curMark = 0 := rfl
@[simp] theorem State.resetBlock_err : (s.resetBlock rest).err = 0 := rfl
@[simp] theorem State.resetBlock_dstate : (s.resetBlock rest).dstate = .idle := rfl
@[simp] theorem State.resetBlock_ctx : (s.resetBlock rest).ctx = resetCtx := rfl
@[simp] theorem State.resetBlock_hrom : (s.resetBlock rest).hrom = s.hrom := rfl
@[simp] theorem State.resetBlock_inputs : (s.resetBlock rest).inputs = rest := rfl
@[simp] theorem State.resetBlock_dataIn : (s.resetBlock rest).dataIn = emptyData := rfl
@[simp] theorem State.resetBlock_responses : (s.resetBlock rest).responses = [] := rfl
end resetBlock

section combinations
variable (s : State)

@[simp] theorem State.advance_zero : s.advance 0 = s := rfl
@[simp] theorem State.advance_advance (m n : Nat) : (s.advance m).advance n = s.advance (m + n) := by
  simp [State.advance, Nat.add_assoc]
@[simp] theorem State.withCtx_withCtx (c d : Ctx) : (s.withCtx c).withCtx d = s.withCtx d := rfl
@[simp] theorem State.withCtx_self : s.withCtx s.ctx = s := rfl
@[simp] theorem State.withErr_self : s.withErr s.err = s := rfl
theorem State.withCtx_advance (c : Ctx) (n : Nat) : (s.withCtx c).advance n = (s.advance n).withCtx c := rfl
theorem State.withErr_advance (e : BitVec 32) (n : Nat) : (s.withErr e).advance n = (s.advance n).withErr e := rfl

@[simp] theorem State.unread_advance (n : Nat) : (s.advance n).unread = s.unread - n := by
  simp only [State.unread, State.advance_curPos, State.advance_curLen]; omega
@[simp] theorem State.unread_withCtx (c : Ctx) : (s.withCtx c).unread = s.unread := rfl
@[simp] theorem State.unread_markHere : s.markHere.unread = s.unread := rfl
@[simp] theorem State.unread_withDState (d : DState) : (s.withDState d).unread = s.unread := rfl
@[simp] theorem State.unreadBits_withCtx (c : Ctx) : (s.withCtx c).unreadBits = s.unreadBits := rfl
@[simp] theorem State.unreadBits_markHere : s.markHere.unreadBits = s.unreadBits := rfl
@[simp] theorem State.unreadBits_withDState (d : DState) : (s.withDState d).unreadBits = s.unreadBits := rfl
@[simp] theorem State.trie_advance (n t : Nat) : (s.advance n).trie t = s.trie t := rfl
@[simp] theorem State.trie_withCtx (c : Ctx) (t : Nat) : (s.withCtx c).trie t = s.trie t := rfl
@[simp] theorem State.trie_markHere (t : Nat) : s.markHere.trie t = s.trie t := rfl
@[simp] theorem State.trie_withDState (d : DState) (t : Nat) : (s.withDState d).trie t = s.trie t := rfl

end combinations

section flags
variable (c : Ctx)

@[simp] theorem clearValid_vInfo : (clearValid c).vInfo = false := rfl
@[simp] theorem clearValid_vSect : (clearValid c).vSect = false := rfl
@[simp] theorem clearValidSect_vInfo : (clearValidSect c).vInfo = c.vInfo := rfl
@[simp] theorem clearValidSect_vSect : (clearValidSect c).vSect = false := rfl
@[simp] theorem setValidInfo_vInfo : (setValidInfo c).vInfo = true := rfl
@[simp] theorem setValidInfo_vSect : (setValidInfo c).vSect = c.vSect := rfl
@[simp] theorem setValidSect_vInfo : (setValidSect c).vInfo = c.vInfo := rfl
@[simp] theorem setValidSect_vSect : (setValidSect c).vSect = true := rfl
@[simp] theorem clearValid_clearValid : clearValid (clearValid c) = clearValid c := rfl

end flags

/-! ## Taking an error -/

/-- With no error pending, the error is recorded with the cursor and the response names it. -/
theorem State.takeError_of_clear {s : State} (h : s.err = 0) (c : Cause) :
    s.takeError c = (s.withErr (errWord c s.curPos)).respond (.error c s.curPos) := by
  rw [State.takeError, if_pos h]

/-- With an error pending, ERR keeps it. -/
theorem State.takeError_of_pending {s : State} (h : s.err ≠ 0) (c : Cause) :
    s.takeError c = s.respond (.error c s.curPos) := by
  rw [State.takeError, if_neg h]

@[simp] theorem State.takeError_responses (s : State) (c : Cause) :
    (s.takeError c).responses = s.responses ++ [.error c s.curPos] := by
  unfold State.takeError; split <;> rfl

end Sys2Proof.Machine
end

