-- ==== Sys2Proof/Laws/Bits.lean ====
section
/-! SUPPORT. The laws of bit sequences: the number a sequence spells, the sequence that spells a number, and the part of
the stream that lies ahead of the cursor. -/

namespace Sys2Proof.Machine

open Sys2Proof.Grammar

/-! ## Numbers and sequences -/

theorem bitsToNat_foldl (bits : Bits) (acc : Nat) :
    bits.foldl (fun a b => 2 * a + b.toNat) acc = acc * 2 ^ bits.length + bitsToNat bits := by
  induction bits generalizing acc with
  | nil => simp [bitsToNat]
  | cons b rest ih =>
    simp only [List.foldl_cons, List.length_cons, bitsToNat]
    rw [ih, ih (2 * 0 + b.toNat)]
    ring

@[simp] theorem bitsToNat_nil : bitsToNat [] = 0 := rfl

theorem bitsToNat_cons (b : Bool) (rest : Bits) :
    bitsToNat (b :: rest) = b.toNat * 2 ^ rest.length + bitsToNat rest := by
  rw [bitsToNat, List.foldl_cons, bitsToNat_foldl]; simp

theorem bitsToNat_append (x y : Bits) : bitsToNat (x ++ y) = bitsToNat x * 2 ^ y.length + bitsToNat y := by
  rw [bitsToNat, List.foldl_append, bitsToNat_foldl]; rfl

theorem bitsToNat_lt (bits : Bits) : bitsToNat bits < 2 ^ bits.length := by
  induction bits with
  | nil => simp
  | cons b rest ih =>
    rw [bitsToNat_cons, List.length_cons, Nat.pow_succ]
    cases b <;> simp only [Bool.toNat_false, Bool.toNat_true] <;> omega

@[simp] theorem natToBits_length (n v : Nat) : (natToBits n v).length = n := by simp [natToBits]

theorem natToBits_succ (n v : Nat) : natToBits (n + 1) v = v.testBit n :: natToBits n v := by
  simp only [natToBits, List.range_succ_eq_map, List.map_cons, List.map_map]
  congr 1
  exact List.map_congr_left fun i _ => by simp only [Function.comp_apply]; congr 1; omega

theorem bitsToNat_natToBits (n v : Nat) : bitsToNat (natToBits n v) = v % 2 ^ n := by
  induction n with
  | zero => simp [natToBits, Nat.mod_one]
  | succ n ih =>
    rw [natToBits_succ, bitsToNat_cons, natToBits_length, ih, Nat.mod_pow_succ, Nat.testBit_eq_decide_div_mod_eq]
    rcases Nat.mod_two_eq_zero_or_one (v / 2 ^ n) with h | h <;> simp [h, Nat.add_comm]

/-- A number that fits is read back from its bits. -/
theorem bitsToNat_natToBits_of_lt {n v : Nat} (h : v < 2 ^ n) : bitsToNat (natToBits n v) = v := by
  rw [bitsToNat_natToBits, Nat.mod_eq_of_lt h]

theorem natToBits_bitsToNat (bits : Bits) : natToBits bits.length (bitsToNat bits) = bits := by
  have hinj : ∀ x y : Bits, x.length = y.length → bitsToNat x = bitsToNat y → x = y := by
    intro x
    induction x with
    | nil => intro y hy _; exact (List.length_eq_zero_iff.mp hy.symm).symm
    | cons a xs ih =>
      intro y hy h
      cases y with
      | nil => exact absurd hy (by simp)
      | cons b ys =>
        have hl : xs.length = ys.length := by simpa using hy
        rw [bitsToNat_cons, bitsToNat_cons, hl] at h
        have hx := bitsToNat_lt xs
        have hy' := bitsToNat_lt ys
        rw [hl] at hx
        cases a <;> cases b <;> simp only [Bool.toNat_false, Bool.toNat_true] at h
        · rw [ih ys hl (by omega)]
        · omega
        · omega
        · rw [ih ys hl (by omega)]
  exact hinj _ _ (natToBits_length _ _) (by rw [bitsToNat_natToBits, Nat.mod_eq_of_lt (bitsToNat_lt bits)])

/-! ## The stream -/

@[simp] theorem streamBits_length (m : Memory) (p n : Nat) : (streamBits m p n).length = n := by simp [streamBits]

@[simp] theorem streamBits_zero (m : Memory) (p : Nat) : streamBits m p 0 = [] := rfl

theorem streamBits_add (m : Memory) (p a b : Nat) :
    streamBits m p (a + b) = streamBits m p a ++ streamBits m (p + a) b := by
  simp only [streamBits, ← List.map_append]
  congr 1
  have h := List.range'_append_1 (s := p) (m := a) (n := b)
  rw [h]

theorem streamBits_prefix (m : Memory) (p : Nat) {a n : Nat} (h : a ≤ n) : streamBits m p a <+: streamBits m p n := by
  obtain ⟨b, rfl⟩ := Nat.exists_eq_add_of_le h
  exact ⟨_, (streamBits_add m p a b).symm⟩

/-- The bits ahead are as many as are left, and are what the stream holds at the cursor. -/
theorem ahead_spec {s : State} {bits : Bits} (h : Ahead s bits) :
    bits.length ≤ s.unread ∧ streamBits s.inbuf s.curPos bits.length = bits := by
  have hl : bits.length ≤ s.unread := by simpa [State.unreadBits] using h.length_le
  refine ⟨hl, ?_⟩
  have h1 := (streamBits_prefix s.inbuf s.curPos hl)
  exact (List.prefix_of_prefix_length_le h1 h (by simp)).eq_of_length (by simp)

/-- Past the first of two sequences ahead, the second is ahead. -/
theorem ahead_append {s : State} {x y : Bits} (h : Ahead s (x ++ y)) :
    Ahead s x ∧ Ahead (s.advance x.length) y := by
  refine ⟨(List.prefix_append x y).trans h, ?_⟩
  have hx := ahead_spec (show Ahead s x from (List.prefix_append x y).trans h)
  obtain ⟨z, hz⟩ := h
  refine ⟨z, ?_⟩
  have hs : s.unreadBits = x ++ (s.advance x.length).unreadBits := by
    have hu : s.unread = x.length + (s.advance x.length).unread := by simp; omega
    unfold State.unreadBits
    rw [hu, streamBits_add, hx.2]; rfl
  rw [hs, List.append_assoc, List.append_cancel_left_eq] at hz
  exact hz

@[simp] theorem ahead_withCtx (s : State) (c : Ctx) (bits : Bits) : Ahead (s.withCtx c) bits ↔ Ahead s bits := Iff.rfl

@[simp] theorem ahead_nil (s : State) : Ahead s [] := List.nil_prefix

end Sys2Proof.Machine
end

