-- ==== Sys2Proof/Laws/Encoding.lean ====
section
/-! SUPPORT. The fields of a command word, and a word put together again from its fields (R70, R76). -/

namespace Sys2Proof

@[simp] theorem wordOpc_commandWord (opc a b : Nat) : wordOpc (commandWord opc a b) = opc % 2 ^ 8 := by
  have h : (commandWord opc a b).extractLsb' 24 8 = BitVec.ofNat 8 opc := by
    apply BitVec.eq_of_getLsbD_eq
    intro i hi
    simp only [commandWord, BitVec.getLsbD_extractLsb', BitVec.getLsbD_append, hi, decide_true, Bool.true_and]
    rw [if_neg (by omega), if_neg (by omega), show 24 + i - 16 - 8 = i by omega]
  rw [wordOpc, h, BitVec.toNat_ofNat]

@[simp] theorem wordA_commandWord (opc a b : Nat) : wordA (commandWord opc a b) = a % 2 ^ 8 := by
  have h : (commandWord opc a b).extractLsb' 16 8 = BitVec.ofNat 8 a := by
    apply BitVec.eq_of_getLsbD_eq
    intro i hi
    simp only [commandWord, BitVec.getLsbD_extractLsb', BitVec.getLsbD_append, hi, decide_true, Bool.true_and]
    rw [if_neg (by omega), if_pos (by omega), show 16 + i - 16 = i by omega]
  rw [wordA, h, BitVec.toNat_ofNat]

@[simp] theorem wordB_commandWord (opc a b : Nat) : wordB (commandWord opc a b) = b % 2 ^ 16 := by
  have h : (commandWord opc a b).extractLsb' 0 16 = BitVec.ofNat 16 b := by
    apply BitVec.eq_of_getLsbD_eq
    intro i hi
    simp only [commandWord, BitVec.getLsbD_extractLsb', BitVec.getLsbD_append, hi, decide_true, Bool.true_and]
    rw [if_pos (by omega), show 0 + i = i by omega]
  rw [wordB, h, BitVec.toNat_ofNat]

/-- A word is the command word of its three fields. -/
theorem commandWord_fields (w : Word) : commandWord (wordOpc w) (wordA w) (wordB w) = w := by
  apply BitVec.eq_of_getLsbD_eq
  intro i hi
  simp only [commandWord, wordOpc, wordA, wordB, BitVec.ofNat_toNat, BitVec.setWidth_eq, BitVec.getLsbD_append,
    BitVec.getLsbD_extractLsb']
  split
  · rename_i h; simp [h]
  · split
    · rename_i h h'
      rw [show 16 + (i - 16) = i by omega]; simp [h']
    · rename_i h h'
      rw [show 24 + (i - 16 - 8) = i by omega]
      simp [show i - 16 - 8 < 8 by omega]

/-- The opcode is the word's top byte. -/
theorem wordOpc_eq_div (w : Word) : wordOpc w = w.toNat / 2 ^ 24 := by
  rw [wordOpc, BitVec.extractLsb'_toNat, Nat.shiftRight_eq_div_pow]
  exact Nat.mod_eq_of_lt (by have := w.isLt; omega)

/-- A passed argument check gives the instruction. -/
@[simp] theorem argsChecked_eq_ok {ok : Bool} {i j : Instr} : argsChecked ok i = .ok j ↔ ok = true ∧ i = j := by
  cases ok <;> simp [argsChecked]

/-- An argument check never calls the opcode illegal. -/
@[simp] theorem argsChecked_ne_illegal (ok : Bool) (i : Instr) : argsChecked ok i ≠ .error .illegalOpcode := by
  cases ok <;> simp [argsChecked]

/-- An element id is read from its own code. -/
@[simp] theorem elementIdOf_code (e : ElementId) : elementIdOf (elementIdCode e) = e := by cases e <;> rfl

theorem elementIdCode_lt (e : ElementId) : elementIdCode e < 8 := by cases e <;> decide

theorem elementIdCode_of {n : Nat} (h : n < 8) : elementIdCode (elementIdOf n) = n := by
  interval_cases n <;> rfl

end Sys2Proof
end

