-- ==== Sys2Proof/Laws/Walk.lean ====
section
/-! SUPPORT. The laws of walks: sequencing, the reads, the loops, and what the preamble makes of a walk. -/

namespace Sys2Proof.Machine

open Sys2Proof.Grammar

variable {α β : Type}

/-! ## Sequencing -/

theorem walk_bind_ok {m : Walk α} {f : α → Walk β} {s t : State} {a : α} (h : m s = .ok a t) :
    (m >>= f) s = f a t := by
  simp only [bind, EStateM.bind, h]

theorem walk_bind_error {m : Walk α} {f : α → Walk β} {s t : State} {c : Cause} (h : m s = .error c t) :
    (m >>= f) s = .error c t := by
  simp only [bind, EStateM.bind, h]

/-- What a sequence's success says about its parts. -/
theorem walk_bind_eq_ok {m : Walk α} {f : α → Walk β} {s u : State} {b : β} :
    (m >>= f) s = .ok b u ↔ ∃ a t, m s = .ok a t ∧ f a t = .ok b u := by
  cases h : m s with
  | ok a t => simp [walk_bind_ok h]
  | error c t => simp [walk_bind_error h]

/-- What a sequence's error says about its parts. -/
theorem walk_bind_eq_error {m : Walk α} {f : α → Walk β} {s u : State} {c : Cause} :
    (m >>= f) s = .error c u ↔ m s = .error c u ∨ ∃ a t, m s = .ok a t ∧ f a t = .error c u := by
  cases h : m s with
  | ok a t => simp [walk_bind_ok h]
  | error d t => simp [walk_bind_error h]

@[simp] theorem walk_pure (a : α) (s : State) : (pure a : Walk α) s = .ok a s := rfl
@[simp] theorem walk_raise (c : Cause) (s : State) : (raise c : Walk α) s = .error c s := rfl
@[simp] theorem walk_getState (s : State) : getState s = .ok s s := rfl
@[simp] theorem walk_getPos (s : State) : getPos s = .ok s.curPos s := rfl
@[simp] theorem walk_getCtx (s : State) : getCtx s = .ok s.ctx s := rfl
@[simp] theorem walk_updateCtx (f : Ctx → Ctx) (s : State) : updateCtx f s = .ok () (s.withCtx (f s.ctx)) := rfl
@[simp] theorem walk_setDState (d : DState) (s : State) : setDState d s = .ok () (s.withDState d) := rfl
@[simp] theorem walk_setMark (s : State) : setMark s = .ok () s.markHere := rfl

theorem requireValid_set {flag : Ctx → Bool} {s : State} (h : flag s.ctx = true) :
    requireValid flag s = .ok () s := by simp [requireValid, h]

theorem requireValid_clear {flag : Ctx → Bool} {s : State} (h : flag s.ctx = false) :
    requireValid flag s = .error .contextUnwritten s := by simp [requireValid, h]

@[simp] theorem walk_whenTrue_true (m : Walk Unit) : whenTrue true m = m := rfl
@[simp] theorem walk_whenTrue_false (m : Walk Unit) : whenTrue false m = pure () := rfl

/-! ## Reads -/

/-- A read with enough bits left. -/
theorem readBits_enough {s : State} {n : Nat} (h : n ≤ s.unread) :
    readBits n s = .ok (bitsToNat (streamBits s.inbuf s.curPos n)) (s.advance n) := by
  rw [readBits, if_neg (Nat.not_lt.mpr h)]

/-- A read with too few bits left consumes nothing. -/
theorem readBits_short {s : State} {n : Nat} (h : s.unread < n) : readBits n s = .error .read s := by
  rw [readBits, if_pos h]

/-- A read of the bits ahead. -/
theorem readBits_ahead {s : State} {bits : Bits} (h : Ahead s bits) :
    readBits bits.length s = .ok (bitsToNat bits) (s.advance bits.length) := by
  rw [readBits_enough (ahead_spec h).1, (ahead_spec h).2]

/-- A read of a field whose bits are ahead gives the field. -/
theorem readBits_field {s : State} {n v : Nat} (hv : v < 2 ^ n) (h : Ahead s (natToBits n v)) :
    readBits n s = .ok v (s.advance n) := by
  have := readBits_ahead h
  rwa [natToBits_length, bitsToNat_natToBits_of_lt hv] at this

/-- A read of a one-bit flag. -/
theorem readBits_flag {s : State} {b : Bool} (h : Ahead s [b]) : readBits 1 s = .ok b.toNat (s.advance 1) := by
  have := readBits_ahead h
  simpa [bitsToNat_cons] using this

theorem skipBits_enough {s : State} {n : Nat} (h : n ≤ s.unread) : skipBits n s = .ok () (s.advance n) := by
  rw [skipBits, walk_bind_ok (readBits_enough h)]; rfl

theorem skipBits_short {s : State} {n : Nat} (h : s.unread < n) : skipBits n s = .error .read s := by
  rw [skipBits, walk_bind_error (readBits_short h)]

theorem skipBits_ahead {s : State} {bits : Bits} (h : Ahead s bits) :
    skipBits bits.length s = .ok () (s.advance bits.length) := skipBits_enough (ahead_spec h).1

/-! ## Walks that only read -/

/-- Wherever the walk ends, it has done nothing but advance the cursor over bits that were left. -/
def ReadsForward (m : Walk α) : Prop :=
  ∀ s, (∃ a n, n ≤ s.unread ∧ m s = .ok a (s.advance n)) ∨ (∃ c n, n ≤ s.unread ∧ m s = .error c (s.advance n))

theorem ReadsForward.pure (a : α) : ReadsForward (pure a : Walk α) :=
  fun _ => .inl ⟨a, 0, Nat.zero_le _, rfl⟩

theorem ReadsForward.raise (c : Cause) : ReadsForward (raise c : Walk α) :=
  fun _ => .inr ⟨c, 0, Nat.zero_le _, rfl⟩

theorem ReadsForward.getState : ReadsForward getState := fun s => .inl ⟨s, 0, Nat.zero_le _, rfl⟩
theorem ReadsForward.getPos : ReadsForward getPos := fun s => .inl ⟨s.curPos, 0, Nat.zero_le _, rfl⟩
theorem ReadsForward.getCtx : ReadsForward getCtx := fun s => .inl ⟨s.ctx, 0, Nat.zero_le _, rfl⟩

theorem ReadsForward.requireValid (flag : Ctx → Bool) : ReadsForward (requireValid flag) := fun s => by
  cases h : flag s.ctx with
  | false => exact .inr ⟨_, 0, Nat.zero_le _, requireValid_clear h⟩
  | true => exact .inl ⟨_, 0, Nat.zero_le _, requireValid_set h⟩

theorem ReadsForward.readBits (n : Nat) : ReadsForward (readBits n) := fun s => by
  by_cases h : n ≤ s.unread
  · exact .inl ⟨_, n, h, readBits_enough h⟩
  · exact .inr ⟨_, 0, Nat.zero_le _, readBits_short (Nat.not_le.mp h)⟩

theorem ReadsForward.bind {m : Walk α} {f : α → Walk β} (hm : ReadsForward m) (hf : ∀ a, ReadsForward (f a)) :
    ReadsForward (m >>= f) := fun s => by
  rcases hm s with ⟨a, n, hn, h⟩ | ⟨c, n, hn, h⟩
  · rw [walk_bind_ok h]
    have hu : (s.advance n).unread = s.unread - n := State.unread_advance s n
    rcases hf a (s.advance n) with ⟨b, k, hk, h'⟩ | ⟨c, k, hk, h'⟩
    · exact .inl ⟨b, n + k, by omega, by rw [h', State.advance_advance]⟩
    · exact .inr ⟨c, n + k, by omega, by rw [h', State.advance_advance]⟩
  · exact .inr ⟨c, n, hn, walk_bind_error h⟩

theorem ReadsForward.ite {p : Prop} [Decidable p] {m m' : Walk α} (h : ReadsForward m) (h' : ReadsForward m') :
    ReadsForward (if p then m else m') := by
  split
  · exact h
  · exact h'

theorem ReadsForward.whenTrue {m : Walk Unit} (h : ReadsForward m) (b : Bool) : ReadsForward (whenTrue b m) :=
  .ite h (.pure ())

theorem ReadsForward.skipBits (n : Nat) : ReadsForward (skipBits n) := (ReadsForward.readBits n).bind fun _ => .pure ()

theorem ReadsForward.foldFrom {f : Nat → α → Walk α} (h : ∀ i a, ReadsForward (f i a)) (n : Nat) :
    ∀ i a, ReadsForward (foldFrom f i n a) := by
  induction n with
  | zero => exact fun _ a => .pure a
  | succ n ih => exact fun i a => (h i a).bind fun a' => ih (i + 1) a'

theorem ReadsForward.times {m : Walk Unit} (h : ReadsForward m) (n : Nat) : ReadsForward (times n m) :=
  ReadsForward.foldFrom (fun _ _ => h) n 0 ()

theorem ReadsForward.forEach {f : β → Walk Unit} (h : ∀ b, ReadsForward (f b)) :
    ∀ l : List β, ReadsForward (forEach f l)
  | [] => .pure ()
  | b :: rest => (h b).bind fun _ => ReadsForward.forEach h rest

theorem ReadsForward.loopFuel {body : α → Walk (α ⊕ β)} (h : ∀ a, ReadsForward (body a)) (fuel : Nat) :
    ∀ a, ReadsForward (loopFuel body fuel a) := by
  induction fuel with
  | zero => exact fun _ => .raise .read
  | succ n ih =>
    refine fun a => (h a).bind fun r => ?_
    cases r with
    | inl a' => exact ih a'
    | inr b => exact .pure b

theorem ReadsForward.whileBits {body : α → Walk (α ⊕ β)} (h : ∀ a, ReadsForward (body a)) (a : α) :
    ReadsForward (whileBits body a) := fun s => ReadsForward.loopFuel h (s.unread + 1) a s

/-! ## Loops -/

/-- A body that goes on only after it has consumed a bit (R351). -/
def Consumes (body : α → Walk (α ⊕ β)) : Prop :=
  ∀ a a' s t, body a s = .ok (.inl a') t → t.unread < s.unread

/-- Any fuel above the unread bits gives the same run: the fuel never ends a loop that consumes. -/
theorem loopFuel_enough {body : α → Walk (α ⊕ β)} (h : Consumes body) :
    ∀ (n m : Nat) (a : α) (s : State), s.unread < n → s.unread < m →
      loopFuel body n a s = loopFuel body m a s
  | 0, _, _, _, hn, _ => absurd hn (Nat.not_lt_zero _)
  | _ + 1, 0, _, _, _, hm => absurd hm (Nat.not_lt_zero _)
  | n + 1, m + 1, a, s, hn, hm => by
    unfold loopFuel
    cases hb : body a s with
    | error c t => rw [walk_bind_error hb, walk_bind_error hb]
    | ok r t =>
      rw [walk_bind_ok hb, walk_bind_ok hb]
      cases r with
      | inr b => rfl
      | inl a' =>
        have := h a a' s t hb
        exact loopFuel_enough h n m a' t (by omega) (by omega)

/-- A pass that leaves the loop. -/
theorem whileBits_done {body : α → Walk (α ⊕ β)} {a : α} {s t : State} {b : β} (h : body a s = .ok (.inr b) t) :
    whileBits body a s = .ok b t := by
  simp only [whileBits, loopFuel]; rw [walk_bind_ok h]; rfl

/-- A pass that goes on. -/
theorem whileBits_again {body : α → Walk (α ⊕ β)} (hc : Consumes body) {a a' : α} {s t : State}
    (h : body a s = .ok (.inl a') t) : whileBits body a s = whileBits body a' t := by
  have := hc a a' s t h
  simp only [whileBits]
  rw [loopFuel, walk_bind_ok h]
  exact loopFuel_enough hc _ _ a' t (by omega) (by omega)

/-- A pass that raises. -/
theorem whileBits_error {body : α → Walk (α ⊕ β)} {a : α} {s t : State} {c : Cause} (h : body a s = .error c t) :
    whileBits body a s = .error c t := by
  simp only [whileBits, loopFuel]; rw [walk_bind_error h]

/-- A loop over items, each with its own bits ahead: if one pass over an item takes `bits item` and nothing else, the
loop takes them all. -/
theorem times_ahead {ι : Type} {m : Walk Unit} {bits : ι → Bits}
    (h : ∀ s x, Ahead s (bits x) → m s = .ok () (s.advance (bits x).length)) :
    ∀ (items : List ι) (i : Nat) (s : State), Ahead s (items.flatMap bits) →
      foldFrom (fun _ _ => m) i items.length () s = .ok () (s.advance (items.flatMap bits).length)
  | [], _, _, _ => rfl
  | x :: rest, i, s, ha => by
    rw [List.flatMap_cons] at ha
    rw [List.length_cons, foldFrom, walk_bind_ok (h s x (ahead_append ha).1), times_ahead h rest _ _ (ahead_append ha).2,
      State.advance_advance, List.flatMap_cons, List.length_append]

/-! ## The preamble -/

theorem runWalk_ok {m : Walk Value} {s t : State} {v : Value} (h : m s = .ok v t) :
    runWalk m s = t.respond (.ok v) := by simp [runWalk, h]

theorem runWalk_error {m : Walk Value} {s t : State} {c : Cause} (h : m s = .error c t) :
    runWalk m s = t.takeError c := by simp [runWalk, h]

theorem stateful_run {m : Walk Value} {s : State} (h : s.err = 0) : stateful true m s = runWalk m s := by
  simp [stateful, h]

theorem stateful_refused {m : Walk Value} {s : State} (h : s.err ≠ 0) : stateful true m s = s.refuse := by
  rw [stateful, if_pos rfl, if_neg h]

@[simp] theorem stateful_badArgument (m : Walk Value) (s : State) :
    stateful false m s = s.reportError .badArgument := rfl

/-- Everything a stateful command can do: a bad argument, a refusal, a result, or an error taken. -/
theorem stateful_cases (ok : Bool) (m : Walk Value) (s : State) :
    (ok = false ∧ stateful ok m s = s.reportError .badArgument) ∨
    (ok = true ∧ s.err ≠ 0 ∧ stateful ok m s = s.refuse) ∨
    (ok = true ∧ s.err = 0 ∧ ∃ v t, m s = .ok v t ∧ stateful ok m s = t.respond (.ok v)) ∨
    (ok = true ∧ s.err = 0 ∧ ∃ c t, m s = .error c t ∧ stateful ok m s = t.takeError c) := by
  cases ok with
  | false => exact .inl ⟨rfl, rfl⟩
  | true =>
    by_cases he : s.err = 0
    · rw [stateful_run he]
      cases hm : m s with
      | ok v t => exact .inr (.inr (.inl ⟨rfl, he, v, t, rfl, runWalk_ok hm⟩))
      | error c t => exact .inr (.inr (.inr ⟨rfl, he, c, t, rfl, runWalk_error hm⟩))
    · exact .inr (.inl ⟨rfl, he, stateful_refused he⟩)

/-- Everything a pure command can do: it only answers. -/
theorem pureCommand_answers (ok : Bool) (r : Except Cause Value) (s : State) :
    ∃ answer, pureCommand ok r s = s.respond answer := by
  cases ok with
  | false => exact ⟨_, rfl⟩
  | true => cases r with
    | ok v => exact ⟨_, rfl⟩
    | error c => exact ⟨_, rfl⟩

end Sys2Proof.Machine
end

