-- ==== Sys2Proof/Laws/Reads.lean ====
section
/-! SUPPORT. One lemma for each walk that reads the stream and writes nothing: wherever it ends, only the cursor has
moved. And one for each loop: it goes on only after it has consumed a bit (R351). -/

namespace Sys2Proof.Machine

/-! ## Walks that only read -/

theorem readBool_readsForward : ReadsForward readBool := (ReadsForward.readBits 1).bind fun _ => .pure _

theorem byteAlign_readsForward : ReadsForward byteAlign :=
  ReadsForward.getPos.bind fun _ => (ReadsForward.readBits _).bind fun _ => .pure _

theorem descend_readsForward : ∀ t : Trie, ReadsForward (descend t)
  | .leaf sym => .pure sym
  | .absent => .raise _
  | .node c0 c1 =>
    (ReadsForward.readBits 1).bind fun _ => .ite (descend_readsForward c0) (descend_readsForward c1)

theorem huffDecode_readsForward (t : Nat) : ReadsForward (huffDecode t) :=
  ReadsForward.getState.bind fun _ => descend_readsForward _

theorem escSeq_readsForward : ReadsForward escSeq :=
  (ReadsForward.whileBits (fun _ => (ReadsForward.readBits 1).bind fun _ => .pure _) 0).bind fun _ =>
    (ReadsForward.readBits _).bind fun _ => .pure _

theorem unitTail_readsForward (cb : Nat) (v : List Int) : ReadsForward (unitTail cb v) :=
  (ReadsForward.whenTrue (.forEach (fun _ => .whenTrue (.skipBits 1) _) v) _).bind fun _ =>
    .whenTrue (.forEach (fun _ => .whenTrue (escSeq_readsForward.bind fun _ => .pure _) _) v) _

theorem specUnit_readsForward (cb : Nat) : ReadsForward (specUnit cb) :=
  ReadsForward.getPos.bind fun _ => (huffDecode_readsForward cb).bind fun _ =>
    (unitTail_readsForward cb _).bind fun _ => ReadsForward.getPos.bind fun _ => .pure _

theorem scaleFactorDataBody_readsForward : ReadsForward scaleFactorDataBody :=
  (ReadsForward.requireValid _).bind fun _ => ReadsForward.getCtx.bind fun _ =>
    .foldFrom (fun _ n => .foldFrom (fun _ _ => ReadsForward.getCtx.bind fun _ =>
      .ite (.pure _) ((huffDecode_readsForward 0).bind fun _ => .pure _)) _ 0 n) _ 0 0

theorem pulseDataBody_readsForward : ReadsForward pulseDataBody :=
  (ReadsForward.readBits 2).bind fun _ => (ReadsForward.skipBits 6).bind fun _ =>
    (ReadsForward.times ((ReadsForward.skipBits 5).bind fun _ => .skipBits 4) _).bind fun _ => .pure _

theorem tnsFilter_readsForward (short : Bool) (coefRes : Nat) : ReadsForward (tnsFilter short coefRes) :=
  (ReadsForward.skipBits _).bind fun _ => (ReadsForward.readBits _).bind fun _ =>
    .ite ((ReadsForward.skipBits 1).bind fun _ => (ReadsForward.readBits 1).bind fun _ => .times (.skipBits _) _)
      (.pure _)

theorem tnsWindow_readsForward (short : Bool) : ReadsForward (tnsWindow short) :=
  (ReadsForward.readBits _).bind fun _ =>
    .ite ((ReadsForward.readBits 1).bind fun _ => .times (tnsFilter_readsForward _ _) _) (.pure _)

theorem tnsDataBody_readsForward : ReadsForward tnsDataBody :=
  (ReadsForward.requireValid _).bind fun _ => ReadsForward.getCtx.bind fun _ => ReadsForward.getPos.bind fun _ =>
    (ReadsForward.times (tnsWindow_readsForward _) _).bind fun _ => ReadsForward.getPos.bind fun _ => .pure _

theorem gainControlDataBody_readsForward : ReadsForward gainControlDataBody :=
  (ReadsForward.requireValid _).bind fun _ => ReadsForward.getCtx.bind fun _ => ReadsForward.getPos.bind fun _ =>
    (ReadsForward.readBits 2).bind fun _ =>
    (ReadsForward.times (.forEach (fun _ => (ReadsForward.readBits 3).bind fun _ =>
      .times ((ReadsForward.skipBits 4).bind fun _ => .skipBits _) _) _) _).bind fun _ =>
    ReadsForward.getPos.bind fun _ => .pure _

theorem spectralDataBody_readsForward : ReadsForward spectralDataBody :=
  (ReadsForward.requireValid _).bind fun _ => ReadsForward.getCtx.bind fun _ => ReadsForward.getPos.bind fun _ =>
    (ReadsForward.foldFrom (fun _ _ => .foldFrom (fun _ _ => .ite
      (.foldFrom (fun _ _ => (specUnit_readsForward _).bind fun _ => .pure _) _ _ _) (.pure _)) _ _ _) _ _ _).bind
      fun _ => ReadsForward.getPos.bind fun _ => .pure _

theorem pceMixdown_readsForward {fields : Walk Unit} (h : ReadsForward fields) : ReadsForward (pceMixdown fields) :=
  (ReadsForward.readBits 1).bind fun _ => .whenTrue h _

theorem pceBody_readsForward : ReadsForward pceBody := by
  have pair : ReadsForward (do skipBits 1; skipBits 4) := (ReadsForward.skipBits 1).bind fun _ => .skipBits 4
  exact (ReadsForward.readBits 4).bind fun _ => (ReadsForward.skipBits 2).bind fun _ =>
    (ReadsForward.skipBits 4).bind fun _ => (ReadsForward.readBits 4).bind fun _ =>
    (ReadsForward.readBits 4).bind fun _ => (ReadsForward.readBits 4).bind fun _ =>
    (ReadsForward.readBits 2).bind fun _ => (ReadsForward.readBits 3).bind fun _ =>
    (ReadsForward.readBits 4).bind fun _ => (pceMixdown_readsForward (.skipBits 4)).bind fun _ =>
    (pceMixdown_readsForward (.skipBits 4)).bind fun _ =>
    (pceMixdown_readsForward ((ReadsForward.skipBits 2).bind fun _ => .skipBits 1)).bind fun _ =>
    (ReadsForward.times pair _).bind fun _ => (ReadsForward.times pair _).bind fun _ =>
    (ReadsForward.times pair _).bind fun _ => (ReadsForward.times (.skipBits 4) _).bind fun _ =>
    (ReadsForward.times (.skipBits 4) _).bind fun _ => (ReadsForward.times pair _).bind fun _ =>
    byteAlign_readsForward.bind fun _ => (ReadsForward.readBits 8).bind fun _ =>
    (ReadsForward.times (.skipBits 8) _).bind fun _ => .pure _

theorem extBody_readsForward (cnt : Nat) : ∀ e : ExtType, ReadsForward (extBody cnt e)
  | .fillData => (ReadsForward.skipBits 4).bind fun _ => .times (.skipBits 8) _
  | .dynamicRange => .raise _
  | .sbrData => .raise _
  | .sbrDataCrc => .raise _
  | .other _ => .skipBits _

theorem extPayload_readsForward (cnt : Nat) : ReadsForward (extPayload cnt) :=
  (ReadsForward.readBits 4).bind fun _ => (extBody_readsForward cnt _).bind fun _ => .pure _

theorem filBody_readsForward : ReadsForward filBody :=
  ((ReadsForward.readBits 4).bind fun _ =>
    .ite ((ReadsForward.readBits 8).bind fun _ => .pure _) (.pure _)).bind fun _ =>
    (ReadsForward.whileBits (fun _ =>
      .ite ((extPayload_readsForward _).bind fun _ => .pure _) (.pure _)) _).bind fun _ => .pure _

/-! ## Loops that consume -/

/-- A walk that has read `n` bits has them no more. -/
theorem readBits_unread {n v : Nat} {s t : State} (h : readBits n s = .ok v t) :
    n ≤ s.unread ∧ t = s.advance n ∧ t.unread = s.unread - n := by
  by_cases hn : n ≤ s.unread
  · rw [readBits_enough hn] at h
    cases h
    exact ⟨hn, rfl, by simp⟩
  · rw [readBits_short (Nat.not_le.mp hn)] at h
    cases h

/-- A walk that only reads leaves no more unread bits than there were. -/
theorem ReadsForward.unread_le {α : Type} {m : Walk α} (hm : ReadsForward m) {s t : State} {a : α}
    (h : m s = .ok a t) : t.unread ≤ s.unread := by
  rcases hm s with ⟨b, n, _, h'⟩ | ⟨c, n, _, h'⟩
  · rw [h] at h'
    cases h'
    simp
  · rw [h] at h'
    cases h'

theorem escPrefixBit_consumes : Consumes escPrefixBit := fun a a' s t h => by
  obtain ⟨v, u, hr, hp⟩ := walk_bind_eq_ok.mp h
  have := readBits_unread hr
  have : u = t := by simp only [walk_pure, EStateM.Result.ok.injEq] at hp; exact hp.2
  subst this
  omega

theorem sectionIncrement_consumes (ws : WindowSequence) : Consumes (sectionIncrement ws) := fun a a' s t h => by
  obtain ⟨v, u, hr, hp⟩ := walk_bind_eq_ok.mp h
  have := readBits_unread hr
  have : u = t := by simp only [walk_pure, EStateM.Result.ok.injEq] at hp; exact hp.2
  subst this
  have : 0 < sectBits ws := by unfold sectBits; split <;> decide
  omega

theorem fillPass_consumes : Consumes fillPass := fun cnt a' s t h => by
  unfold fillPass at h
  split at h
  · obtain ⟨r, u, hr, hp⟩ := walk_bind_eq_ok.mp h
    cases hp
    obtain ⟨code, w, hw, hx⟩ := walk_bind_eq_ok.mp hr
    have h1 := readBits_unread hw
    have h2 := ReadsForward.unread_le ((extBody_readsForward cnt _).bind fun _ => .pure _) hx
    omega
  · cases h

end Sys2Proof.Machine
end

