-- ==== Sys2Proof/Laws/Frame.lean ====
section
/-! SUPPORT. Relations between the state a walk starts in and the state it ends in, whether it answers or raises: if each
register update of a walk is in a relation, the walk is. One lemma for each walk that writes. -/

namespace Sys2Proof.Machine

variable {α β : Type} {R : State → State → Prop}

/-- Wherever the walk ends, its start and end are related. -/
def Keeps (R : State → State → Prop) (m : Walk α) : Prop :=
  ∀ s, (∀ a t, m s = .ok a t → R s t) ∧ (∀ c t, m s = .error c t → R s t)

/-- A relation that a run of reads is in. -/
structure Steps (R : State → State → Prop) : Prop where
  trans   : ∀ s t u, R s t → R t u → R s u
  advance : ∀ s n, n ≤ s.unread → R s (s.advance n)

/-- A relation that context writes are in besides. -/
structure StepsCtx (R : State → State → Prop) : Prop extends Steps R where
  ctx : ∀ s c, R s (s.withCtx c)

/-- A relation that the dispatch loop's writes are in besides. -/
structure StepsLoop (R : State → State → Prop) : Prop extends StepsCtx R where
  mark  : ∀ s, R s s.markHere
  ended : ∀ s, R s (s.withDState .ended)

theorem Steps.refl (h : Steps R) (s : State) : R s s := h.advance s 0 (Nat.zero_le _)

theorem Keeps.readsForward (h : Steps R) {m : Walk α} (hm : ReadsForward m) : Keeps R m := fun s => by
  rcases hm s with ⟨a, n, hn, e⟩ | ⟨c, n, hn, e⟩
  · refine ⟨fun b t hb => ?_, fun d t hd => ?_⟩
    · rw [e] at hb; cases hb; exact h.advance s n hn
    · rw [e] at hd; cases hd
  · refine ⟨fun b t hb => ?_, fun d t hd => ?_⟩
    · rw [e] at hb; cases hb
    · rw [e] at hd; cases hd; exact h.advance s n hn

theorem Keeps.bind (h : Steps R) {m : Walk α} {f : α → Walk β} (hm : Keeps R m) (hf : ∀ a, Keeps R (f a)) :
    Keeps R (m >>= f) := fun s => by
  refine ⟨fun b u hb => ?_, fun c u hc => ?_⟩
  · obtain ⟨a, t, h1, h2⟩ := walk_bind_eq_ok.mp hb
    exact h.trans _ _ _ ((hm s).1 a t h1) ((hf a t).1 b u h2)
  · rcases walk_bind_eq_error.mp hc with h1 | ⟨a, t, h1, h2⟩
    · exact (hm s).2 c u h1
    · exact h.trans _ _ _ ((hm s).1 a t h1) ((hf a t).2 c u h2)

theorem Keeps.ite {p : Prop} [Decidable p] {m m' : Walk α} (h : Keeps R m) (h' : Keeps R m') :
    Keeps R (if p then m else m') := by
  split
  · exact h
  · exact h'

/-- A walk that is one total update of the state. -/
theorem Keeps.update {m : Walk Unit} {f : State → State} (hm : ∀ s, m s = .ok () (f s)) (hf : ∀ s, R s (f s)) :
    Keeps R m := fun s => by
  refine ⟨fun a t h => ?_, fun c t h => ?_⟩
  · rw [hm] at h; cases h; exact hf s
  · rw [hm] at h; cases h

theorem Keeps.updateCtx (h : StepsCtx R) (f : Ctx → Ctx) : Keeps R (updateCtx f) :=
  .update (fun _ => rfl) fun s => h.ctx s _

theorem Keeps.foldFrom (h : Steps R) {f : Nat → α → Walk α} (hf : ∀ i a, Keeps R (f i a)) (n : Nat) :
    ∀ i a, Keeps R (foldFrom f i n a) := by
  induction n with
  | zero => exact fun _ a => .readsForward h (.pure a)
  | succ n ih => exact fun i a => .bind h (hf i a) fun a' => ih (i + 1) a'

theorem Keeps.loopFuel (h : Steps R) {body : α → Walk (α ⊕ β)} (hb : ∀ a, Keeps R (body a)) (fuel : Nat) :
    ∀ a, Keeps R (loopFuel body fuel a) := by
  induction fuel with
  | zero => exact fun _ => .readsForward h (.raise .read)
  | succ n ih =>
    refine fun a => .bind h (hb a) fun r => ?_
    cases r with
    | inl a' => exact ih a'
    | inr b => exact .readsForward h (.pure b)

theorem Keeps.whileBits (h : Steps R) {body : α → Walk (α ⊕ β)} (hb : ∀ a, Keeps R (body a)) (a : α) :
    Keeps R (whileBits body a) := fun s => Keeps.loopFuel h hb (s.unread + 1) a s

theorem Keeps.whenTrue (h : Steps R) {m : Walk Unit} (hm : Keeps R m) (b : Bool) : Keeps R (whenTrue b m) :=
  .ite hm (.readsForward h (.pure ()))

theorem Keeps.clearAfter (h : StepsCtx R) {m : Walk α} (hm : Keeps R m) : Keeps R (clearAfter m) := fun s => by
  unfold Machine.clearAfter
  cases e : m s with
  | ok a t =>
    refine ⟨fun b u hb => ?_, fun c u hc => nomatch hc⟩
    cases hb
    exact h.trans _ _ _ ((hm s).1 a t e) (h.ctx _ _)
  | error c t =>
    refine ⟨fun b u hb => (nomatch hb), fun d u hd => ?_⟩
    cases hd
    exact h.trans _ _ _ ((hm s).2 c t e) (h.ctx _ _)

/-! ## The walks that write -/

theorem icsInfoShort_keeps (h : StepsCtx R) : Keeps R icsInfoShort :=
  .bind h.toSteps (.readsForward h.toSteps (.readBits 4)) fun _ => .bind h.toSteps (.updateCtx h _) fun _ =>
    .ite (.readsForward h.toSteps (.raise _)) (.bind h.toSteps (.readsForward h.toSteps (.readBits 7)) fun _ =>
      .updateCtx h _)

theorem predictorData_readsForward (maxSfb : Nat) : ReadsForward (predictorData maxSfb) :=
  (ReadsForward.readBits 1).bind fun _ => (ReadsForward.whenTrue (.skipBits _) _).bind fun _ => .times (.skipBits 1) _

theorem icsInfoLong_keeps (h : StepsCtx R) : Keeps R icsInfoLong :=
  .bind h.toSteps (.readsForward h.toSteps (.readBits 6)) fun _ => .bind h.toSteps (.updateCtx h _) fun _ =>
    .ite (.readsForward h.toSteps (.raise _)) (.bind h.toSteps (.updateCtx h _) fun _ =>
      .bind h.toSteps (.readsForward h.toSteps (.readBits 1)) fun _ => .bind h.toSteps (.updateCtx h _) fun _ =>
      .bind h.toSteps (.whenTrue h.toSteps (.readsForward h.toSteps (predictorData_readsForward _)) _) fun _ =>
      .updateCtx h _)

theorem icsInfoBody_keeps (h : StepsCtx R) : Keeps R icsInfoBody :=
  .bind h.toSteps (.updateCtx h _) fun _ => .bind h.toSteps (.readsForward h.toSteps (.readBits 1)) fun _ =>
    .bind h.toSteps (.updateCtx h _) fun _ => .bind h.toSteps (.readsForward h.toSteps (.readBits 2)) fun _ =>
    .bind h.toSteps (.updateCtx h _) fun _ => .bind h.toSteps (.readsForward h.toSteps (.readBits 1)) fun _ =>
    .bind h.toSteps (.updateCtx h _) fun _ =>
    .bind h.toSteps (.ite (icsInfoShort_keeps h) (icsInfoLong_keeps h)) fun _ =>
    .bind h.toSteps (.updateCtx h _) fun _ => .updateCtx h _

theorem sectionLength_readsForward (ws : WindowSequence) : ReadsForward (sectionLength ws) :=
  .whileBits (fun _ => (ReadsForward.readBits _).bind fun _ => .pure _) 0

theorem sectionPass_keeps (h : StepsCtx R) (g k : Nat) : Keeps R (sectionPass g k) :=
  .bind h.toSteps (.readsForward h.toSteps .getCtx) fun _ => .ite
    (.bind h.toSteps (.readsForward h.toSteps (.readBits 4)) fun _ =>
      .bind h.toSteps (.readsForward h.toSteps (sectionLength_readsForward _)) fun _ =>
      .ite (.readsForward h.toSteps (.raise _)) (.bind h.toSteps (.whenTrue h.toSteps (.updateCtx h _) _) fun _ =>
        .readsForward h.toSteps (.pure _)))
    (.readsForward h.toSteps (.pure _))

theorem sectionGroup_keeps (h : StepsCtx R) (g : Nat) : Keeps R (sectionGroup g) :=
  .bind h.toSteps (.updateCtx h _) fun _ =>
    .bind h.toSteps (.whileBits h.toSteps (sectionPass_keeps h g) 0) fun _ => .updateCtx h _

theorem sectionDataBody_keeps (h : StepsCtx R) : Keeps R sectionDataBody :=
  .bind h.toSteps (.readsForward h.toSteps (.requireValid _)) fun _ => .bind h.toSteps (.updateCtx h _) fun _ =>
    .bind h.toSteps (.readsForward h.toSteps .getCtx) fun _ =>
    .bind h.toSteps (.foldFrom h.toSteps (fun g _ => sectionGroup_keeps h g) _ _ _) fun _ => .updateCtx h _

theorem whenFlag_readsForward {m : Walk Nat} (hm : ReadsForward m) : ReadsForward (whenFlag m) :=
  (ReadsForward.readBits 1).bind fun _ => .whenTrue (hm.bind fun _ => .pure _) _

theorem icsBody_keeps (h : StepsCtx R) : Keeps R icsBody :=
  .bind h.toSteps (.updateCtx h _) fun _ => .bind h.toSteps (.readsForward h.toSteps .getPos) fun _ =>
    .bind h.toSteps (.readsForward h.toSteps (.readBits 8)) fun _ => .bind h.toSteps (.updateCtx h _) fun _ =>
    .bind h.toSteps (icsInfoBody_keeps h) fun _ => .bind h.toSteps (sectionDataBody_keeps h) fun _ =>
    .readsForward h.toSteps (scaleFactorDataBody_readsForward.bind fun _ =>
      (whenFlag_readsForward pulseDataBody_readsForward).bind fun _ =>
      (whenFlag_readsForward tnsDataBody_readsForward).bind fun _ =>
      (whenFlag_readsForward gainControlDataBody_readsForward).bind fun _ =>
      spectralDataBody_readsForward.bind fun _ => ReadsForward.getPos.bind fun _ => .pure _)

theorem sceBody_keeps (h : StepsCtx R) : Keeps R sceBody :=
  .bind h.toSteps (.readsForward h.toSteps (.readBits 4)) fun _ =>
    .bind h.toSteps (.clearAfter h (icsBody_keeps h)) fun _ => .readsForward h.toSteps (.pure _)

theorem setMark_keeps (h : StepsLoop R) : Keeps R setMark := .update (fun _ => rfl) h.mark

theorem takeRecord_keeps (h : StepsLoop R) : Keeps R takeRecord :=
  .bind h.toSteps (.readsForward h.toSteps .getState) fun _ => .bind h.toSteps (setMark_keeps h) fun _ =>
    .readsForward h.toSteps (.pure _)

theorem recordElement_keeps (h : StepsLoop R) (id : Nat) {body : Walk α} (hb : Keeps R body) :
    Keeps R (recordElement id body) :=
  .bind h.toSteps hb fun _ => .bind h.toSteps (takeRecord_keeps h) fun _ => .readsForward h.toSteps (.pure _)

theorem skipElement_keeps (h : StepsLoop R) (id : Nat) : Keeps R (skipElement id) :=
  .bind h.toSteps (setMark_keeps h) fun _ => .readsForward h.toSteps (.pure _)

theorem setDState_ended_keeps (h : StepsLoop R) : Keeps R (setDState .ended) := .update (fun _ => rfl) h.ended

theorem elementArm_keeps (h : StepsLoop R) : ∀ e : ElementId, Keeps R (elementArm e)
  | .sce => recordElement_keeps h 0 (sceBody_keeps h.toStepsCtx)
  | .cpe => skipElement_keeps h 1
  | .cce => skipElement_keeps h 2
  | .lfe => skipElement_keeps h 3
  | .dse => skipElement_keeps h 4
  | .pce => recordElement_keeps h 5 (.readsForward h.toSteps pceBody_readsForward)
  | .fil => recordElement_keeps h 6 (.readsForward h.toSteps filBody_readsForward)
  | .endId => .bind h.toSteps (takeRecord_keeps h) fun _ => .bind h.toSteps (setDState_ended_keeps h) fun _ =>
      .readsForward h.toSteps (.pure _)

theorem elementStepBody_keeps (h : StepsLoop R) : Keeps R elementStepBody :=
  .bind h.toSteps (.readsForward h.toSteps .getState) fun _ => .ite (.readsForward h.toSteps (.pure _)) (.ite
    (.bind h.toSteps (setDState_ended_keeps h) fun _ => .readsForward h.toSteps (.pure _))
    (.bind h.toSteps (.readsForward h.toSteps (.readBits 3)) fun _ => elementArm_keeps h _))

theorem runFrameBody_keeps (h : StepsLoop R) : Keeps R runFrameBody :=
  .whileBits h.toSteps (fun _ => .bind h.toSteps (elementStepBody_keeps h) fun _ => .readsForward h.toSteps (.pure _))
    []

/-- The relation "the same but for what a walk may write", a first use: the buffer, the length, ERR, HROM and the
channels stay. -/
def sameBlock (s t : State) : Prop :=
  t = { s with curPos := t.curPos, ctx := t.ctx, curMark := t.curMark, dstate := t.dstate }

theorem sameBlock_steps : StepsLoop sameBlock where
  trans s t u h1 h2 := by unfold sameBlock at *; rw [h2, h1]
  advance _ _ _ := rfl
  ctx _ _ := rfl
  mark _ := rfl
  ended _ := rfl

/-- No walk leaves more unread bits than there were. -/
theorem unread_le_steps : StepsLoop fun s t => t.unread ≤ s.unread where
  trans _ _ _ h1 h2 := Nat.le_trans h2 h1
  advance s n _ := by simp
  ctx _ _ := Nat.le_refl _
  mark _ := Nat.le_refl _
  ended _ := Nat.le_refl _

/-- A pass of RUN_FRAME's loop that goes on has consumed at least the 3 bits of an id (R237). -/
theorem framePass_consumes : Consumes framePass := fun l l' s t h => by
  obtain ⟨r, u, hr, hp⟩ := walk_bind_eq_ok.mp h
  have hut : u = t := by simp only [walk_pure, EStateM.Result.ok.injEq] at hp; exact hp.2
  subst hut
  have hgo : endsLoop r = false := by
    cases he : endsLoop r with
    | false => rfl
    | true => simp [he] at hp
  obtain ⟨s', s'', hs, hb⟩ := walk_bind_eq_ok.mp hr
  cases hs
  split at hb
  · cases hb; cases hgo
  · split at hb
    · obtain ⟨_, v, _, hv⟩ := walk_bind_eq_ok.mp hb
      cases hv; cases hgo
    · obtain ⟨id, v, hid, harm⟩ := walk_bind_eq_ok.mp hb
      have h1 := readBits_unread hid
      have h2 := (elementArm_keeps unread_le_steps _ v).1 r u harm
      omega

end Sys2Proof.Machine
end

