-- ==== Sys2Proof/Laws/Host.lean ====
section
/-! SUPPORT. The codes the host reports its failures with (R288, R300). -/

namespace Sys2Proof.Machine

@[simp] theorem HostFailure.code_block (c : Cause) (pos : Nat) :
    (HostFailure.block c pos).code = some (causeClass c, causeCode c) := rfl
@[simp] theorem HostFailure.code_refused (cls : BitVec 4) (cause : BitVec 8) (pos : BitVec 20) :
    (HostFailure.refused cls cause pos).code = some (cls, cause) := rfl
@[simp] theorem HostFailure.code_frameTruncated : HostFailure.frameTruncated.code = some (1, 2) := rfl
@[simp] theorem HostFailure.code_unexpected : HostFailure.unexpected.code = none := rfl

/-- The host's own error is told apart from every error of the block (R300: cause codes are unique within a class). -/
theorem frameTruncatedCode_ne_block (c : Cause) : frameTruncatedCode ≠ (causeClass c, causeCode c) := by
  cases c <;> decide

end Sys2Proof.Machine
end

