-- ==== Sys2Proof/Laws/Memory.lean ====
section
/-! SUPPORT. The laws of INBUF: a read after a write, and that every memory operation keeps the canonical form. -/

namespace Sys2Proof.Machine

theorem Memory.wfFrom_mono {lo lo' : Nat} (h : lo' ≤ lo) :
    ∀ m : Memory, Memory.wfFrom lo m = true → Memory.wfFrom lo' m = true
  | [], _ => rfl
  | (a, b) :: rest, hm => by
    simp only [Memory.wfFrom, Bool.and_eq_true, decide_eq_true_eq] at hm ⊢
    exact ⟨⟨by omega, hm.1.2⟩, hm.2⟩

/-- An address below every listed one reads as unlisted. -/
theorem Memory.read_of_lt {lo a : Nat} (ha : a < lo) :
    ∀ m : Memory, Memory.wfFrom lo m = true → Memory.read m a = unlistedByte
  | [], _ => rfl
  | (k, v) :: rest, hm => by
    simp only [Memory.wfFrom, Bool.and_eq_true, decide_eq_true_eq] at hm
    have hk : k ≠ a := by omega
    simp only [Memory.read, hk, if_false]
    exact Memory.read_of_lt (lo := k + 1) (by omega) rest hm.2

theorem Memory.wfFrom_write {lo a : Nat} (b : Byte) (ha : lo ≤ a) (m : Memory) (hm : Memory.wfFrom lo m = true) :
    Memory.wfFrom lo (Memory.write m a b) = true := by
  induction m generalizing lo with
  | nil =>
    unfold Memory.write
    split
    · rfl
    · rename_i hb; simp [Memory.wfFrom, ha, hb]
  | cons x rest ih =>
    obtain ⟨k, v⟩ := x
    simp only [Memory.wfFrom, Bool.and_eq_true, decide_eq_true_eq] at hm
    unfold Memory.write
    split
    · split
      · simp [Memory.wfFrom, hm.1.1, hm.1.2, hm.2]
      · rename_i hlt hb
        simp [Memory.wfFrom, ha, hb, hm.1.2, hm.2]; omega
    · split
      · split
        · exact Memory.wfFrom_mono (by omega) rest hm.2
        · rename_i hb
          subst_vars
          simp [Memory.wfFrom, ha, hb, hm.2]
      · simp only [Memory.wfFrom, Bool.and_eq_true, decide_eq_true_eq]
        exact ⟨hm.1, ih (by omega) hm.2⟩

/-- A write keeps the canonical form. -/
theorem Memory.wf_write (m : Memory) (a : Nat) (b : Byte) (hm : m.wf = true) : (m.write a b).wf = true :=
  Memory.wfFrom_write b (Nat.zero_le a) m hm

/-- Writing a byte sequence keeps the canonical form. -/
theorem Memory.wf_writeBytes (bytes : List Byte) :
    ∀ (m : Memory) (a : Nat), m.wf = true → (m.writeBytes a bytes).wf = true := by
  induction bytes with
  | nil => intro m a hm; exact hm
  | cons b rest ih => intro m a hm; exact ih _ _ (Memory.wf_write m a b hm)

/-- A read at the written address gives the byte written. -/
theorem Memory.read_write_self {lo : Nat} (m : Memory) (a : Nat) (b : Byte) (hm : Memory.wfFrom lo m = true) :
    (m.write a b).read a = b := by
  induction m generalizing lo with
  | nil =>
    unfold Memory.write
    split
    · simp_all [Memory.read]
    · simp [Memory.read]
  | cons x rest ih =>
    obtain ⟨k, v⟩ := x
    have h := hm
    simp only [Memory.wfFrom, Bool.and_eq_true, decide_eq_true_eq] at h
    unfold Memory.write
    split
    · rename_i hlt
      split
      · rename_i hb
        rw [Memory.read, if_neg (by omega), hb]
        exact Memory.read_of_lt (lo := k + 1) (by omega) rest h.2
      · simp [Memory.read]
    · split
      · split
        · rename_i hb
          subst_vars
          exact Memory.read_of_lt (lo := k + 1) (by omega) rest h.2
        · simp [Memory.read]
      · rw [Memory.read, if_neg (by omega)]
        exact ih h.2

/-- A read at any other address gives what it gave. -/
theorem Memory.read_write_of_ne {lo : Nat} (m : Memory) (a a' : Nat) (b : Byte) (hne : a' ≠ a)
    (hm : Memory.wfFrom lo m = true) : (m.write a b).read a' = m.read a' := by
  induction m generalizing lo with
  | nil =>
    unfold Memory.write
    split
    · rfl
    · simp [Memory.read, hne.symm]
  | cons x rest ih =>
    obtain ⟨k, v⟩ := x
    have h := hm
    simp only [Memory.wfFrom, Bool.and_eq_true, decide_eq_true_eq] at h
    unfold Memory.write
    split
    · split
      · rfl
      · rw [Memory.read, if_neg hne.symm]
    · split
      · split
        · rw [Memory.read, if_neg (by omega)]
        · rw [Memory.read, if_neg hne.symm, Memory.read, if_neg (by omega)]
      · by_cases hk : k = a'
        · simp [Memory.read, hk]
        · simp only [Memory.read, hk, if_false]
          exact ih h.2

/-- A written sequence reads back. -/
theorem Memory.read_writeBytes_mem (bytes : List Byte) :
    ∀ (m : Memory) (a i : Nat), m.wf = true → i < bytes.length →
      (m.writeBytes a bytes).read (a + i) = bytes.getD i 0 ∧
      ∀ a', a' < a → (m.writeBytes a bytes).read a' = m.read a' := by
  induction bytes with
  | nil => intro m a i _ hi; exact absurd hi (Nat.not_lt_zero i)
  | cons b rest ih =>
    intro m a i hm hi
    have hw := Memory.wf_write m a b hm
    have hbelow : ∀ a', a' < a + 1 →
        ((m.write a b).writeBytes (a + 1) rest).read a' = (m.write a b).read a' := by
      intro a' ha'
      cases rest with
      | nil => rfl
      | cons c cs => exact (ih _ (a + 1) 0 hw (by simp)).2 a' ha'
    refine ⟨?_, fun a' ha' => ?_⟩
    · cases i with
      | zero =>
        simp only [Nat.add_zero, Memory.writeBytes, List.getD_cons_zero]
        rw [hbelow a (by omega)]
        exact Memory.read_write_self m a b hm
      | succ j =>
        have := (ih (m.write a b) (a + 1) j hw (by simpa using hi)).1
        simpa [Memory.writeBytes, Nat.add_assoc, Nat.add_comm 1 j] using this
    · rw [Memory.writeBytes, hbelow a' (by omega)]
      exact Memory.read_write_of_ne m a a' b (by omega) hm

/-- Addresses above a written sequence read as before. -/
theorem Memory.read_writeBytes_above (bytes : List Byte) :
    ∀ (m : Memory) (a a' : Nat), m.wf = true → a + bytes.length ≤ a' →
      (m.writeBytes a bytes).read a' = m.read a' := by
  induction bytes with
  | nil => intro m a a' _ _; rfl
  | cons b rest ih =>
    intro m a a' hm h
    simp only [List.length_cons] at h
    rw [Memory.writeBytes, ih _ (a + 1) a' (Memory.wf_write m a b hm) (by omega)]
    exact Memory.read_write_of_ne m a a' b (by omega) hm

/-- A written sequence lists no address outside the old ones and its own. -/
theorem Memory.mem_write {m : Memory} {a : Nat} {b : Byte} {x : Host.Cell} (h : x ∈ m.write a b) :
    x ∈ m ∨ x = (a, b) := by
  induction m with
  | nil =>
    unfold Memory.write at h
    split at h <;> simp_all
  | cons y rest ih =>
    obtain ⟨k, v⟩ := y
    unfold Memory.write at h
    split at h
    · split at h <;> simp_all
      tauto
    · split at h
      · split at h <;> simp_all
        tauto
      · rcases List.mem_cons.mp h with h | h
        · exact .inl (by simp [h])
        · rcases ih h with h | h
          · exact .inl (by simp [h])
          · exact .inr h

theorem Memory.mem_writeBytes_lt (bytes : List Byte) :
    ∀ (m : Memory) (a bound : Nat), (∀ x ∈ m, x.1 < bound) → a + bytes.length ≤ bound →
      ∀ x ∈ m.writeBytes a bytes, x.1 < bound := by
  induction bytes with
  | nil => intro m a bound hm _; exact hm
  | cons b rest ih =>
    intro m a bound hm h
    simp only [List.length_cons] at h
    refine ih _ (a + 1) bound (fun x hx => ?_) (by omega)
    rcases Memory.mem_write hx with hx | rfl
    · exact hm x hx
    · simp only; omega

/-- The reset buffer is canonical. -/
theorem reset_inbuf_wf : State.reset.inbuf.wf = true := rfl

end Sys2Proof.Machine
end

