-- ==== Sys2Proof/Laws/PerInstr.lean ====
section
/-! SUPPORT. A law of every instruction as syntax: a command's encoding bears an opcode that the opcode map lists (R71,
R75), and a stream code's encoding is no command word. -/

namespace Sys2Proof.Laws.OpcodeListed

open Sys2Proof.Grammar

/-- The encoding bears no reserved opcode. -/
def Statement (i : Instr) : Prop := ∀ w : Word, encode i = .command w → ¬ reservedOpcode (wordOpc w)

/-- The encoding of a command bears its opcode. -/
theorem of_command {i : Instr} {opc a b : Nat} (h : encode i = .command (commandWord opc a b))
    (hr : ¬ reservedOpcode (opc % 2 ^ 8)) : Statement i := by
  intro w hw
  rw [h, Code.command.injEq] at hw
  rw [← hw, wordOpc_commandWord]
  exact hr

theorem load : Statement .load := of_command rfl (by unfold reservedOpcode; decide)
theorem readbits (n : Nat) : Statement (.readbits n) := of_command rfl (by unfold reservedOpcode; decide)
theorem readbool : Statement .readbool := of_command rfl (by unfold reservedOpcode; decide)
theorem bytealign : Statement .bytealign := of_command rfl (by unfold reservedOpcode; decide)
theorem isempty : Statement .isempty := of_command rfl (by unfold reservedOpcode; decide)
theorem consumeArray : Statement .consumeArray := of_command rfl (by unfold reservedOpcode; decide)
theorem consumeClear : Statement .consumeClear := of_command rfl (by unfold reservedOpcode; decide)
theorem huffDecode (t : Nat) : Statement (.huffDecode t) := of_command rfl (by unfold reservedOpcode; decide)
theorem cbValue (cb : Nat) (idx : Nat) : Statement (.cbValue cb idx) := of_command rfl (by unfold reservedOpcode; decide)
theorem specUnit (cb : Nat) : Statement (.specUnit cb) := of_command rfl (by unfold reservedOpcode; decide)
theorem escSeq : Statement .escSeq := of_command rfl (by unfold reservedOpcode; decide)
theorem icsInfo : Statement .icsInfo := of_command rfl (by unfold reservedOpcode; decide)
theorem sectionData : Statement .sectionData := of_command rfl (by unfold reservedOpcode; decide)
theorem scaleFactorData : Statement .scaleFactorData := of_command rfl (by unfold reservedOpcode; decide)
theorem pulseData : Statement .pulseData := of_command rfl (by unfold reservedOpcode; decide)
theorem tnsData : Statement .tnsData := of_command rfl (by unfold reservedOpcode; decide)
theorem gainControlData : Statement .gainControlData := of_command rfl (by unfold reservedOpcode; decide)
theorem spectralData : Statement .spectralData := of_command rfl (by unfold reservedOpcode; decide)
theorem ics (cw : Bool) : Statement (.ics cw) := of_command rfl (by unfold reservedOpcode; decide)
theorem sce : Statement .sce := of_command rfl (by unfold reservedOpcode; decide)
theorem pce : Statement .pce := of_command rfl (by unfold reservedOpcode; decide)
theorem fil : Statement .fil := of_command rfl (by unfold reservedOpcode; decide)
theorem extPayload (cnt : Nat) : Statement (.extPayload cnt) := of_command rfl (by unfold reservedOpcode; decide)
theorem elementStep : Statement .elementStep := of_command rfl (by unfold reservedOpcode; decide)
theorem runFrame : Statement .runFrame := of_command rfl (by unfold reservedOpcode; decide)
theorem adtsParse : Statement .adtsParse := of_command rfl (by unfold reservedOpcode; decide)
theorem adtsGenerate : Statement .adtsGenerate := of_command rfl (by unfold reservedOpcode; decide)
theorem idSce : Statement .idSce := fun _ h => by cases h
theorem idCpe : Statement .idCpe := fun _ h => by cases h
theorem idCce : Statement .idCce := fun _ h => by cases h
theorem idLfe : Statement .idLfe := fun _ h => by cases h
theorem idDse : Statement .idDse := fun _ h => by cases h
theorem idPce : Statement .idPce := fun _ h => by cases h
theorem idFil : Statement .idFil := fun _ h => by cases h
theorem idEnd : Statement .idEnd := fun _ h => by cases h
theorem extFillData (cnt : Nat) : Statement (.extFillData cnt) := fun _ h => by cases h
theorem extDynamicRange : Statement .extDynamicRange := fun _ h => by cases h
theorem extSbrData : Statement .extSbrData := fun _ h => by cases h
theorem extSbrDataCrc : Statement .extSbrDataCrc := fun _ h => by cases h
theorem extOther (code : Nat) (cnt : Nat) : Statement (.extOther code cnt) := fun _ h => by cases h

end Sys2Proof.Laws.OpcodeListed
end

