-- ==== Sys2Proof/Tests/Slice0.lean ====
section
/-! SUPPORT. Tests: the refusals of WellFormed, the decoding of words written out from spec/30_encoding.md, one step of
each instruction against spec/95_test_vectors.md (its vector named in each comment), and a witness for the hypotheses of
each statement. -/

namespace Sys2Proof.Tests

open Sys2Proof.Machine Sys2Proof.Grammar

-- One test after another: each is evaluated by the kernel, and a thread for each would take more memory than there is.
set_option Elab.async false

/-! ## Well-formedness: an ill-formed term for each check -/

theorem test_illFormed_readbits_33 : Instr.wf (.readbits 33) = false := by decide
theorem test_illFormed_huffDecode_12 : Instr.wf (.huffDecode 12) = false := by decide
theorem test_illFormed_cbValue_cb_0 : Instr.wf (.cbValue 0 0) = false := by decide
theorem test_illFormed_cbValue_cb_12 : Instr.wf (.cbValue 12 0) = false := by decide
theorem test_illFormed_cbValue_idx_81 : Instr.wf (.cbValue 1 81) = false := by decide
theorem test_illFormed_cbValue_idx_289 : Instr.wf (.cbValue 11 289) = false := by decide
theorem test_illFormed_specUnit_0 : Instr.wf (.specUnit 0) = false := by decide
theorem test_illFormed_specUnit_12 : Instr.wf (.specUnit 12) = false := by decide
theorem test_illFormed_extPayload_0 : Instr.wf (.extPayload 0) = false := by decide
theorem test_illFormed_extPayload_270 : Instr.wf (.extPayload 270) = false := by decide
theorem test_illFormed_extFillData_0 : Instr.wf (.extFillData 0) = false := by decide
theorem test_illFormed_extFillData_270 : Instr.wf (.extFillData 270) = false := by decide
theorem test_illFormed_extOther_named_code : Instr.wf (.extOther 11 1) = false := by decide
theorem test_illFormed_extOther_wide_code : Instr.wf (.extOther 16 1) = false := by decide
theorem test_illFormed_extOther_count_0 : Instr.wf (.extOther 0 0) = false := by decide

theorem test_illFormed_table_prefix : wfTable 0 [⟨0, 0b0, 1⟩, ⟨1, 0b01, 2⟩] = false := by decide
theorem test_illFormed_table_symbol_twice : wfTable 0 [⟨0, 0b0, 1⟩, ⟨0, 0b10, 2⟩] = false := by decide
theorem test_illFormed_table_wide_code : wfTable 0 [⟨0, 0b10, 1⟩] = false := by decide
theorem test_illFormed_table_large_symbol : wfTable 1 [⟨81, 0b0, 1⟩] = false := by decide
theorem test_illFormed_configuration_of_eleven : wfTables (List.replicate 11 []) = false := by decide
theorem test_prefix_refused : build [⟨0, 0b0, 1⟩, ⟨1, 0b01, 2⟩] = none := by decide
theorem test_empty_codeword_refused_beside_another : build [⟨0, 0, 0⟩, ⟨1, 0b1, 1⟩] = none := by decide

/-! ## Decoding: words as spec/30_encoding.md and the vectors write them -/

theorem test_decode_load : decode 0x01000000#32 = .ok .load := by decide
theorem test_decode_readbits : decode 0x02000010#32 = .ok (.readbits 16) := by decide
theorem test_decode_readbool : decode 0x03000000#32 = .ok .readbool := by decide
theorem test_decode_bytealign : decode 0x04000000#32 = .ok .bytealign := by decide
theorem test_decode_isempty : decode 0x05000000#32 = .ok .isempty := by decide
theorem test_decode_consumeArray : decode 0x06000000#32 = .ok .consumeArray := by decide
theorem test_decode_consumeClear : decode 0x07000000#32 = .ok .consumeClear := by decide
theorem test_decode_huffDecode : decode 0x100B0000#32 = .ok (.huffDecode 11) := by decide
theorem test_decode_cbValue : decode 0x110B0113#32 = .ok (.cbValue 11 275) := by decide
theorem test_decode_specUnit : decode 0x120B0000#32 = .ok (.specUnit 11) := by decide
theorem test_decode_escSeq : decode 0x13000000#32 = .ok .escSeq := by decide
theorem test_decode_icsInfo : decode 0x20000000#32 = .ok .icsInfo := by decide
theorem test_decode_sectionData : decode 0x21000000#32 = .ok .sectionData := by decide
theorem test_decode_scaleFactorData : decode 0x22000000#32 = .ok .scaleFactorData := by decide
theorem test_decode_pulseData : decode 0x23000000#32 = .ok .pulseData := by decide
theorem test_decode_tnsData : decode 0x24000000#32 = .ok .tnsData := by decide
theorem test_decode_gainControlData : decode 0x25000000#32 = .ok .gainControlData := by decide
theorem test_decode_spectralData : decode 0x26000000#32 = .ok .spectralData := by decide
theorem test_decode_ics_0 : decode 0x27000000#32 = .ok (.ics false) := by decide
theorem test_decode_ics_1 : decode 0x27010000#32 = .ok (.ics true) := by decide
theorem test_decode_sce : decode 0x30000000#32 = .ok .sce := by decide
theorem test_decode_pce : decode 0x31000000#32 = .ok .pce := by decide
theorem test_decode_fil : decode 0x32000000#32 = .ok .fil := by decide
theorem test_decode_extPayload : decode 0x33000001#32 = .ok (.extPayload 1) := by decide
theorem test_decode_elementStep : decode 0x34000000#32 = .ok .elementStep := by decide
theorem test_decode_runFrame : decode 0x35000000#32 = .ok .runFrame := by decide
theorem test_decode_adtsParse : decode 0x40000000#32 = .ok .adtsParse := by decide
theorem test_decode_adtsGenerate : decode 0x41000000#32 = .ok .adtsGenerate := by decide
theorem test_decode_idSce : decodeCode 0 (.elementId 0b000#3) = .ok .idSce := by decide
theorem test_decode_idCpe : decodeCode 0 (.elementId 0b001#3) = .ok .idCpe := by decide
theorem test_decode_idCce : decodeCode 0 (.elementId 0b010#3) = .ok .idCce := by decide
theorem test_decode_idLfe : decodeCode 0 (.elementId 0b011#3) = .ok .idLfe := by decide
theorem test_decode_idDse : decodeCode 0 (.elementId 0b100#3) = .ok .idDse := by decide
theorem test_decode_idPce : decodeCode 0 (.elementId 0b101#3) = .ok .idPce := by decide
theorem test_decode_idFil : decodeCode 0 (.elementId 0b110#3) = .ok .idFil := by decide
theorem test_decode_idEnd : decodeCode 0 (.elementId 0b111#3) = .ok .idEnd := by decide
theorem test_decode_extFillData : decodeCode 3 (.extType 0b0001#4) = .ok (.extFillData 3) := by decide
theorem test_decode_extDynamicRange : decodeCode 3 (.extType 0b1011#4) = .ok (.extDynamicRange) := by decide
theorem test_decode_extSbrData : decodeCode 3 (.extType 0b1101#4) = .ok (.extSbrData) := by decide
theorem test_decode_extSbrDataCrc : decodeCode 3 (.extType 0b1110#4) = .ok (.extSbrDataCrc) := by decide
theorem test_decode_extOther_0000 : decodeCode 3 (.extType 0b0000#4) = .ok (.extOther 0 3) := by decide
theorem test_decode_extOther_1111 : decodeCode 3 (.extType 0b1111#4) = .ok (.extOther 15 3) := by decide

/-- Each reserved range at both ends (R71, R75). -/
theorem test_decode_reserved : [0x00#8, 0x08#8, 0x0F#8, 0x14#8, 0x1F#8, 0x28#8, 0x2F#8, 0x36#8, 0x3F#8, 0x42#8, 0xFF#8].all
    (fun o => decide (decode (o ++ 0#24) = .error .illegalOpcode)) = true := by decide +kernel

/-- Vectors B5, B10, H8, U10, D12 and the refusals of CB_VALUE: a field that must be zero, an immediate out of range. -/
theorem test_decode_badArgument : [0x02000021#32, 0x03000001#32, 0x100C0000#32, 0x120C0000#32, 0x33000000#32,
    0x11010051#32, 0x11000000#32, 0x110C0000#32, 0x3300010E#32, 0x27020000#32, 0x02010000#32].all
    (fun w => decide (decode w = .error .badArgument)) = true := by decide +kernel

/-! ## One step of each instruction

`HCB_TEST` is the test configuration of spec/95_test_vectors.md, section 0. -/

def signedTest : HcbTable := [⟨40, 0b0, 1⟩, ⟨0, 0b10, 2⟩, ⟨80, 0b11, 2⟩]

def unsignedTest (top : Nat) : HcbTable := [⟨0, 0b0, 1⟩, ⟨1, 0b10, 2⟩, ⟨top, 0b11, 2⟩]

def hcbTest : List HcbTable :=
  [[⟨60, 0b0, 1⟩, ⟨59, 0b10, 2⟩, ⟨61, 0b11, 2⟩], signedTest, signedTest, unsignedTest 80, unsignedTest 80, signedTest,
    signedTest, unsignedTest 63, unsignedTest 63, unsignedTest 168, unsignedTest 168,
    [⟨0, 0b00, 2⟩, ⟨16, 0b01, 2⟩, ⟨275, 0b10, 2⟩, ⟨288, 0b11, 2⟩]]

theorem test_hcbTest_wf : wfTables hcbTest = true := by decide +kernel

/-- The block after reset, under tables `hcb`. -/
def blockOf (hcb : List HcbTable) : State := { State.reset with hrom := buildHrom hcb }

/-- The data-in of a command. -/
def bytesIn (bytes : List Nat) : DataIn := ⟨bytes.map (BitVec.ofNat 8), emptyHeader⟩

/-- The block after LOAD of `bytes`, under `HCB_TEST`. -/
def loaded (bytes : List Nat) : State := loadState (blockOf hcbTest) (bytesIn bytes).bytes

/-- The context I1 leaves: ONLY_LONG, max_sfb 3. -/
def longCtx (ws : WindowSequence) : Ctx :=
  { resetCtx with
    windowSequence := ws, maxSfb := 3, numWindows := 1, numWindowGroups := 1, windowGroupLength := [1]
    sectSfbOffset := [[0, 4, 8, 12]], vInfo := true }

/-- A context of EIGHT_SHORT with max_sfb 1 and one group of 8 windows (the prefix S1). -/
def shortCtx : Ctx :=
  { resetCtx with
    windowSequence := .eightShort, maxSfb := 1, scaleFactorGrouping := 127, numWindows := 8, numWindowGroups := 1
    windowGroupLength := [8], sectSfbOffset := [[0, 32]], vInfo := true }

/-- The context I6 leaves, with five groups. -/
def groupsCtx : Ctx :=
  { resetCtx with
    windowSequence := .eightShort, maxSfb := 3, scaleFactorGrouping := 52, numWindows := 8, numWindowGroups := 5
    windowGroupLength := [1, 3, 2, 1, 1]
    sectSfbOffset := [[0, 4, 8, 12], [0, 12, 24, 36], [0, 8, 16, 24], [0, 4, 8, 12], [0, 4, 8, 12]], vInfo := true }

/-- A context with its sections. -/
def withSections (c : Ctx) (sections : List Section) (cbs : List Nat) : Ctx :=
  { c with numSec := [sections.length], sect := [sections], sfbCb := [cbs], vSect := true }

/-- The instruction answers a next state with this response last and the cursor there. -/
def answers (i : Instr) (s : State) (r : Response) (pos : Nat) : Bool :=
  match exec i s with
  | .next t => decide (t.responses.getLast? = some r) && decide (t.curPos = pos)
  | .fault _ => false
  | .refused _ => false

/-- The next state, for a look at one of its fields. -/
def after (i : Instr) (s : State) : State :=
  match exec i s with
  | .next t => t
  | .fault _ => s
  | .refused _ => s

/-- B1. -/
theorem test_load_bytes : answers .load ({ loaded [0x3C] with dataIn := bytesIn [0xA5, 0x0F] }) (.ok .unit) 0 = true := by decide +kernel

/-- P4 step 7. -/
theorem test_load_ends_the_error : (after .load { (loaded [0xC3, 0x60]).withErr 0x0000B022 with dataIn := bytesIn [0x3C] }).err = 0 := by decide +kernel

/-- B3. -/
theorem test_readbits_16 : answers (.readbits 16) (loaded [0xA5, 0x0F]) (.ok (.nat 0xA50F)) 16 = true := by decide +kernel

/-- B4. -/
theorem test_readbits_17 : answers (.readbits 17) (loaded [0xA5, 0x0F]) (.error .read 0) 0 = true := by decide +kernel

/-- P1 step 3. -/
theorem test_readbool : answers .readbool ((loaded [0xA5, 0x0F]).advance 3) (.ok (.bool false)) 4 = true := by decide +kernel

/-- B7. -/
theorem test_bytealign_at_3 : answers .bytealign ((loaded [0xA5, 0x0F]).advance 3) (.ok (.aligned 5 5)) 8 = true := by decide +kernel

/-- B6. -/
theorem test_bytealign_at_0 : answers .bytealign (loaded [0xA5, 0x0F]) (.ok (.aligned 0 0)) 0 = true := by decide +kernel

/-- B8. -/
theorem test_isempty_empty : answers .isempty (loaded []) (.ok (.bool true)) 0 = true := by decide +kernel

/-- P1 step 5. -/
theorem test_isempty_left : answers .isempty ((loaded [0xA5, 0x0F]).advance 8) (.ok (.bool false)) 8 = true := by decide +kernel

/-- P1 step 6. -/
theorem test_consumeArray : answers .consumeArray ((loaded [0xA5, 0x0F]).advance 8) (.ok (.record ⟨8, [0xA5]⟩)) 8 = true := by decide +kernel

/-- P1 step 7. -/
theorem test_consumeClear : (after .consumeClear ((loaded [0xA5, 0x0F]).advance 8)).curMark = 8 := by decide +kernel

/-- H5. -/
theorem test_huffDecode_no_child : answers (.huffDecode 0) ({ loaded [0x80] with hrom := buildHrom [[⟨0, 0, 1⟩]] }) (.error .huffNoChild 1) 1 = true := by decide +kernel

/-- H4. -/
theorem test_huffDecode_ends_in_trie : answers (.huffDecode 0) ((loaded [0x01]).advance 7) (.error .read 8) 8 = true := by decide +kernel

/-- CB_VALUE 1, 13. -/
theorem test_cbValue_signed : answers (.cbValue 1 13) ((loaded []).withErr 0x0000B022) (.ok (.tuple [-1, 0, 0, 0])) 0 = true := by decide +kernel

/-- CB_VALUE 11, 275. -/
theorem test_cbValue_escape : answers (.cbValue 11 275) (loaded []) (.ok (.tuple [16, 3])) 0 = true := by decide +kernel

/-- U9. -/
theorem test_specUnit_two_escapes : answers (.specUnit 11) (loaded [0xD0, 0x41]) (.ok (.unitOf 288 [16, 16] 16)) 16 = true := by decide +kernel

/-- U3. -/
theorem test_specUnit_one_sign : answers (.specUnit 3) (loaded [0xA0]) (.ok (.unitOf 1 [0, 0, 0, 1] 3)) 3 = true := by decide +kernel

/-- E2. -/
theorem test_escSeq : answers .escSeq (loaded [0x80, 0x00]) (.ok (.escape 1 0)) 7 = true := by decide +kernel

/-- E5. -/
theorem test_escSeq_short_word : answers .escSeq ((loaded [0x05]).advance 4) (.error .read 5) 5 = true := by decide +kernel

/-- I6. -/
theorem test_icsInfo_short : answers .icsInfo (loaded [0x43, 0x68]) (.ok (.icsInfo .eightShort 3 5 [1, 3, 2, 1, 1])) 15 = true := by decide +kernel

/-- I3: only min(45, 40) prediction flags. -/
theorem test_icsInfo_predictor : answers .icsInfo (loaded [0x0B, 0x60, 0x00, 0x00, 0x00, 0x00, 0x00]) (.ok (.icsInfo .onlyLong 45 1 [1])) 52 = true := by decide +kernel

/-- S-J. -/
theorem test_sectionData_groups : answers .sectionData (((loaded [0x43, 0x68, 0x2C, 0x88, 0x23, 0x60, 0xDD, 0x80]).advance 15).withCtx groupsCtx) (.ok (.sections
    [[⟨1, 0, 3⟩], [⟨2, 0, 1⟩, ⟨0, 1, 3⟩], [⟨3, 0, 3⟩], [⟨0, 0, 3⟩], [⟨7, 0, 3⟩]])) 57 = true := by decide +kernel

/-- S-I. -/
theorem test_sectionData_overrun : answers .sectionData (((loaded [0x41, 0xFE, 0x7C, 0x00]).advance 15).withCtx shortCtx) (.error .sectionOverrun 25) 25 = true := by decide +kernel

/-- F2. -/
theorem test_scaleFactorData : answers .scaleFactorData (((loaded [0x00, 0xC2, 0x36]).advance 20).withCtx
    (withSections (longCtx .onlyLong) [⟨1, 0, 3⟩] [1, 1, 1])) (.ok (.nat 3)) 24 = true := by decide +kernel

/-- F1. -/
theorem test_scaleFactorData_zero_codebook : answers .scaleFactorData (((loaded [0x00, 0xC0, 0x1B, 0x12]).advance 29).withCtx
    (withSections (longCtx .onlyLong) [⟨0, 0, 1⟩, ⟨11, 1, 3⟩] [0, 11, 11])) (.ok (.nat 2)) 32 = true := by decide +kernel

/-- P-1. -/
theorem test_pulseData : answers .pulseData (loaded [0x45, 0x19, 0x84, 0x40]) (.ok (.nat 26)) 26 = true := by decide +kernel

/-- T-3. -/
theorem test_tnsData_long : answers .tnsData ((loaded [0x82, 0x04, 0xA1, 0x07, 0x40]).withCtx (longCtx .onlyLong)) (.ok (.nat 34)) 34 = true := by decide +kernel

/-- T-5. -/
theorem test_tnsData_short : answers .tnsData ((loaded [0x90, 0x94, 0x00]).withCtx shortCtx) (.ok (.nat 21)) 21 = true := by decide +kernel

/-- G-2. -/
theorem test_gainControlData_longStart : answers .gainControlData ((loaded [0x48, 0x81, 0x20]).withCtx (longCtx .longStart)) (.ok (.nat 22)) 22 = true := by decide +kernel

/-- G-5. -/
theorem test_gainControlData_longStop : answers .gainControlData ((loaded [0x88, 0x81, 0x20, 0x13, 0x02, 0x80]).withCtx
    (longCtx .longStop)) (.ok (.nat 48)) 48 = true := by decide +kernel

/-- X2. -/
theorem test_spectralData : answers .spectralData (((loaded [0x00, 0xC0, 0x1B, 0x12, 0x18, 0x00]).advance 32).withCtx
    (withSections (longCtx .onlyLong) [⟨0, 0, 1⟩, ⟨11, 1, 3⟩] [0, 11, 11])) (.ok (.spectral 4 14)) 46 = true := by decide +kernel

/-- X4. -/
theorem test_spectralData_short : answers .spectralData (((loaded [0x41, 0xFE, 0xE4, 0x00, 0x00]).advance 23).withCtx
    (withSections shortCtx [⟨7, 0, 1⟩] [7])) (.ok (.spectral 16 16)) 39 = true := by decide +kernel

/-- X5. -/
theorem test_ics : answers (.ics false) (loaded [0x80, 0x00, 0xC2, 0x36, 0x06]) (.ok (.ics 128 39)) 39 = true := by decide +kernel

/-- X6. -/
theorem test_ics_commonWindow : answers (.ics true) (loaded [0x00]) (.error .commonWindow 0) 0 = true := by decide +kernel

/-- P2's SCE after its id. -/
theorem test_sce : answers .sce ((loaded [0x01, 0x00, 0x00, 0x07]).advance 3) (.ok (.nat 0)) 29 = true := by decide +kernel

/-- R30 on the SCE of P2. -/
theorem test_sce_clears_context : (after .sce ((loaded [0x01, 0x00, 0x00, 0x07]).advance 3)).ctx.vSect = false := by decide +kernel

/-- D16. -/
theorem test_pce : answers .pce ((loaded [0xA0, 0x98, 0x00, 0x00, 0x00, 0x00]).advance 3) (.ok (.pce 0 0)) 48 = true := by decide +kernel

/-- D9. -/
theorem test_fil_escaped : answers .fil ((loaded ([0xDE, 0x02, 0x20] ++ List.replicate 14 0)).advance 3) (.ok (.nat 15)) 135 = true := by decide +kernel

/-- D8. -/
theorem test_fil_plain : answers .fil ((loaded [0xC2, 0x20]).advance 3) (.ok (.nat 1)) 15 = true := by decide +kernel

/-- D11. -/
theorem test_extPayload : answers (.extPayload 1) (loaded [0x10, 0x00]) (.ok (.ext 1 1)) 8 = true := by decide +kernel

/-- D17. -/
theorem test_elementStep_record_before : answers .elementStep ((loaded [0x3C]).advance 2) (.ok (.step (.endElement ⟨5, [0x38]⟩))) 5 = true := by decide +kernel

/-- D13. -/
theorem test_elementStep_unsupported : answers .elementStep (loaded [0xC3, 0x60]) (.error .extDynamicRange 11) 11 = true := by decide +kernel

/-- P2. -/
theorem test_runFrame_to_end : answers .runFrame (loaded [0x01, 0x00, 0x00, 0x07]) (.ok (.frame [.element 0 ⟨29, [0x01, 0x00, 0x00, 0x00]⟩,
    .endElement ⟨3, [0xE0]⟩] .endId)) 32 = true := by decide +kernel

/-- D6. -/
theorem test_runFrame_exhausted : answers .runFrame (loaded [0x24, 0xE0]) (.ok (.frame [.skipped 1, .skipped 1, .skipped 1,
    .element 6 ⟨7, [0xC0]⟩] .exhausted)) 16 = true := by decide +kernel

/-- A1. -/
theorem test_adtsParse : answers .adtsParse ({ loaded [] with dataIn := bytesIn [0xFF, 0xF9, 0x4C, 0x00, 0x01, 0x7F, 0xFC] }) (.ok (.header ⟨0xFFF, 1, 0, 1, 1, 3, 0, 0, 0, 0, 0, 0, 11, 0x7FF, 0⟩ 7)) 0 = true := by decide +kernel

/-- A5. -/
theorem test_adtsParse_skips : answers .adtsParse ({ loaded [] with dataIn := bytesIn [0xFF, 0xF8, 0x4C, 0x00, 0x01, 0x7F, 0xFD] }) (.ok (.header ⟨0xFFF, 1, 0, 0, 1, 3, 0, 0, 0, 0, 0, 0, 11, 0x7FF, 1⟩ 11)) 0 = true := by decide +kernel

/-- A2. -/
theorem test_adtsGenerate : answers .adtsGenerate ({ loaded [] with
    dataIn := ⟨[], ⟨0xFFF, 1, 0, 1, 1, 3, 0, 0, 0, 0, 0, 0, 256, 0x7FF, 0⟩⟩ }) (.ok (.bytes [0xFF, 0xF9, 0x4C, 0x00, 0x20, 0x1F, 0xFC])) 0 = true := by decide +kernel

/-- A7. -/
theorem test_adtsGenerate_range : answers .adtsGenerate ({ loaded [] with
    dataIn := ⟨[], ⟨0xFFF, 1, 0, 1, 1, 3, 0, 0, 0, 0, 0, 0, 8192, 0x7FF, 0⟩⟩ }) (.error .fieldRange 0) 0 = true := by decide +kernel

/-- P2's SCE once its id is read. -/
theorem test_idSce : answers .idSce ((loaded [0x01, 0x00, 0x00, 0x07]).advance 3) (.ok (.step (.element 0 ⟨29, [0x01, 0x00, 0x00, 0x00]⟩))) 29 = true := by decide +kernel

/-- R236 on the id 1. -/
theorem test_idCpe : answers .idCpe ((loaded [0x3C]).advance 3) (.ok (.step (.skipped 1))) 3 = true := by decide +kernel

/-- R236 on the id 2. -/
theorem test_idCce : answers .idCce ((loaded [0x3C]).advance 3) (.ok (.step (.skipped 2))) 3 = true := by decide +kernel

/-- R236 on the id 3. -/
theorem test_idLfe : answers .idLfe ((loaded [0x3C]).advance 3) (.ok (.step (.skipped 3))) 3 = true := by decide +kernel

/-- R236 on the id 4. -/
theorem test_idDse : answers .idDse ((loaded [0x3C]).advance 3) (.ok (.step (.skipped 4))) 3 = true := by decide +kernel

/-- D5. -/
theorem test_idPce : answers .idPce ((loaded [0xA0, 0x98, 0x00, 0x00, 0x00, 0x00]).advance 3) (.ok (.step (.element 5
    ⟨48, [0xA0, 0x98, 0x00, 0x00, 0x00, 0x00]⟩))) 48 = true := by decide +kernel

/-- D3. -/
theorem test_idFil : answers .idFil ((loaded [0xC0]).advance 3) (.ok (.step (.element 6 ⟨7, [0xC0]⟩))) 7 = true := by decide +kernel

/-- D1. -/
theorem test_idEnd : answers .idEnd (((loaded [0x3C]).advance 3).markHere.advance 3) (.ok (.step (.endElement ⟨3, [0xE0]⟩))) 6 = true := by decide +kernel

/-- D11. -/
theorem test_extFillData : answers (.extFillData 1) ((loaded [0x10, 0x00]).advance 4) (.ok (.ext 1 1)) 8 = true := by decide +kernel

/-- D13. -/
theorem test_extDynamicRange : answers .extDynamicRange ((loaded [0xC3, 0x60]).advance 11) (.error .extDynamicRange 11) 11 = true := by decide +kernel

/-- D14. -/
theorem test_extSbrData : answers .extSbrData ((loaded [0xC3, 0xA0]).advance 11) (.error .extSbrData 11) 11 = true := by decide +kernel

/-- D15. -/
theorem test_extSbrDataCrc : answers .extSbrDataCrc ((loaded [0xC3, 0xC0]).advance 11) (.error .extSbrDataCrc 11) 11 = true := by decide +kernel

/-- R229: 8 · 2 bits less the 4 read. -/
theorem test_extOther : answers (.extOther 0 2) ((loaded [0x00, 0x00]).advance 4) (.ok (.ext 0 2)) 16 = true := by decide +kernel

/-- P4 step 3. -/
theorem test_refused : answers (.readbits 1) (((loaded [0xC3, 0x60]).advance 11).withErr 0x0000B022) (.refused 2 2 11) 11 = true := by decide +kernel

/-- P4 step 2: the ERR word. -/
theorem test_error_word : (after .elementStep (loaded [0xC3, 0x60])).err = 0x0000B022 := by decide +kernel

/-! ## The host's operations -/

/-- A host operation's outputs. -/
def outputs (r : EStateM.Result HostFailure State HostPair) : Option HostPair :=
  match r with
  | .ok p _ => some p
  | .error _ _ => none

/-- P2's access unit. -/
def unitP2 : List Byte := (bytesIn [0xFF, 0xF9, 0x4C, 0x00, 0x01, 0x7F, 0xFC, 0x01, 0x00, 0x00, 0x07]).bytes

/-- P2, mono. -/
theorem test_transmuxMono : outputs (transmuxMono unitP2 (blockOf hcbTest)) =
    some ⟨some [0xFF, 0xF9, 0x4C, 0x40, 0x01, 0x7F, 0xFC, 0x01, 0x00, 0x00, 0x00], none⟩ := by decide +kernel

/-- P2, stereo. -/
theorem test_transmuxStereo : outputs (transmuxStereo unitP2 (blockOf hcbTest)) =
    some ⟨some [0xFF, 0xF9, 0x4C, 0x80, 0x01, 0xDF, 0xFC, 0x20, 0x80, 0x00, 0x02, 0x00, 0x00, 0x00], none⟩ := by
  decide +kernel

/-- The code a host operation fails with. -/
def failureCode (r : EStateM.Result HostFailure State HostPair) : Option (BitVec 4 × BitVec 8) :=
  match r with
  | .ok _ _ => none
  | .error f _ => f.code

/-- O2: a frame_length above the access unit's size is EXHAUSTION, FRAME_TRUNCATED (R300). -/
theorem test_frameTruncated_long : failureCode (transmuxMono
    (bytesIn [0xFF, 0xF9, 0x4C, 0x00, 0x01, 0x7F, 0xFC, 0x01, 0x00, 0x00]).bytes (blockOf hcbTest)) = some (1, 2) := by
  decide +kernel

/-- O3: a frame_length below header_bytes. -/
theorem test_frameTruncated_short : failureCode (transmuxStereo
    (bytesIn [0xFF, 0xF9, 0x4C, 0x00, 0x00, 0xDF, 0xFC]).bytes (blockOf hcbTest)) = some (1, 2) := by
  decide +kernel

/-! ## Reset and the fetch of a table row -/

theorem test_reset_memory_wf : State.reset.inbuf.wf = true := rfl

/-- A table row's word, placed after reset, is what the next step runs. -/
theorem test_fetch_readbits : decodeTableWord 32 0x02000000 = some (.readbits 0) ∧
    step (State.reset.withFetchWord 32 0x02000000) = exec (.readbits 0) State.reset := ⟨by decide +kernel, rfl⟩

theorem test_fetch_idEnd : decodeTableWord 8 7 = some .idEnd ∧
    (match step (State.reset.withFetchWord 8 7) with
      | .next t => t.responses
      | _ => []) = [.ok (.step (.endElement ⟨3, [0xE0]⟩))] := ⟨by decide +kernel, by decide +kernel⟩

/-! ## Witnesses: for each statement with hypotheses, states and operands that meet them -/

/-- The block with these bits loaded. -/
def streamOf (bits : Bits) : State := loadState (blockOf hcbTest) (pack bits)

/-- A state with one input of the host ahead. -/
def withInput (i : HostInput) : State := { loaded [0x3C] with inputs := [i] }

theorem witness_DecodeOfEncodeIsTheInstruction : (Instr.cbValue 11 288).wf = true ∧ (Instr.readbits 32).wf = true ∧
    (Instr.extPayload 269).wf = true ∧ (Instr.huffDecode 11).wf = true ∧ (Instr.extOther 15 269).wf = true ∧
    (Instr.extFillData 1).wf = true := by decide

theorem witness_StepRunsTheDecodedCommand :
    (withInput (.command ⟨0x34000000, emptyData⟩)).inputs = .command ⟨0x34000000, emptyData⟩ :: [] ∧
      decode 0x34000000 = .ok .elementStep := by
  exact ⟨rfl, by decide⟩

theorem witness_RejectedWordOnlyAnswers :
    ((withInput (.command ⟨0x08000000, emptyData⟩)).inputs = .command ⟨0x08000000, emptyData⟩ :: [] ∧
      decode 0x08000000 = .error .illegalOpcode) ∧
    ((withInput (.command ⟨0x03000001, emptyData⟩)).inputs = .command ⟨0x03000001, emptyData⟩ :: [] ∧
      decode 0x03000001 = .error .badArgument) := by
  exact ⟨⟨rfl, by decide⟩, rfl, by decide⟩

theorem witness_EveryStepAnswersOnce :
    (withInput (.command ⟨0, emptyData⟩)).inputs = .command ⟨0, emptyData⟩ :: [] ∧ (loaded [0x3C]).inputs = [] :=
  ⟨rfl, rfl⟩

theorem witness_ResetClearsTheBlock : (withInput .reset).inputs = .reset :: [] ∧ (withInput .reset).curLen = 8 :=
  ⟨rfl, rfl⟩

theorem witness_ResetBuildsEveryTrie :
    (∃ table, Config.hcb.tables[0]? = some table) ∧ ∃ table, Config.hcb.tables[11]? = some table := by
  have h : Config.hcb.tables.length = 12 := of_decide_eq_true ((Bool.and_eq_true _ _).mp Config.hcb.wf).1
  exact ⟨⟨_, List.getElem?_eq_getElem (by omega)⟩, ⟨_, List.getElem?_eq_getElem (by omega)⟩⟩

theorem witness_PendingErrorStaysUntilLoad :
    refusable (.ics true) = true ∧ (Instr.ics true).wf = true ∧ ((loaded [0x3C]).withErr 0x0000B022).err ≠ 0 ∧
      ∃ t, exec (.ics true) ((loaded [0x3C]).withErr 0x0000B022) = .next t := by
  exact ⟨rfl, rfl, by decide, _, rfl⟩

/-- Both ends: a read that raises and one that succeeds. -/
theorem witness_RaisedErrorIsRecordedWhereFound : refusable (.readbits 9) = true ∧ refusable (.readbits 8) = true ∧
    (Instr.readbits 9).wf = true ∧ (Instr.readbits 8).wf = true ∧ (loaded [0x3C]).err = 0 ∧
    (∃ t, exec (.readbits 9) (loaded [0x3C]) = .next t ∧ t.responses = [.error .read 0]) ∧
    ∃ t, exec (.readbits 8) (loaded [0x3C]) = .next t ∧ t.responses = [.ok (.nat 0x3C)] := by
  exact ⟨rfl, rfl, rfl, rfl, rfl, ⟨_, rfl, by decide +kernel⟩, _, rfl, by decide +kernel⟩

theorem witness_ErrorRegisterFields : 2 ^ 20 - 1 < 2 ^ 20 ∧
    ((loaded []).withErr (errWord .extSbrDataCrc (2 ^ 20 - 1))).err = errWord .extSbrDataCrc (2 ^ 20 - 1) ∧
    causeClass .read = causeClass .read ∧ causeCode .read = causeCode .read := by
  exact ⟨by decide, rfl, rfl, rfl⟩

theorem witness_PureCommandsOnlyAnswer : groupP .adtsParse = true ∧ groupP (.cbValue 1 0) = true ∧
    ((loaded [0x3C]).withErr 1).dataIn = (loaded [0x3C]).dataIn := ⟨rfl, rfl, rfl⟩

theorem witness_StepKeepsTheBlockSound : (loaded [0x3C]).sound ∧ ∃ t, step (loaded [0x3C]) = .next t :=
  ⟨⟨⟨by decide, by decide⟩, by unfold State.cursorOk; decide, .inl rfl⟩, _, rfl⟩

/-- A context with both valid flags set. -/
theorem witness_StepKeepsTheContextTrue :
    ((loaded [0x3C]).withCtx (withSections (longCtx .onlyLong) [⟨1, 0, 3⟩] [1, 1, 1])).ctxOk ∧
    (withSections (longCtx .onlyLong) [⟨1, 0, 3⟩] [1, 1, 1]).vSect = true ∧
    ∃ t, step ((loaded [0x3C]).withCtx (withSections (longCtx .onlyLong) [⟨1, 0, 3⟩] [1, 1, 1])) = .next t := by
  refine ⟨⟨fun _ => ?_, fun _ => ?_⟩, rfl, _, rfl⟩
  · unfold Ctx.infoOk; decide
  · refine ⟨rfl, rfl, rfl, rfl, fun x hx => ?_⟩
    cases List.mem_singleton.mp hx
    simp [tiles, withSections, longCtx]

theorem witness_OnlyLoadWritesTheBuffer : Instr.readbool ≠ .load ∧ ∃ t, exec .readbool (loaded [0x3C]) = .next t :=
  ⟨by decide, _, rfl⟩

theorem witness_CursorMovesForwardOnly : Instr.sce ≠ .load ∧ (∃ t, exec .sce (loaded [0x3C]) = .next t) ∧
    (loaded [0x3C]).curPos ≤ (loaded [0x3C]).curLen := ⟨by decide, ⟨_, rfl⟩, by decide⟩

/-- Two states that differ, in a register whose valid flag is clear. -/
theorem witness_UnwrittenContextIsNeverSeen :
    sameButUnwritten (loaded [0x3C]) ((loaded [0x3C]).withCtx { (loaded [0x3C]).ctx with maxSfb := 49 }) ∧
    (loaded [0x3C]).ctx ≠ { (loaded [0x3C]).ctx with maxSfb := 49 } ∧
    ∃ t, exec .tnsData (loaded [0x3C]) = .next t := ⟨rfl, by decide, _, rfl⟩

theorem witness_ReadingCommandsFrame : readsOnly .pce = true ∧ ∃ t, exec .pce (loaded [0x3C]) = .next t :=
  ⟨rfl, _, rfl⟩

theorem witness_ContextCommandsFrame : writesContext .icsInfo = true ∧ writesContext .sectionData = true ∧
    (∃ t, exec .icsInfo (loaded [0x3C]) = .next t) ∧
    ∃ t, exec .sectionData ((loaded [0x10, 0x30]).withCtx (longCtx .onlyLong)) = .next t :=
  ⟨rfl, rfl, ⟨_, rfl⟩, _, rfl⟩

theorem witness_DispatchFrame : dispatches .runFrame = true ∧ ∃ t, exec .runFrame (loaded [0x3C]) = .next t :=
  ⟨rfl, _, rfl⟩

/-- READBITS of all bits, one too many, and none; READBOOL at the last bit and past it. -/
theorem witness_ReadsReturnTheNextBits : (loaded [1, 2, 3, 4]).err = 0 ∧
    32 ≤ (loaded [1, 2, 3, 4]).curLen - (loaded [1, 2, 3, 4]).curPos ∧
    (loaded [0x3C]).curLen - (loaded [0x3C]).curPos < 9 ∧ 0 ≤ (loaded []).curLen - (loaded []).curPos ∧
    1 ≤ ((loaded [0x3C]).advance 7).curLen - ((loaded [0x3C]).advance 7).curPos ∧
    ((loaded [0x3C]).advance 8).curLen - ((loaded [0x3C]).advance 8).curPos = 0 := by decide

theorem witness_ByteAlignReachesAByteBoundary : ((loaded [0x3C]).advance 1).err = 0 ∧
    ((loaded [0x3C]).advance 1).curPos ≤ ((loaded [0x3C]).advance 1).curLen ∧
    ((loaded [0x3C]).advance 1).curLen % 8 = 0 := by decide

theorem witness_RecordCommandsComplete : (loaded [0x3C]).err = 0 := rfl

/-- The last bit of a padded last byte. -/
theorem witness_PackingIsMostSignificantBitFirst : 15 < 8 * ((([true, true, true, true, true, true, true, true, true] :
    Bits).length + 7) / 8) := by decide

/-- The longest sequence, the shortest too long one, and a canonical buffer. -/
theorem witness_LoadStartsANewStream : (List.replicate 8192 (0 : Byte)).length ≤ 8192 ∧
    8192 < (List.replicate 8193 (0 : Byte)).length ∧ (loaded [0x3C]).inbuf.wf = true ∧ 0 < [(0 : Byte)].length := by
  refine ⟨by rw [List.length_replicate], by rw [List.length_replicate]; decide, by decide, by simp⟩

theorem witness_BuiltTrieSpellsTheTable : wfTable 0 [⟨60, 0b0, 1⟩, ⟨59, 0b10, 2⟩, ⟨61, 0b11, 2⟩] = true ∧
    wfTable 0 [⟨7, 0, 0⟩] = true ∧ subtrie (buildTrie [⟨7, 0, 0⟩]) [] = .leaf 7 := by decide

theorem witness_PrefixConflictIsRefused : natToBits 1 0b1 <+: natToBits 2 0b11 ∧ natToBits 0 0 <+: natToBits 1 0 := by
  decide

/-- A codeword, a missing child and a stream that ends inside the trie. -/
theorem witness_HuffDecodeFollowsTheTrie :
    ((loaded [0x80]).err = 0 ∧ Ahead (loaded [0x80]) [true, false] ∧
      subtrie ((loaded [0x80]).trie 0) [true, false] = .leaf 59) ∧
    (Ahead (loaded [0x80]) ([] ++ [true]) ∧
      subtrie ({ loaded [0x80] with hrom := [.node (.leaf 0) .absent] }.trie 0) [] = .node (.leaf 0) .absent ∧
      subtrie ({ loaded [0x80] with hrom := [.node (.leaf 0) .absent] }.trie 0) [true] = .absent) ∧
    ([] = (loaded []).unreadBits ∧
      subtrie ((loaded []).trie 0) [] = .node (.leaf 60) (.node (.leaf 59) (.leaf 61))) := by
  unfold Ahead; decide +kernel

theorem witness_CbValueIsThePositionalTuple : 288 < cbSize 11 ∧ 80 < cbSize 1 ∧ 0 < cbSize 1 := by decide

theorem witness_UnwrittenContextRaises : (loaded [0x3C]).err = 0 ∧ (loaded [0x3C]).ctx.vInfo = false ∧
    (loaded [0x3C]).ctx.vSect = false ∧ ((loaded [0x3C]).withCtx (longCtx .onlyLong)).ctx.vSect = false := by decide

/-- A long window with a predictor that resets a group, and a short one at the ends of its ranges. -/
theorem witness_IcsInfoParsesWindowContext :
    (IcsInfo.Ok ⟨true, true, .long .longStop 49 (some ⟨some (natToBits 5 3), natToBits 40 5⟩)⟩ ∧
      Ahead (streamOf (IcsInfo.bits ⟨true, true, .long .longStop 49 (some ⟨some (natToBits 5 3), natToBits 40 5⟩)⟩))
        (IcsInfo.bits ⟨true, true, .long .longStop 49 (some ⟨some (natToBits 5 3), natToBits 40 5⟩)⟩)) ∧
    (IcsInfo.Ok ⟨false, false, .short 14 127⟩ ∧
      Ahead (streamOf (IcsInfo.bits ⟨false, false, .short 14 127⟩)) (IcsInfo.bits ⟨false, false, .short 14 127⟩)) := by
  refine ⟨⟨⟨by decide, by decide, fun p hp => ?_⟩, by unfold Ahead; decide +kernel⟩, ⟨by decide, by decide⟩,
    by unfold Ahead; decide +kernel⟩
  cases hp
  exact ⟨by decide, fun g hg => by cases hg; decide⟩

theorem witness_MaxSfbAboveTheBandCountRaises :
    (sfbLimit .onlyLong < 50 ∧ 50 < (if isShort .onlyLong then 16 else 64) ∧
      Ahead (streamOf ([false] ++ natToBits 2 0 ++ [false] ++ natToBits 6 50))
        (false :: natToBits 2 (windowCode .onlyLong) ++ false :: natToBits (if isShort .onlyLong then 4 else 6) 50)) ∧
    (sfbLimit .eightShort < 15 ∧ 15 < (if isShort .eightShort then 16 else 64) ∧
      Ahead (streamOf ([false] ++ natToBits 2 2 ++ [false] ++ natToBits 4 15))
        (false :: natToBits 2 (windowCode .eightShort) ++
          false :: natToBits (if isShort .eightShort then 4 else 6) 15)) := by
  unfold Ahead; decide +kernel

theorem witness_OffsetsScaleTheBandTables : 49 ≤ sfbLimit .onlyLong ∧ isShort .onlyLong = false ∧
    14 ≤ sfbLimit .eightShort ∧ isShort .eightShort = true ∧ 48 < 49 ∧ 13 < 14 := by decide

/-- The sections of S-D: an escaped length and one that starts where it ends. -/
def sectionsSD : List (List RawSection) := [[⟨5, 31⟩, ⟨0, 0⟩, ⟨0, 9⟩]]

/-- A context of ONLY_LONG with max_sfb 40. -/
def longCtx40 : Ctx := { longCtx .onlyLong with maxSfb := 40, sectSfbOffset := offsets .onlyLong 40 [1] }

theorem witness_SectionDataStoresTheSections :
    ((streamOf (sectionBits .onlyLong sectionsSD)).withCtx longCtx40).err = 0 ∧ longCtx40.vInfo = true ∧
    sectionsSD.length = longCtx40.numWindowGroups ∧ (∀ g ∈ sectionsSD, groupOk longCtx40.maxSfb g) ∧
    Ahead ((streamOf (sectionBits .onlyLong sectionsSD)).withCtx longCtx40)
      (sectionBits longCtx40.windowSequence sectionsSD) := by
  refine ⟨rfl, rfl, rfl, ?_, by unfold Ahead; decide +kernel⟩
  simp [sectionsSD, groupOk, groupPrefix, longCtx40]

theorem witness_SectionPastMaxSfbRaises :
    longCtx40.vInfo = true ∧ ([] : List (List RawSection)).length < longCtx40.numWindowGroups ∧
    groupPrefix longCtx40.maxSfb 0 [⟨5, 31⟩, ⟨0, 0⟩] 31 ∧ 31 < longCtx40.maxSfb ∧ longCtx40.maxSfb < 31 + 10 ∧
    Ahead ((streamOf (sectionBits .onlyLong [[⟨5, 31⟩, ⟨0, 0⟩, ⟨1, 10⟩]])).withCtx longCtx40)
      (sectionBits longCtx40.windowSequence ([] ++ [[⟨5, 31⟩, ⟨0, 0⟩] ++ [⟨1, 10⟩]])) := by
  refine ⟨rfl, by decide, ?_, by decide, by decide, by unfold Ahead; decide +kernel⟩
  simp [groupPrefix, longCtx40]

/-- F2's context. -/
def codedCtx : Ctx := withSections (longCtx .onlyLong) [⟨1, 0, 3⟩] [1, 1, 1]

theorem witness_ScaleFactorDataCountsSymbols : ((streamOf [false, true, true, false]).withCtx codedCtx).err = 0 ∧
    codedCtx.vSect = true ∧ [[false], [true, true], [false]].length = codedBands codedCtx ∧
    (∀ w ∈ [[false], [true, true], [false]],
      ∃ sym, IsCodeword ((streamOf [false, true, true, false]).withCtx codedCtx) 0 w sym) ∧
    Ahead ((streamOf [false, true, true, false]).withCtx codedCtx) [[false], [true, true], [false]].flatten := by
  refine ⟨rfl, rfl, by decide, ?_, by unfold Ahead; decide +kernel⟩
  have h0 : IsCodeword ((streamOf [false, true, true, false]).withCtx codedCtx) 0 [false] 60 := by
    unfold IsCodeword; decide +kernel
  have h1 : IsCodeword ((streamOf [false, true, true, false]).withCtx codedCtx) 0 [true, true] 61 := by
    unfold IsCodeword; decide +kernel
  intro w hw
  simp only [List.mem_cons, List.not_mem_nil, or_false] at hw
  rcases hw with rfl | rfl | rfl
  · exact ⟨_, h0⟩
  · exact ⟨_, h1⟩
  · exact ⟨_, h0⟩

/-- Four pulses and one. -/
def pulses (n : Nat) : Pulse := ⟨natToBits 6 5, List.replicate n (natToBits 9 3)⟩

theorem witness_PulseDataConsumesItsPulses : ((pulses 4).Ok ∧ Ahead (streamOf (pulses 4).bits) (pulses 4).bits) ∧
    ((pulses 1).Ok ∧ Ahead (streamOf (pulses 1).bits) (pulses 1).bits) := by
  unfold Ahead Pulse.Ok; decide +kernel

/-- Eight short windows: one filter with compressed coefficients, one with order 0, six without filters. -/
def tnsShort : List TnsWindow :=
  [⟨true, [⟨natToBits 4 1, true, true, [natToBits 3 5, natToBits 3 1]⟩]⟩, ⟨false, [⟨natToBits 4 2, false, false, []⟩]⟩] ++
    List.replicate 6 ⟨false, []⟩

theorem tnsShort_ok : ∀ w ∈ tnsShort, w.Ok true := by
  unfold TnsWindow.Ok TnsFilter.Ok; decide +kernel

theorem witness_TnsDataConsumesItsFilters : tnsShort.length = shortCtx.numWindows ∧ shortCtx.vInfo = true ∧
    (∀ w ∈ tnsShort, w.Ok (isShort shortCtx.windowSequence)) ∧
    Ahead ((streamOf (tnsShort.flatMap (TnsWindow.bits true))).withCtx shortCtx)
      (tnsShort.flatMap (TnsWindow.bits (isShort shortCtx.windowSequence))) :=
  ⟨rfl, rfl, tnsShort_ok, by unfold Ahead; decide +kernel⟩

/-- One band of LONG_STOP: one adjustment in its first window, none in its second. -/
def gainStop : List (List GainWindow) := [[[(natToBits 4 1, natToBits 4 2)], []]]

theorem gainStop_ok : gainOk .longStop gainStop := by
  refine ⟨by decide, fun b hb => ?_⟩
  cases List.mem_singleton.mp hb
  exact .cons ⟨by decide, by decide⟩ (.cons ⟨by decide, by decide⟩ .nil)

theorem witness_GainControlDataConsumesItsBands : (longCtx .longStop).vInfo = true ∧
    gainOk (longCtx .longStop).windowSequence gainStop ∧
    Ahead ((streamOf (gainBits gainStop)).withCtx (longCtx .longStop)) (gainBits gainStop) :=
  ⟨rfl, gainStop_ok, by unfold Ahead; decide +kernel⟩

theorem witness_EscapeSequenceIsTwoNPlusFive : Escape.Ok ⟨0, natToBits 4 9⟩ ∧ Escape.Ok ⟨40, natToBits 44 1⟩ ∧
    Ahead (streamOf (Escape.bits ⟨0, natToBits 4 9⟩)) (Escape.bits ⟨0, natToBits 4 9⟩) ∧
    Ahead (streamOf (Escape.bits ⟨40, natToBits 44 1⟩)) (Escape.bits ⟨40, natToBits 44 1⟩) := by
  unfold Ahead Escape.Ok; decide +kernel

/-- U9's unit: two signs and two escapes. -/
def unitU9 : SpecUnit :=
  ⟨288, [true, true], [false, true], [⟨0, natToBits 4 0⟩, ⟨1, natToBits 5 1⟩]⟩

theorem witness_SpecUnitConsumesSignsThenEscapes : unitU9.Ok (streamOf unitU9.bits) 11 ∧ Ahead (streamOf unitU9.bits) unitU9.bits ∧
    SpecUnit.Ok (streamOf [false]) 1 ⟨40, [false], [], []⟩ ∧ Ahead (streamOf [false]) (SpecUnit.bits ⟨40, [false], [], []⟩) := by
  unfold Ahead SpecUnit.Ok IsCodeword Escape.Ok; decide +kernel

/-- A unit of codebook 1 under `HCB_TEST`. -/
def unitOne (idx : Nat) (codeword : Bits) : SpecUnit := ⟨idx, codeword, [], []⟩

theorem unitOne_ok (s : State) (h : s.hrom = buildHrom hcbTest) :
    (unitOne 40 [false]).Ok s 1 ∧ (unitOne 80 [true, true]).Ok s 1 := by
  unfold SpecUnit.Ok IsCodeword State.trie
  rw [h]
  unfold Escape.Ok
  decide +kernel

/-- X1's units. -/
def unitsX1 : List SpecUnit := [unitOne 40 [false], unitOne 40 [false], unitOne 80 [true, true]]

theorem unitsX1_ok (s : State) (h : s.hrom = buildHrom hcbTest) : List.Forall₂ (SpecUnit.Ok s) [1, 1, 1] unitsX1 :=
  .cons (unitOne_ok s h).1 (.cons (unitOne_ok s h).1 (.cons (unitOne_ok s h).2 .nil))

theorem witness_SpectralDataDecodesEverySection : codedCtx.vSect = true ∧
    List.Forall₂ (SpecUnit.Ok ((streamOf (unitsX1.flatMap SpecUnit.bits)).withCtx codedCtx)) (unitCodebooks codedCtx) unitsX1 ∧
    Ahead ((streamOf (unitsX1.flatMap SpecUnit.bits)).withCtx codedCtx) (unitsX1.flatMap SpecUnit.bits) := by
  refine ⟨rfl, ?_, by unfold Ahead; decide +kernel⟩
  have h : unitCodebooks codedCtx = [1, 1, 1] := by decide +kernel
  rw [h]
  exact unitsX1_ok _ rfl

/-- An individual_channel_stream with every optional block: max_sfb 3, codebook 1 over all bands. -/
def icsFull : Ics where
  globalGain := 128
  info := ⟨false, false, .long .onlyLong 3 none⟩
  groups := [[⟨1, 3⟩]]
  scale := [[false], [true, true], [false]]
  pulse := some (pulses 2)
  tns := some [⟨false, [⟨natToBits 6 4, false, false, [natToBits 3 5]⟩]⟩]
  gainControl := some [[[(natToBits 4 1, natToBits 5 0)]]]
  units := unitsX1

theorem icsFull_ok (s : State) (h : s.hrom = buildHrom hcbTest) : icsFull.Ok s := by
  refine ⟨by decide, ⟨by decide, by decide, fun p hp => nomatch hp⟩, rfl, ?_, ?_, ?_, ?_, ?_, ?_, ?_⟩
  · simp [icsFull, Ics.context, sectionContext, IcsInfo.context, groupOk, groupPrefix]
  · have hc : codedBands (icsFull.context s.ctx) = 3 := rfl
    rw [hc]; rfl
  · intro w hw
    simp only [icsFull, List.mem_cons, List.not_mem_nil, or_false] at hw
    unfold IsCodeword State.trie
    rw [h]
    rcases hw with rfl | rfl | rfl
    · exact ⟨60, by decide +kernel⟩
    · exact ⟨61, by decide +kernel⟩
    · exact ⟨60, by decide +kernel⟩
  · intro p hp; cases hp; unfold Pulse.Ok; decide +kernel
  · intro ws hw
    cases hw
    refine ⟨rfl, fun w hw => ?_⟩
    cases List.mem_singleton.mp hw
    unfold TnsWindow.Ok TnsFilter.Ok; decide +kernel
  · intro b hb
    cases hb
    refine ⟨by decide, fun x hx => ?_⟩
    cases List.mem_singleton.mp hx
    exact .cons ⟨by decide, by decide⟩ .nil
  · have hu : unitCodebooks (icsFull.context s.ctx) = unitCodebooks (icsFull.context resetCtx) := rfl
    have h1 : unitCodebooks (icsFull.context resetCtx) = [1, 1, 1] := by decide +kernel
    rw [hu, h1]
    exact unitsX1_ok s h

theorem witness_IcsAndSceParseTheChannelStream :
    (icsFull.Ok (streamOf icsFull.bits) ∧ Ahead (streamOf icsFull.bits) icsFull.bits) ∧
    (icsFull.Ok (streamOf (natToBits 4 15 ++ icsFull.bits)) ∧
      Ahead (streamOf (natToBits 4 15 ++ icsFull.bits)) (natToBits 4 15 ++ icsFull.bits)) :=
  ⟨⟨icsFull_ok _ rfl, by unfold Ahead; decide +kernel⟩, icsFull_ok _ rfl, by unfold Ahead; decide +kernel⟩

/-- A program_config_element with one entry of each kind, read from stream position 0: its 73 bits before the alignment
leave 7 to the byte boundary. -/
def pceFull (padding : Nat) : Pce where
  tag := 15
  head := natToBits 6 5
  front := [natToBits 5 1]
  side := [natToBits 5 2]
  back := [natToBits 5 3]
  lfe := [natToBits 4 1]
  assoc := [natToBits 4 2]
  cc := [natToBits 5 4]
  mono := some (natToBits 4 1)
  stereo := some (natToBits 4 2)
  mixdown := some (natToBits 3 3)
  pad := List.replicate padding false
  comment := [natToBits 8 65, natToBits 8 66]

theorem pceFull_ok (pos padding : Nat) (h : padding = alignGap (pos + (pceFull padding).fixedBits.length)) :
    (pceFull padding).Ok pos := by
  unfold Pce.Ok
  refine ⟨by simp [pceFull], by simp [pceFull], by simp [pceFull], by simp [pceFull], by simp [pceFull],
    by simp [pceFull], by simp [pceFull], by simp [pceFull], by simp [pceFull], by simp [pceFull],
    by simp [pceFull], by simp [pceFull], by simp [pceFull], ?_, by simp [pceFull], by simp [pceFull]⟩
  rw [← h]
  simp [pceFull]

theorem witness_PceConsumesItsFieldsAndAlignment : (pceFull 7).Ok (streamOf (pceFull 7).bits).curPos ∧
    Ahead (streamOf (pceFull 7).bits) (pceFull 7).bits :=
  ⟨pceFull_ok _ _ (by decide +kernel), by unfold Ahead; decide +kernel⟩

/-- The largest count, escaped; the smallest escaped one; the largest plain one; and none. -/
def filOf (escaped : Bool) (count : Nat) : Fil := ⟨escaped, count, 1, List.replicate (8 * count - 4) false⟩

theorem filOf_ok (escaped : Bool) (count : Nat)
    (h : if escaped then 14 ≤ count ∧ count ≤ 269 else count < 15) : (filOf escaped count).Ok :=
  ⟨h, fun _ => ⟨by unfold extAccepted; simp [filOf], by simp [filOf]⟩⟩

theorem witness_FilConsumesEightBitsAByte : (filOf true 269).Ok ∧ (filOf true 14).Ok ∧ (filOf false 14).Ok ∧
    (filOf false 0).Ok ∧ Ahead (streamOf (filOf true 14).bits) (filOf true 14).bits ∧
    Ahead (streamOf (filOf false 14).bits) (filOf false 14).bits ∧ Ahead (streamOf (filOf false 0).bits) (filOf false 0).bits :=
  ⟨filOf_ok _ _ (by decide), filOf_ok _ _ (by decide), filOf_ok _ _ (by decide), filOf_ok _ _ (by decide),
    by unfold Ahead; decide +kernel, by unfold Ahead; decide +kernel, by unfold Ahead; decide +kernel⟩

theorem witness_ExtPayloadConsumesEightBitsAByte : extAccepted 1 ∧ extAccepted 15 ∧
    (natToBits 12 0).length = 8 * 2 - 4 ∧ Ahead (loaded [0x10, 0x00]) (natToBits 4 1 ++ natToBits 12 0) ∧
    Ahead (loaded [0xB0]) (natToBits 4 11) ∧ Ahead (loaded [0xD0]) (natToBits 4 13) ∧
    Ahead (loaded [0xE0]) (natToBits 4 14) := by
  unfold Ahead extAccepted; decide +kernel

theorem witness_ExtensionTypesComplete : 8 * 1 - 4 ≤ (loaded [0x00]).curLen - (loaded [0x00]).curPos ∧
    isOtherExtCode 0 = true ∧ isOtherExtCode 15 = true ∧ (loaded [0x00]).err = 0 := by decide

theorem witness_StreamCodesRunInsideTheirCommands : (loaded [0xE0]).err = 0 ∧ (loaded [0xE0]).dstate ≠ .ended ∧
    (loaded [0xE0]).curPos ≠ (loaded [0xE0]).curLen ∧ Ahead (loaded [0xE0]) (natToBits 3 (7#3).toNat) ∧
    Ahead (loaded [0xE0]) (natToBits 4 (14#4).toNat) := by
  unfold Ahead; decide +kernel

/-- SCE, PCE and FIL once their ids are read, with the id as the record so far. -/
theorem witness_ElementIdsComplete :
    (((streamOf (natToBits 3 0 ++ natToBits 4 9 ++ icsFull.bits)).advance 3).err = 0 ∧
      [false, false, false] = ((streamOf (natToBits 3 0 ++ natToBits 4 9 ++ icsFull.bits)).advance 3).record ∧
      icsFull.Ok ((streamOf (natToBits 3 0 ++ natToBits 4 9 ++ icsFull.bits)).advance 3) ∧
      Ahead ((streamOf (natToBits 3 0 ++ natToBits 4 9 ++ icsFull.bits)).advance 3) (natToBits 4 9 ++ icsFull.bits)) ∧
    ((pceFull 4).Ok ((streamOf (natToBits 3 5 ++ (pceFull 4).bits)).advance 3).curPos ∧
      Ahead ((streamOf (natToBits 3 5 ++ (pceFull 4).bits)).advance 3) (pceFull 4).bits) ∧
    ((filOf false 14).Ok ∧
      Ahead ((streamOf (natToBits 3 6 ++ (filOf false 14).bits)).advance 3) (filOf false 14).bits) := by
  refine ⟨⟨rfl, by decide +kernel, icsFull_ok _ rfl, by unfold Ahead; decide +kernel⟩,
    ⟨pceFull_ok _ _ (by decide +kernel), by unfold Ahead; decide +kernel⟩,
    filOf_ok _ _ (by decide), by unfold Ahead; decide +kernel⟩

/-- One element of each kind, the PCE at the stream's start. -/
def elementsAll : List Element := [.pce (pceFull 4), .skipped 1, .fil (filOf false 2), .sce 3 icsFull, .skipped 4]

theorem elementsAll_ok (s : State) (h : s.hrom = buildHrom hcbTest) : elementsOk s 0 elementsAll := by
  refine ⟨pceFull_ok _ _ (by decide +kernel), ⟨by decide, by decide⟩, filOf_ok _ _ (by decide),
    ⟨by decide, icsFull_ok s h⟩, ⟨by decide, by decide⟩, trivial⟩

theorem witness_ElementStepReturnsTheElement :
    Element.Ok (streamOf (Element.bits (.sce 3 icsFull))) 0 (.sce 3 icsFull) ∧
    (streamOf (Element.bits (.sce 3 icsFull))).curMark = (streamOf (Element.bits (.sce 3 icsFull))).curPos ∧
    (streamOf (Element.bits (.sce 3 icsFull))).dstate ≠ .ended ∧
    Ahead (streamOf (Element.bits (.sce 3 icsFull))) (Element.bits (.sce 3 icsFull)) ∧
    Element.Ok (streamOf (Element.bits (.skipped 4))) 0 (.skipped 4) ∧
    Ahead (streamOf (Element.bits (.skipped 4))) (Element.bits (.skipped 4)) :=
  ⟨⟨by decide, icsFull_ok _ rfl⟩, rfl, by decide, by unfold Ahead; decide +kernel, ⟨by decide, by decide⟩,
    by unfold Ahead; decide +kernel⟩

/-- The loop ended, no bit left, one and two bits left, and END ahead. -/
theorem witness_ElementStepEndsTheLoop : ((loaded [0x3C]).withDState .ended).dstate = .ended ∧
    ((loaded [0x3C]).dstate ≠ .ended ∧ ((loaded [0x3C]).advance 8).curPos = ((loaded [0x3C]).advance 8).curLen) ∧
    (((loaded [0x3C]).advance 7).curPos < ((loaded [0x3C]).advance 7).curLen ∧
      ((loaded [0x3C]).advance 7).curLen < ((loaded [0x3C]).advance 7).curPos + 3 ∧
      ((loaded [0x3C]).advance 6).curLen < ((loaded [0x3C]).advance 6).curPos + 3) ∧
    (((loaded [0x3C]).advance 3).curMark ≤ ((loaded [0x3C]).advance 3).curPos ∧
      Ahead ((loaded [0x3C]).advance 3) [true, true, true]) := by
  unfold Ahead; decide +kernel

theorem witness_RunFrameReturnsEveryElement :
    (streamOf (elementsBits elementsAll ++ [true, true, true])).err = 0 ∧
    (streamOf (elementsBits elementsAll ++ [true, true, true])).dstate ≠ .ended ∧
    (streamOf (elementsBits elementsAll ++ [true, true, true])).curMark =
      (streamOf (elementsBits elementsAll ++ [true, true, true])).curPos ∧
    elementsOk (streamOf (elementsBits elementsAll ++ [true, true, true])) 0 elementsAll ∧
    Ahead (streamOf (elementsBits elementsAll ++ [true, true, true])) (elementsBits elementsAll ++ [true, true, true]) :=
  ⟨rfl, by decide, rfl, elementsAll_ok _ rfl, by unfold Ahead; decide +kernel⟩

/-- One run that ends by END and one that ends by exhausted input. -/
theorem witness_RunFrameAccountsForEveryBit :
    ((loaded [0x3C]).err = 0 ∧ (loaded [0x3C]).curMark = (loaded [0x3C]).curPos ∧
      exec .runFrame (loaded [0x3C]) = .next (after .runFrame (loaded [0x3C])) ∧
      (after .runFrame (loaded [0x3C])).responses =
        (loaded [0x3C]).responses ++ [.ok (.frame [.skipped 1, .endElement ⟨3, [0xE0]⟩] .endId)]) ∧
    (exec .runFrame (loaded []) = .next (after .runFrame (loaded [])) ∧
      (after .runFrame (loaded [])).responses = (loaded []).responses ++ [.ok (.frame [] .exhausted)]) :=
  ⟨⟨rfl, rfl, rfl, by decide +kernel⟩, rfl, by decide +kernel⟩

theorem witness_AdtsParseExtractsTheFields : [(0 : Byte), 0, 0, 0, 0, 0].length < 7 ∧
    7 ≤ [(0 : Byte), 0, 0, 0, 0, 0, 0].length := by decide

theorem witness_AdtsGeneratePacksTheFields : headerFits ⟨4095, 1, 3, 1, 3, 15, 1, 7, 1, 1, 1, 1, 8191, 2047, 3⟩ = true ∧
    headerFits ⟨4095, 1, 3, 1, 3, 15, 1, 7, 1, 1, 1, 1, 8192, 2047, 3⟩ = false := by decide

theorem witness_AdtsCommandsAreInverse :
    headerFits ⟨4095, 1, 3, 1, 3, 15, 1, 7, 1, 1, 1, 1, 8191, 2047, 3⟩ = true := by decide

/-- O1's header. -/
theorem witness_NonzeroChannelConfigurationPassesThrough :
    7 ≤ (bytesIn [0xFF, 0xF9, 0x4C, 0x40, 0x01, 0x7F, 0xFC]).bytes.length ∧
    (parseHeader (headerWord (bytesIn [0xFF, 0xF9, 0x4C, 0x40, 0x01, 0x7F, 0xFC]).bytes)).channelConfiguration ≠ 0 := by
  decide +kernel

/-- An operation that has outputs has returned them. -/
theorem outputs_eq_some {r : EStateM.Result HostFailure State HostPair} {p : HostPair} (h : outputs r = some p) :
    ∃ t, r = .ok p t := by
  cases r with
  | ok q t => cases h; exact ⟨t, rfl⟩
  | error f t => cases h

theorem witness_OutputsCarryTheirChannelCount :
    (parseHeader (headerWord unitP2)).channelConfiguration = 0 ∧
    (∃ t, transmuxMono unitP2 (blockOf hcbTest) =
      .ok ⟨some [0xFF, 0xF9, 0x4C, 0x40, 0x01, 0x7F, 0xFC, 0x01, 0x00, 0x00, 0x00], none⟩ t) ∧
    ∃ t, transmuxStereo unitP2 (blockOf hcbTest) =
      .ok ⟨some [0xFF, 0xF9, 0x4C, 0x80, 0x01, 0xDF, 0xFC, 0x20, 0x80, 0x00, 0x02, 0x00, 0x00, 0x00], none⟩ t :=
  ⟨by decide +kernel, outputs_eq_some test_transmuxMono, outputs_eq_some test_transmuxStereo⟩

end Sys2Proof.Tests
end

section
/-! SUPPORT. The walk that each command of group S runs, and what a command can do in terms of its walk (R302). -/

namespace Sys2Proof.Machine

open Sys2Proof.Grammar

/-- The pseudocode of a command of group S other than LOAD, and of a stream code; `exec_refusable` ties it to `exec`. -/
def commandWalk : Instr → Walk Value
  | .readbits n => do let v ← readBits n; pure (.nat v)
  | .readbool => do let b ← readBool; pure (.bool b)
  | .bytealign => do let r ← byteAlign; pure (.aligned r.1 r.2)
  | .isempty => do let t ← getState; pure (.bool (decide (t.curPos = t.curLen)))
  | .consumeArray => do let t ← getState; pure (.record (bitSeq t.record))
  | .consumeClear => do setMark; pure .unit
  | .huffDecode t => do let v ← huffDecode t; pure (.nat v)
  | .specUnit cb => do let r ← specUnit cb; pure (.unitOf r.1 r.2.1 r.2.2)
  | .escSeq => do let r ← escSeq; pure (.escape r.1 (r.2 % 2 ^ 32))
  | .icsInfo => do icsInfoBody; let c ← getCtx; pure (icsInfoResult c)
  | .sectionData => do sectionDataBody; let c ← getCtx; pure (.sections c.sect)
  | .scaleFactorData => do let n ← scaleFactorDataBody; pure (.nat n)
  | .pulseData => do let n ← pulseDataBody; pure (.nat n)
  | .tnsData => do let n ← tnsDataBody; pure (.nat n)
  | .gainControlData => do let n ← gainControlDataBody; pure (.nat n)
  | .spectralData => do let r ← spectralDataBody; pure (.spectral r.1 r.2)
  | .ics cw => if cw then raise .commonWindow else (do let r ← icsBody; pure (.ics r.1 r.2))
  | .sce => do let tag ← sceBody; pure (.nat tag)
  | .pce => do let r ← pceBody; pure (.pce r.1 r.2)
  | .fil => do let n ← filBody; pure (.nat n)
  | .extPayload cnt => do let r ← extPayload cnt; pure (.ext r.1 r.2)
  | .elementStep => do let r ← elementStepBody; pure (.step r)
  | .runFrame => do let r ← runFrameBody; pure (.frame r.1 r.2)
  | .idSce => do let r ← elementArm .sce; pure (.step r)
  | .idCpe => do let r ← elementArm .cpe; pure (.step r)
  | .idCce => do let r ← elementArm .cce; pure (.step r)
  | .idLfe => do let r ← elementArm .lfe; pure (.step r)
  | .idDse => do let r ← elementArm .dse; pure (.step r)
  | .idPce => do let r ← elementArm .pce; pure (.step r)
  | .idFil => do let r ← elementArm .fil; pure (.step r)
  | .idEnd => do let r ← elementArm .endId; pure (.step r)
  | .extFillData cnt => do extBody cnt .fillData; pure (.ext (extTypeCode .fillData) cnt)
  | .extDynamicRange => raise .extDynamicRange
  | .extSbrData => raise .extSbrData
  | .extSbrDataCrc => raise .extSbrDataCrc
  | .extOther code cnt => do extBody cnt (.other code); pure (.ext code cnt)
  | .load => pure .unit
  | .cbValue _ _ => pure .unit
  | .adtsParse => pure .unit
  | .adtsGenerate => pure .unit

/-- A refusable instruction is its walk behind the preamble, which checks that it is well formed. -/
theorem exec_refusable {i : Instr} (h : refusable i = true) (s : State) :
    exec i s = .next (stateful i.wf (commandWalk i) s) := by
  cases i with
  | load => exact absurd h (by decide)
  | cbValue cb idx => exact absurd h (by simp [refusable, groupP])
  | adtsParse => exact absurd h (by decide)
  | adtsGenerate => exact absurd h (by decide)
  | _ => rfl

/-- LOAD of bytes that fit INBUF (R106). -/
theorem exec_load_of_fits {s : State} (h : s.dataIn.bytes.length ≤ inbufBytes) :
    exec .load s = .next ((loadState s s.dataIn.bytes).respond (.ok .unit)) := congrArg Host.Outcome.next (if_pos h)

/-- LOAD of more bytes than INBUF holds (R302). -/
theorem exec_load_of_long {s : State} (h : ¬ s.dataIn.bytes.length ≤ inbufBytes) :
    exec .load s = .next (s.reportError .badArgument) := congrArg Host.Outcome.next (if_neg h)

/-- Everything LOAD can do. -/
theorem exec_load_cases {s t : State} (h : exec .load s = .next t) :
    (s.dataIn.bytes.length ≤ inbufBytes ∧ t = (loadState s s.dataIn.bytes).respond (.ok .unit)) ∨
      t = s.reportError .badArgument := by
  by_cases hb : s.dataIn.bytes.length ≤ inbufBytes
  · rw [exec_load_of_fits hb] at h; cases h; exact .inl ⟨hb, rfl⟩
  · rw [exec_load_of_long hb] at h; cases h; exact .inr rfl

/-- What a pure command answers does not depend on the state it runs on. -/
theorem pureCommand_answers_alike (ok : Bool) (r : Except Cause Value) :
    ∃ answer, ∀ s, pureCommand ok r s = s.respond answer := by
  cases ok with
  | false => exact ⟨_, fun _ => rfl⟩
  | true => cases r with
    | ok v => exact ⟨_, fun _ => rfl⟩
    | error c => exact ⟨_, fun _ => rfl⟩

/-- A pure command puts one response, which its operands and its data-in fix. -/
theorem exec_groupP {i : Instr} (h : groupP i = true) (s : State) :
    ∃ r, ∀ s' : State, s'.dataIn = s.dataIn → exec i s' = .next (s'.respond r) := by
  cases i with
  | cbValue cb idx =>
    obtain ⟨r, hr⟩ := pureCommand_answers_alike (isSpectralCb cb && decide (idx < cbSize cb))
      (.ok (.tuple (cbValue cb idx)))
    exact ⟨r, fun s' _ => congrArg Host.Outcome.next (hr s')⟩
  | adtsParse =>
    obtain ⟨r, hr⟩ := pureCommand_answers_alike true (adtsParse s.dataIn.bytes)
    exact ⟨r, fun s' hs => by rw [← hr s', ← hs]; rfl⟩
  | adtsGenerate =>
    obtain ⟨r, hr⟩ := pureCommand_answers_alike true (adtsGenerate s.dataIn.header)
    exact ⟨r, fun s' hs => by rw [← hr s', ← hs]; rfl⟩
  | _ => cases h

/-- An instruction that is not LOAD is pure or refusable. -/
theorem groupP_or_refusable {i : Instr} (h : i ≠ .load) : groupP i = true ∨ refusable i = true := by
  cases hp : groupP i with
  | true => exact .inl rfl
  | false => exact .inr (by simp [refusable, hp, h])

/-- Everything an instruction other than LOAD can do: it only answers, or its walk runs to a value, or its walk runs to
an error, which is then recorded (R301, R302). -/
theorem exec_cases {i : Instr} {s t : State} (hi : i ≠ .load) (h : exec i s = .next t) :
    (∃ r, t = s.respond r) ∨
    (s.err = 0 ∧ ∃ v u, commandWalk i s = .ok v u ∧ t = u.respond (.ok v)) ∨
    (s.err = 0 ∧ ∃ c u, commandWalk i s = .error c u ∧ t = u.takeError c) := by
  rcases groupP_or_refusable hi with hp | hr
  · obtain ⟨r, hr⟩ := exec_groupP hp s
    rw [hr s rfl] at h
    cases h
    exact .inl ⟨r, rfl⟩
  · rw [exec_refusable hr] at h
    cases h
    rcases stateful_cases i.wf (commandWalk i) s with ⟨_, e⟩ | ⟨_, _, e⟩ | ⟨_, he, v, u, hm, e⟩ | ⟨_, he, c, u, hm, e⟩
    · exact .inl ⟨_, e⟩
    · exact .inl ⟨_, e⟩
    · exact .inr (.inl ⟨he, v, u, hm, e⟩)
    · exact .inr (.inr ⟨he, c, u, hm, e⟩)

/-- What every instruction other than LOAD leaves unchanged: its walk leads to a state `u` of the same block, related to
the start as its walk keeps, and what follows is the response and, where the walk raised, ERR. -/
theorem exec_frame {R : State → State → Prop} {i : Instr} {s t : State} (hi : i ≠ .load) (h : exec i s = .next t)
    (refl : R s s) (hsame : Keeps sameBlock (commandWalk i)) (hR : Keeps R (commandWalk i)) :
    ∃ u r, sameBlock s u ∧ R s u ∧ (t = u.respond r ∨
      s.err = 0 ∧ ∃ c, r = .error c u.curPos ∧ commandWalk i s = .error c u ∧
        t = (u.withErr (errWord c u.curPos)).respond r) := by
  rcases exec_cases hi h with ⟨r, rfl⟩ | ⟨_, v, u, hm, rfl⟩ | ⟨he, c, u, hm, rfl⟩
  · exact ⟨s, r, rfl, refl, .inl rfl⟩
  · exact ⟨u, _, (hsame s).1 v u hm, (hR s).1 v u hm, .inl rfl⟩
  · have hu := (hsame s).2 c u hm
    have hue : u.err = 0 := by rw [hu]; exact he
    exact ⟨u, _, hu, (hR s).2 c u hm, .inr ⟨he, c, rfl, hm, State.takeError_of_clear hue c⟩⟩

end Sys2Proof.Machine
end

section
/-! SUPPORT. Properties of walks that sequencing and reads keep: what remains to show of such a property is that the
walks which look at the context or write it have it. -/

namespace Sys2Proof.Machine

/-- A property of walks that reads, causes ERR can hold and sequencing are in. A walk may use the state it starts in,
its context apart. -/
structure ClosedUnderReads (P : (α : Type) → Walk α → Prop) : Prop where
  pure     : ∀ {α : Type} (a : α), P α (pure a)
  raise    : ∀ {α : Type} (c : Cause), isRecorded c = true → P α (raise c)
  getState : ∀ {β : Type} (f : State → Walk β), (∀ s c, f (s.withCtx c) = f s) → (∀ s, P β (f s)) →
    P β (getState >>= f)
  readBits : ∀ n, P Nat (readBits n)
  bind     : ∀ {α β : Type} {m : Walk α} {f : α → Walk β}, P α m → (∀ a, P β (f a)) → P β (m >>= f)

namespace ClosedUnderReads

variable {P : (α : Type) → Walk α → Prop} {α β : Type}

/-! ## The combinators -/

theorem branch {p : Prop} [Decidable p] {m m' : Walk α} (hm : P α m) (hm' : P α m') :
    P α (if p then m else m') := by
  split
  · exact hm
  · exact hm'

variable (h : ClosedUnderReads P)
include h

theorem getPos : P Nat getPos := h.getState (fun s => Pure.pure s.curPos) (fun _ _ => rfl) fun _ => h.pure _

theorem whenTrue {m : Walk Unit} (hm : P Unit m) (b : Bool) : P Unit (whenTrue b m) := branch hm (h.pure ())

theorem skipBits (n : Nat) : P Unit (skipBits n) := h.bind (h.readBits n) fun _ => h.pure ()

theorem foldFrom {f : Nat → α → Walk α} (hf : ∀ i a, P α (f i a)) (n : Nat) : ∀ i a, P α (foldFrom f i n a) := by
  induction n with
  | zero => exact fun _ a => h.pure a
  | succ n ih => exact fun i a => h.bind (hf i a) fun a' => ih (i + 1) a'

theorem times {m : Walk Unit} (hm : P Unit m) (n : Nat) : P Unit (times n m) := h.foldFrom (fun _ _ => hm) n 0 ()

theorem forEach {f : β → Walk Unit} (hf : ∀ b, P Unit (f b)) : ∀ l : List β, P Unit (forEach f l)
  | [] => h.pure ()
  | b :: rest => h.bind (hf b) fun _ => forEach hf rest

theorem loopFuel {body : α → Walk (α ⊕ β)} (hb : ∀ a, P _ (body a)) (fuel : Nat) : ∀ a, P β (loopFuel body fuel a) := by
  induction fuel with
  | zero => exact fun _ => h.raise .read rfl
  | succ n ih =>
    refine fun a => h.bind (hb a) fun r => ?_
    cases r with
    | inl a' => exact ih a'
    | inr b => exact h.pure b

theorem whileBits {body : α → Walk (α ⊕ β)} (hb : ∀ a, P _ (body a)) (a : α) : P β (whileBits body a) :=
  h.getState (fun s => Machine.loopFuel body (s.unread + 1) a) (fun _ _ => rfl) fun _ => h.loopFuel hb _ a

/-! ## The walks that read and do not look at the context -/

theorem readBool : P Bool readBool := h.bind (h.readBits 1) fun _ => h.pure _

theorem byteAlign : P _ byteAlign := h.bind h.getPos fun _ => h.bind (h.readBits _) fun _ => h.pure _

theorem descend : ∀ t : Trie, P Nat (descend t)
  | .leaf sym => h.pure sym
  | .absent => h.raise _ rfl
  | .node c0 c1 => h.bind (h.readBits 1) fun _ => branch (descend c0) (descend c1)

theorem huffDecode (t : Nat) : P Nat (huffDecode t) := h.getState _ (fun _ _ => rfl) fun _ => h.descend _

theorem escSeq : P _ escSeq :=
  h.bind (h.whileBits (fun _ => h.bind (h.readBits 1) fun _ => h.pure _) 0) fun _ =>
    h.bind (h.readBits _) fun _ => h.pure _

theorem unitTail (cb : Nat) (v : List Int) : P Unit (unitTail cb v) :=
  h.bind (h.whenTrue (h.forEach (fun _ => h.whenTrue (h.skipBits 1) _) v) _) fun _ =>
    h.whenTrue (h.forEach (fun _ => h.whenTrue (h.bind h.escSeq fun _ => h.pure _) _) v) _

theorem specUnit (cb : Nat) : P _ (specUnit cb) :=
  h.bind h.getPos fun _ => h.bind (h.huffDecode cb) fun _ => h.bind (h.unitTail cb _) fun _ =>
    h.bind h.getPos fun _ => h.pure _

theorem predictorData (maxSfb : Nat) : P Unit (predictorData maxSfb) :=
  h.bind (h.readBits 1) fun _ => h.bind (h.whenTrue (h.skipBits _) _) fun _ => h.times (h.skipBits 1) _

theorem sectionLength (ws : WindowSequence) : P Nat (sectionLength ws) :=
  h.whileBits (fun _ => h.bind (h.readBits _) fun _ => h.pure _) 0

theorem pulseDataBody : P Nat pulseDataBody :=
  h.bind (h.readBits 2) fun _ => h.bind (h.skipBits 6) fun _ =>
    h.bind (h.times (h.bind (h.skipBits 5) fun _ => h.skipBits 4) _) fun _ => h.pure _

theorem tnsFilter (short : Bool) (coefRes : Nat) : P Unit (tnsFilter short coefRes) :=
  h.bind (h.skipBits _) fun _ => h.bind (h.readBits _) fun _ =>
    branch (h.bind (h.skipBits 1) fun _ => h.bind (h.readBits 1) fun _ => h.times (h.skipBits _) _) (h.pure _)

theorem tnsWindow (short : Bool) : P Unit (tnsWindow short) :=
  h.bind (h.readBits _) fun _ =>
    branch (h.bind (h.readBits 1) fun _ => h.times (h.tnsFilter _ _) _) (h.pure _)

theorem gainWindow (alocWidth : Nat) : P Unit (gainWindow alocWidth) :=
  h.bind (h.readBits 3) fun _ => h.times (h.bind (h.skipBits 4) fun _ => h.skipBits _) _

theorem whenFlag {body : Walk Nat} (hb : P Nat body) : P Unit (whenFlag body) :=
  h.bind (h.readBits 1) fun _ => h.whenTrue (h.bind hb fun _ => h.pure _) _

theorem pceMixdown {fields : Walk Unit} (hf : P Unit fields) : P Unit (pceMixdown fields) :=
  h.bind (h.readBits 1) fun _ => h.whenTrue hf _

theorem pceBody : P _ pceBody := by
  have pair : P Unit (do Machine.skipBits 1; Machine.skipBits 4) := h.bind (h.skipBits 1) fun _ => h.skipBits 4
  exact h.bind (h.readBits 4) fun _ => h.bind (h.skipBits 2) fun _ => h.bind (h.skipBits 4) fun _ =>
    h.bind (h.readBits 4) fun _ => h.bind (h.readBits 4) fun _ => h.bind (h.readBits 4) fun _ =>
    h.bind (h.readBits 2) fun _ => h.bind (h.readBits 3) fun _ => h.bind (h.readBits 4) fun _ =>
    h.bind (h.pceMixdown (h.skipBits 4)) fun _ => h.bind (h.pceMixdown (h.skipBits 4)) fun _ =>
    h.bind (h.pceMixdown (h.bind (h.skipBits 2) fun _ => h.skipBits 1)) fun _ =>
    h.bind (h.times pair _) fun _ => h.bind (h.times pair _) fun _ => h.bind (h.times pair _) fun _ =>
    h.bind (h.times (h.skipBits 4) _) fun _ => h.bind (h.times (h.skipBits 4) _) fun _ =>
    h.bind (h.times pair _) fun _ => h.bind h.byteAlign fun _ => h.bind (h.readBits 8) fun _ =>
    h.bind (h.times (h.skipBits 8) _) fun _ => h.pure _

theorem extBody (cnt : Nat) : ∀ e : ExtType, P Unit (extBody cnt e)
  | .fillData => h.bind (h.skipBits 4) fun _ => h.times (h.skipBits 8) _
  | .dynamicRange => h.raise _ rfl
  | .sbrData => h.raise _ rfl
  | .sbrDataCrc => h.raise _ rfl
  | .other _ => h.skipBits _

theorem extPayload (cnt : Nat) : P _ (extPayload cnt) :=
  h.bind (h.readBits 4) fun _ => h.bind (h.extBody cnt _) fun _ => h.pure _

theorem filBody : P Nat filBody :=
  h.bind (h.bind (h.readBits 4) fun _ => branch (h.bind (h.readBits 8) fun _ => h.pure _) (h.pure _)) fun _ =>
    h.bind (h.whileBits (fun _ => branch (h.bind (h.extPayload _) fun _ => h.pure _) (h.pure _)) _) fun _ => h.pure _

end ClosedUnderReads

/-- A property of walks that the walks which look at the context or write it have besides, and the writes of the
dispatch loop: then the walk of every command has it. -/
structure ClosedUnderCommands (P : (α : Type) → Walk α → Prop) : Prop extends ClosedUnderReads P where
  setMark             : P Unit setMark
  setEnded            : P Unit (setDState .ended)
  clearValid          : P Unit (updateCtx clearValid)
  setGain             : ∀ g, P Unit (updateCtx fun c => { c with globalGain := g })
  clearAfter          : ∀ {α : Type} {m : Walk α}, P α m → P α (clearAfter m)
  icsInfoBody         : P Unit icsInfoBody
  icsInfo             : P Value (commandWalk .icsInfo)
  sectionDataBody     : P Unit sectionDataBody
  sectionData         : P Value (commandWalk .sectionData)
  scaleFactorDataBody : P Nat scaleFactorDataBody
  tnsDataBody         : P Nat tnsDataBody
  gainControlDataBody : P Nat gainControlDataBody
  spectralDataBody    : P _ spectralDataBody

namespace ClosedUnderCommands

open ClosedUnderReads (branch)

variable {P : (α : Type) → Walk α → Prop} {α : Type} (h : ClosedUnderCommands P)
include h

theorem icsBody : P _ icsBody :=
  h.bind h.clearValid fun _ => h.bind h.getPos fun _ => h.bind (h.readBits 8) fun _ => h.bind (h.setGain _) fun _ =>
    h.bind h.icsInfoBody fun _ => h.bind h.sectionDataBody fun _ => h.bind h.scaleFactorDataBody fun _ =>
    h.bind (h.whenFlag h.pulseDataBody) fun _ => h.bind (h.whenFlag h.tnsDataBody) fun _ =>
    h.bind (h.whenFlag h.gainControlDataBody) fun _ => h.bind h.spectralDataBody fun _ =>
    h.bind h.getPos fun _ => h.pure _

theorem sceBody : P Nat sceBody :=
  h.bind (h.readBits 4) fun _ => h.bind (h.clearAfter h.icsBody) fun _ => h.pure _

theorem takeRecord : P _ takeRecord :=
  h.getState _ (fun _ _ => rfl) fun _ => h.bind h.setMark fun _ => h.pure _

theorem recordElement (id : Nat) {body : Walk α} (hb : P α body) : P _ (recordElement id body) :=
  h.bind hb fun _ => h.bind h.takeRecord fun _ => h.pure _

theorem skipElement (id : Nat) : P _ (skipElement id) := h.bind h.setMark fun _ => h.pure _

theorem elementArm : ∀ e : ElementId, P _ (elementArm e)
  | .sce => h.recordElement 0 h.sceBody
  | .cpe => h.skipElement 1
  | .cce => h.skipElement 2
  | .lfe => h.skipElement 3
  | .dse => h.skipElement 4
  | .pce => h.recordElement 5 h.pceBody
  | .fil => h.recordElement 6 h.filBody
  | .endId => h.bind h.takeRecord fun _ => h.bind h.setEnded fun _ => h.pure _

theorem elementStepBody : P _ elementStepBody :=
  h.getState _ (fun _ _ => rfl) fun _ => branch (h.pure _)
    (branch (h.bind h.setEnded fun _ => h.pure _) (h.bind (h.readBits 3) fun _ => h.elementArm _))

theorem runFrameBody : P _ runFrameBody :=
  h.whileBits (fun _ => h.bind h.elementStepBody fun _ => h.pure _) []

/-- The walk of every command has a property that is closed under commands. -/
theorem commandWalk (i : Instr) : P Value (commandWalk i) := by
  cases i with
  | readbits n => exact h.bind (h.readBits n) fun _ => h.pure _
  | readbool => exact h.bind h.readBool fun _ => h.pure _
  | bytealign => exact h.bind h.byteAlign fun _ => h.pure _
  | isempty => exact h.getState _ (fun _ _ => rfl) fun _ => h.pure _
  | consumeArray => exact h.getState _ (fun _ _ => rfl) fun _ => h.pure _
  | consumeClear => exact h.bind h.setMark fun _ => h.pure _
  | huffDecode t => exact h.bind (h.huffDecode t) fun _ => h.pure _
  | specUnit cb => exact h.bind (h.specUnit cb) fun _ => h.pure _
  | escSeq => exact h.bind h.escSeq fun _ => h.pure _
  | icsInfo => exact h.icsInfo
  | sectionData => exact h.sectionData
  | scaleFactorData => exact h.bind h.scaleFactorDataBody fun _ => h.pure _
  | pulseData => exact h.bind h.pulseDataBody fun _ => h.pure _
  | tnsData => exact h.bind h.tnsDataBody fun _ => h.pure _
  | gainControlData => exact h.bind h.gainControlDataBody fun _ => h.pure _
  | spectralData => exact h.bind h.spectralDataBody fun _ => h.pure _
  | ics cw => exact branch (h.raise _ rfl) (h.bind h.icsBody fun _ => h.pure _)
  | sce => exact h.bind h.sceBody fun _ => h.pure _
  | pce => exact h.bind h.pceBody fun _ => h.pure _
  | fil => exact h.bind h.filBody fun _ => h.pure _
  | extPayload cnt => exact h.bind (h.extPayload cnt) fun _ => h.pure _
  | elementStep => exact h.bind h.elementStepBody fun _ => h.pure _
  | runFrame => exact h.bind h.runFrameBody fun _ => h.pure _
  | idSce => exact h.bind (h.elementArm _) fun _ => h.pure _
  | idCpe => exact h.bind (h.elementArm _) fun _ => h.pure _
  | idCce => exact h.bind (h.elementArm _) fun _ => h.pure _
  | idLfe => exact h.bind (h.elementArm _) fun _ => h.pure _
  | idDse => exact h.bind (h.elementArm _) fun _ => h.pure _
  | idPce => exact h.bind (h.elementArm _) fun _ => h.pure _
  | idFil => exact h.bind (h.elementArm _) fun _ => h.pure _
  | idEnd => exact h.bind (h.elementArm _) fun _ => h.pure _
  | extFillData cnt => exact h.bind (h.extBody cnt _) fun _ => h.pure _
  | extDynamicRange => exact h.raise _ rfl
  | extSbrData => exact h.raise _ rfl
  | extSbrDataCrc => exact h.raise _ rfl
  | extOther code cnt => exact h.bind (h.extBody cnt _) fun _ => h.pure _
  | load => exact h.pure _
  | cbValue cb idx => exact h.pure _
  | adtsParse => exact h.pure _
  | adtsGenerate => exact h.pure _

end ClosedUnderCommands

/-! ## A relation of start and end that every write is in -/

/-- Reads, sequencing and a look at the state keep a relation that a run of reads is in. -/
theorem Keeps.closedUnderReads {R : State → State → Prop} (h : Steps R) : ClosedUnderReads fun _ m => Keeps R m where
  pure a := .readsForward h (.pure a)
  raise c _ := .readsForward h (.raise c)
  getState _ _ hf := .bind h (.readsForward h .getState) hf
  readBits n := .readsForward h (.readBits n)
  bind := .bind h

/-- Every command keeps a relation that each of the block's writes is in. -/
theorem commandWalk_keeps {R : State → State → Prop} (h : StepsLoop R) (i : Instr) : Keeps R (commandWalk i) := by
  have hr := Keeps.closedUnderReads h.toSteps
  have getCtx : Keeps R getCtx := .readsForward h.toSteps .getCtx
  exact ClosedUnderCommands.commandWalk (P := fun _ m => Keeps R m)
    { toClosedUnderReads := hr
      setMark := setMark_keeps h
      setEnded := setDState_ended_keeps h
      clearValid := .updateCtx h.toStepsCtx _
      setGain := fun _ => .updateCtx h.toStepsCtx _
      clearAfter := .clearAfter h.toStepsCtx
      icsInfoBody := icsInfoBody_keeps h.toStepsCtx
      icsInfo := hr.bind (icsInfoBody_keeps h.toStepsCtx) fun _ => hr.bind getCtx fun _ => hr.pure _
      sectionDataBody := sectionDataBody_keeps h.toStepsCtx
      sectionData := hr.bind (sectionDataBody_keeps h.toStepsCtx) fun _ => hr.bind getCtx fun _ => hr.pure _
      scaleFactorDataBody := .readsForward h.toSteps scaleFactorDataBody_readsForward
      tnsDataBody := .readsForward h.toSteps tnsDataBody_readsForward
      gainControlDataBody := .readsForward h.toSteps gainControlDataBody_readsForward
      spectralDataBody := .readsForward h.toSteps spectralDataBody_readsForward } i

end Sys2Proof.Machine
end

section
/-! SUPPORT. Which causes a command can raise: none that ERR cannot hold (R300 to R302). -/

namespace Sys2Proof.Machine

/-- Every cause the walk raises is one that ERR can hold. -/
def RaisesRecorded {α : Type} (m : Walk α) : Prop := ∀ s c t, m s = .error c t → isRecorded c = true

theorem raisesRecorded_readBits (n : Nat) : RaisesRecorded (readBits n) := fun s c t h => by
  by_cases hn : n ≤ s.unread
  · rw [readBits_enough hn] at h; cases h
  · rw [readBits_short (Nat.not_le.mp hn)] at h; cases h; rfl

theorem raisesRecorded_bind {α β : Type} {m : Walk α} {f : α → Walk β} (hm : RaisesRecorded m)
    (hf : ∀ a, RaisesRecorded (f a)) : RaisesRecorded (m >>= f) := fun s c t h => by
  rcases walk_bind_eq_error.mp h with h | ⟨a, u, _, h⟩
  · exact hm s c t h
  · exact hf a u c t h

/-- A walk that never raises. -/
theorem raisesRecorded_of_ok {α : Type} {m : Walk α} (h : ∀ s, ∃ a t, m s = .ok a t) : RaisesRecorded m :=
  fun s c t he => by
    obtain ⟨a, u, hm⟩ := h s
    rw [hm] at he
    cases he

theorem raisesRecorded_reads : ClosedUnderReads fun _ m => RaisesRecorded m where
  pure _ := raisesRecorded_of_ok fun _ => ⟨_, _, rfl⟩
  raise _ hc _ _ _ h := by cases h; exact hc
  getState _ _ hf := raisesRecorded_bind (raisesRecorded_of_ok fun _ => ⟨_, _, rfl⟩) hf
  readBits := raisesRecorded_readBits
  bind := raisesRecorded_bind

theorem raisesRecorded_getCtx : RaisesRecorded getCtx := raisesRecorded_of_ok fun _ => ⟨_, _, rfl⟩

theorem raisesRecorded_updateCtx (f : Ctx → Ctx) : RaisesRecorded (updateCtx f) :=
  raisesRecorded_of_ok fun _ => ⟨_, _, rfl⟩

theorem raisesRecorded_requireValid (flag : Ctx → Bool) : RaisesRecorded (requireValid flag) := fun s c t h => by
  cases hf : flag s.ctx with
  | true => rw [requireValid_set hf] at h; cases h
  | false => rw [requireValid_clear hf] at h; cases h; rfl

theorem raisesRecorded_clearAfter {α : Type} {m : Walk α} (hm : RaisesRecorded m) : RaisesRecorded (clearAfter m) :=
  fun s c t h => by
    unfold clearAfter at h
    cases e : m s with
    | ok a u => rw [e] at h; cases h
    | error d u => rw [e] at h; cases h; exact hm s _ u e

section walks
open ClosedUnderReads (branch)

theorem raisesRecorded_icsInfoBody : RaisesRecorded icsInfoBody := by
  have h := raisesRecorded_reads
  have u := raisesRecorded_updateCtx
  have short : RaisesRecorded icsInfoShort :=
    h.bind (h.readBits 4) fun _ => h.bind (u _) fun _ => branch (h.raise _ rfl)
      (h.bind (h.readBits 7) fun _ => u _)
  have long : RaisesRecorded icsInfoLong :=
    h.bind (h.readBits 6) fun _ => h.bind (u _) fun _ => branch (h.raise _ rfl)
      (h.bind (u _) fun _ => h.bind (h.readBits 1) fun _ => h.bind (u _) fun _ =>
        h.bind (h.whenTrue (h.predictorData _) _) fun _ => u _)
  exact h.bind (u _) fun _ => h.bind (h.readBits 1) fun _ => h.bind (u _) fun _ => h.bind (h.readBits 2) fun _ =>
    h.bind (u _) fun _ => h.bind (h.readBits 1) fun _ => h.bind (u _) fun _ => h.bind (branch short long) fun _ =>
    h.bind (u _) fun _ => u _

theorem raisesRecorded_sectionDataBody : RaisesRecorded sectionDataBody := by
  have h := raisesRecorded_reads
  have u := raisesRecorded_updateCtx
  have pass (g k : Nat) : RaisesRecorded (sectionPass g k) :=
    h.bind raisesRecorded_getCtx fun _ => branch
      (h.bind (h.readBits 4) fun _ => h.bind (h.sectionLength _) fun _ => branch (h.raise _ rfl)
        (h.bind (h.whenTrue (u _) _) fun _ => h.pure _))
      (h.pure _)
  have group (g : Nat) : RaisesRecorded (sectionGroup g) :=
    h.bind (u _) fun _ => h.bind (h.whileBits (pass g) 0) fun _ => u _
  exact h.bind (raisesRecorded_requireValid _) fun _ => h.bind (u _) fun _ => h.bind raisesRecorded_getCtx fun _ =>
    h.bind (h.foldFrom (fun g _ => group g) _ _ _) fun _ => u _

theorem raisesRecorded_scaleFactorDataBody : RaisesRecorded scaleFactorDataBody := by
  have h := raisesRecorded_reads
  exact h.bind (raisesRecorded_requireValid _) fun _ => h.bind raisesRecorded_getCtx fun _ =>
    h.foldFrom (fun _ n => h.foldFrom (fun _ _ => h.bind raisesRecorded_getCtx fun _ =>
      branch (h.pure _) (h.bind (h.huffDecode 0) fun _ => h.pure _)) _ 0 n) _ 0 0

theorem raisesRecorded_tnsDataBody : RaisesRecorded tnsDataBody := by
  have h := raisesRecorded_reads
  exact h.bind (raisesRecorded_requireValid _) fun _ => h.bind raisesRecorded_getCtx fun _ => h.bind h.getPos fun _ =>
    h.bind (h.times (h.tnsWindow _) _) fun _ => h.bind h.getPos fun _ => h.pure _

theorem raisesRecorded_gainControlDataBody : RaisesRecorded gainControlDataBody := by
  have h := raisesRecorded_reads
  exact h.bind (raisesRecorded_requireValid _) fun _ => h.bind raisesRecorded_getCtx fun _ => h.bind h.getPos fun _ =>
    h.bind (h.readBits 2) fun _ => h.bind (h.times (h.forEach h.gainWindow _) _) fun _ =>
    h.bind h.getPos fun _ => h.pure _

theorem raisesRecorded_spectralDataBody : RaisesRecorded spectralDataBody := by
  have h := raisesRecorded_reads
  exact h.bind (raisesRecorded_requireValid _) fun _ => h.bind raisesRecorded_getCtx fun _ => h.bind h.getPos fun _ =>
    h.bind (h.foldFrom (fun _ _ => h.foldFrom (fun _ _ => branch
      (h.foldFrom (fun _ _ => h.bind (h.specUnit _) fun _ => h.pure _) _ _ _) (h.pure _)) _ _ _) _ _ _) fun _ =>
    h.bind h.getPos fun _ => h.pure _

end walks

/-- No command raises a cause that ERR cannot hold. -/
theorem commandWalk_raisesRecorded (i : Instr) : RaisesRecorded (commandWalk i) := by
  have h := raisesRecorded_reads
  exact ClosedUnderCommands.commandWalk (P := fun _ m => RaisesRecorded m)
    { toClosedUnderReads := h
      setMark := raisesRecorded_of_ok fun _ => ⟨_, _, rfl⟩
      setEnded := raisesRecorded_of_ok fun _ => ⟨_, _, rfl⟩
      clearValid := raisesRecorded_updateCtx _
      setGain := fun _ => raisesRecorded_updateCtx _
      clearAfter := raisesRecorded_clearAfter
      icsInfoBody := raisesRecorded_icsInfoBody
      icsInfo := h.bind raisesRecorded_icsInfoBody fun _ => h.bind raisesRecorded_getCtx fun _ => h.pure _
      sectionDataBody := raisesRecorded_sectionDataBody
      sectionData := h.bind raisesRecorded_sectionDataBody fun _ => h.bind raisesRecorded_getCtx fun _ => h.pure _
      scaleFactorDataBody := raisesRecorded_scaleFactorDataBody
      tnsDataBody := raisesRecorded_tnsDataBody
      gainControlDataBody := raisesRecorded_gainControlDataBody
      spectralDataBody := raisesRecorded_spectralDataBody } i

end Sys2Proof.Machine
end

section
/-! PROOFS. The cursor, the buffer, ERR and the frames (R21 to R31, R301). -/

namespace Sys2Proof.Machine

open Sys2Proof.Grammar

/-! ## The frame of every instruction but LOAD -/

/-- HROM, INBUF and CUR_LEN stay. -/
theorem exec_keeps_stream {i : Instr} {s t : State} (hi : i ≠ .load) (h : exec i s = .next t) :
    t.hrom = s.hrom ∧ t.curLen = s.curLen ∧ t.inbuf = s.inbuf := by
  have hk := commandWalk_keeps sameBlock_steps i
  obtain ⟨u, r, hu, -, rfl | ⟨-, c, -, -, rfl⟩⟩ := exec_frame (R := sameBlock) hi h rfl hk hk
  · rw [hu]; exact ⟨rfl, rfl, rfl⟩
  · rw [hu]; exact ⟨rfl, rfl, rfl⟩

/-- Settles O16: a walk keeps the block, and LOAD keeps HROM. -/
theorem onlyLoadWritesTheBuffer : Obligations.OnlyLoadWritesTheBuffer := by
  intro i s t h
  by_cases hi : i = .load
  · subst hi
    refine ⟨?_, fun hne => absurd rfl hne⟩
    rcases exec_load_cases h with ⟨-, rfl⟩ | rfl
    · rfl
    · rfl
  · obtain ⟨hh, hl, hb⟩ := exec_keeps_stream hi h
    exact ⟨hh, fun _ => ⟨hl, fun a => by rw [hb]⟩⟩

/-- The cursor moves forward, and not past the length. -/
def cursorForward (s t : State) : Prop :=
  t.curLen = s.curLen ∧ s.curPos ≤ t.curPos ∧ (s.curPos ≤ s.curLen → t.curPos ≤ s.curLen)

theorem cursorForward_steps : StepsLoop cursorForward where
  trans s t u := by unfold cursorForward; omega
  advance s n hn := by
    simp only [State.unread] at hn
    exact ⟨rfl, Nat.le_add_right _ _, fun h => by simp only [State.advance_curPos]; omega⟩
  ctx _ _ := ⟨rfl, Nat.le_refl _, id⟩
  mark _ := ⟨rfl, Nat.le_refl _, id⟩
  ended _ := ⟨rfl, Nat.le_refl _, id⟩

/-- Settles O17: every write of a walk moves the cursor forward within the length. -/
theorem cursorMovesForwardOnly : Obligations.CursorMovesForwardOnly := by
  intro i s t hi h
  obtain ⟨u, r, -, ⟨-, hpos, hlen⟩, rfl | ⟨-, c, -, -, rfl⟩⟩ := exec_frame hi h (cursorForward_steps.refl s)
    (commandWalk_keeps sameBlock_steps i) (commandWalk_keeps cursorForward_steps i)
  · exact ⟨hpos, hlen⟩
  · exact ⟨hpos, hlen⟩

/-- DSTATE stays or becomes ENDED. -/
def dstateEnds (s t : State) : Prop := t.dstate = s.dstate ∨ t.dstate = .ended

theorem dstateEnds_steps : StepsLoop dstateEnds where
  trans s t u h1 h2 := by
    rcases h2 with h2 | h2
    · unfold dstateEnds; rw [h2]; exact h1
    · exact .inr h2
  advance _ _ _ := .inl rfl
  ctx _ _ := .inl rfl
  mark _ := .inl rfl
  ended _ := .inr rfl

/-- Settles O21: the walks of the loop's commands keep the block, and the only DSTATE they write is ENDED. -/
theorem dispatchFrame : Obligations.DispatchFrame := by
  intro i s t hd h
  have hi : i ≠ .load := fun e => by subst e; cases hd
  obtain ⟨u, r, hu, hds, ht⟩ := exec_frame hi h (.inl rfl) (commandWalk_keeps sameBlock_steps i)
    (commandWalk_keeps dstateEnds_steps i)
  have hb := (exec_keeps_stream hi h).2.2
  refine ⟨r, ?_⟩
  obtain rfl | ⟨he, c, rfl, -, rfl⟩ := ht
  · refine ⟨?_, fun a => by rw [hb], .inl ?_, hds⟩
    · rw [hu]; rfl
    · rw [hu]; rfl
  · refine ⟨?_, fun a => by rw [hb], .inr ⟨he, c, _, rfl⟩, hds⟩
    rw [hu]; rfl

/-! ## The commands that only read -/

/-- The walks of the commands that only read do nothing but advance the cursor. -/
theorem commandWalk_readsForward {i : Instr} (h : readsOnly i = true) : ReadsForward (commandWalk i) := by
  cases i with
  | readbits n => exact (ReadsForward.readBits n).bind fun _ => .pure _
  | readbool => exact readBool_readsForward.bind fun _ => .pure _
  | bytealign => exact byteAlign_readsForward.bind fun _ => .pure _
  | huffDecode t => exact (huffDecode_readsForward t).bind fun _ => .pure _
  | specUnit cb => exact (specUnit_readsForward cb).bind fun _ => .pure _
  | escSeq => exact escSeq_readsForward.bind fun _ => .pure _
  | scaleFactorData => exact scaleFactorDataBody_readsForward.bind fun _ => .pure _
  | pulseData => exact pulseDataBody_readsForward.bind fun _ => .pure _
  | tnsData => exact tnsDataBody_readsForward.bind fun _ => .pure _
  | gainControlData => exact gainControlDataBody_readsForward.bind fun _ => .pure _
  | spectralData => exact spectralDataBody_readsForward.bind fun _ => .pure _
  | pce => exact pceBody_readsForward.bind fun _ => .pure _
  | fil => exact filBody_readsForward.bind fun _ => .pure _
  | extPayload cnt => exact (extPayload_readsForward cnt).bind fun _ => .pure _
  | extFillData cnt => exact (extBody_readsForward cnt _).bind fun _ => .pure _
  | extDynamicRange => exact .raise _
  | extSbrData => exact .raise _
  | extSbrDataCrc => exact .raise _
  | extOther code cnt => exact (extBody_readsForward cnt _).bind fun _ => .pure _
  | _ => cases h

/-- Nothing but the cursor differs. -/
def sameButCursor (s t : State) : Prop := t = { s with curPos := t.curPos }

/-- The end of a walk that only reads is the start with another cursor. -/
theorem ReadsForward.keeps_sameButCursor {α : Type} {m : Walk α} (hm : ReadsForward m) : Keeps sameButCursor m :=
  .readsForward { trans := fun _ _ _ h1 h2 => by rw [sameButCursor, h2, h1], advance := fun _ _ _ => rfl } hm

/-- Settles O19: the walk of a reading command only advances the cursor, so only the response and ERR are left to
change. -/
theorem readingCommandsFrame : Obligations.ReadingCommandsFrame := by
  intro i s t hr h
  have hi : i ≠ .load := fun e => by subst e; cases hr
  obtain ⟨u, r, -, hu, ht⟩ := exec_frame (R := sameButCursor) hi h rfl
    (commandWalk_keeps sameBlock_steps i) (commandWalk_readsForward hr).keeps_sameButCursor
  have hb := (exec_keeps_stream hi h).2.2
  refine ⟨r, ?_⟩
  obtain rfl | ⟨he, c, rfl, -, rfl⟩ := ht
  · refine ⟨?_, fun a => by rw [hb], .inl ?_⟩
    · rw [hu]; rfl
    · rw [hu]; rfl
  · refine ⟨?_, fun a => by rw [hb], .inr ⟨he, c, _, rfl⟩⟩
    rw [hu]; rfl

/-! ## ERR -/

/-- The number ERR holds: the position above 12 bits, the cause above 4, the class below (R25). -/
theorem errWord_toNat (c : Cause) {pos : Nat} (h : pos < 2 ^ 20) :
    (errWord c pos).toNat = pos * 4096 + (causeCode c).toNat * 16 + (causeClass c).toNat := by
  have hk := (causeCode c).isLt
  have hc := (causeClass c).isLt
  rw [errWord, BitVec.toNat_append, BitVec.toNat_append, BitVec.toNat_ofNat, Nat.mod_eq_of_lt h,
    ← Nat.shiftLeft_add_eq_or_of_lt hk, ← Nat.shiftLeft_add_eq_or_of_lt hc, Nat.shiftLeft_eq, Nat.shiftLeft_eq]
  omega

/-- A cause is told apart by its class and its code (R300). -/
theorem cause_eq_of_codes {c d : Cause} (h : causeClass c = causeClass d) (h' : causeCode c = causeCode d) : c = d := by
  revert h h'
  cases c <;> cases d <;> decide

/-- No cause has class 0. -/
theorem causeClass_pos (c : Cause) : 0 < (causeClass c).toNat := by cases c <;> decide

/-- Settles O11: each field of ERR is a digit of its number. -/
theorem errorRegisterFields : Obligations.ErrorRegisterFields := by
  refine ⟨fun s c pos hpos he => ?_, fun c d => cause_eq_of_codes⟩
  have hn := errWord_toNat c hpos
  rw [← he] at hn
  have hk := (causeCode c).isLt
  have hc := (causeClass c).isLt
  have h0 := causeClass_pos c
  refine ⟨?_, ?_, ?_, fun hz => ?_, hn⟩
  · apply BitVec.eq_of_toNat_eq
    rw [State.errClass, BitVec.extractLsb'_toNat, hn, Nat.shiftRight_eq_div_pow]; omega
  · apply BitVec.eq_of_toNat_eq
    rw [State.errCause, BitVec.extractLsb'_toNat, hn, Nat.shiftRight_eq_div_pow]; omega
  · rw [State.errPos, BitVec.extractLsb'_toNat, hn, Nat.shiftRight_eq_div_pow]; omega
  · rw [hz, show (0 : BitVec 32).toNat = 0 from rfl] at hn; omega

/-! ## Reset -/

/-- Settles O7: the block's registers are those of the reset state, whose fields are written out. -/
theorem resetClearsTheBlock : Obligations.ResetClearsTheBlock := by
  intro s rest h
  refine ⟨s.resetBlock rest, by simp only [step, h], ⟨rfl, rfl, rfl, rfl, rfl, rfl, rfl⟩, rfl, rfl, rfl,
    rfl, rfl, rfl, rfl, rfl, rfl, rfl⟩

/-- The block is sound after any reset. -/
theorem resetBlock_sound (s : State) (rest : List HostInput) : (s.resetBlock rest).sound :=
  ⟨⟨rfl, fun _ hx => nomatch hx⟩, ⟨Nat.le_refl _, Nat.le_refl _, Nat.zero_le _, rfl⟩, .inl rfl⟩

/-- Reset clears both valid flags, so the context promises nothing. -/
theorem resetBlock_ctxOk (s : State) (rest : List HostInput) : (s.resetBlock rest).ctxOk :=
  ⟨fun h => (nomatch h), fun h => nomatch h⟩

/-- Settles O13: the reset state is what a reset makes of itself. -/
theorem resetIsSound : Obligations.ResetIsSound :=
  ⟨resetBlock_sound State.reset [], resetBlock_ctxOk State.reset []⟩

/-! ## Soundness -/

/-- A walk that starts with a cursor in its bounds ends with one. -/
theorem cursorOk_steps : StepsLoop fun s t => s.cursorOk → t.cursorOk where
  trans _ _ _ h1 h2 h := h2 (h1 h)
  advance s n hn := by
    simp only [State.unread] at hn
    simp only [State.cursorOk, State.advance_curMark, State.advance_curPos, State.advance_curLen]; omega
  ctx _ _ h := h
  mark s := by
    simp only [State.cursorOk, State.markHere_curMark, State.markHere_curPos, State.markHere_curLen]; omega
  ended _ h := h

/-- LOAD of bytes that fit starts a sound block. -/
theorem loadState_sound {s : State} {bytes : List Byte} (h : s.sound) (hb : bytes.length ≤ inbufBytes) :
    (loadState s bytes).sound := by
  obtain ⟨⟨hwf, hlt⟩, -, -⟩ := h
  refine ⟨⟨Memory.wf_writeBytes bytes _ 0 hwf, ?_⟩, ?_, .inl rfl⟩
  · exact Memory.mem_writeBytes_lt bytes _ 0 _ hlt (by omega)
  · simp only [State.cursorOk, loadState, State.withCtx_curMark, State.withCtx_curPos, State.withCtx_curLen,
      State.withDState_curMark, State.withDState_curPos, State.withDState_curLen, State.clearError_curMark,
      State.clearError_curPos, State.clearError_curLen, State.withStream_curMark, State.withStream_curPos,
      State.withStream_curLen]
    omega

/-- Every instruction keeps a sound block sound. -/
theorem exec_sound {i : Instr} {s t : State} (hs : s.sound) (h : exec i s = .next t) : t.sound := by
  by_cases hi : i = .load
  · subst hi
    rcases exec_load_cases h with ⟨hb, rfl⟩ | rfl
    · exact loadState_sound hs hb
    · exact hs
  · obtain ⟨hbuf, hcur, herr⟩ := hs
    have hb := (exec_keeps_stream hi h).2.2
    refine ⟨by unfold State.bufferOk; rw [hb]; exact hbuf, ?_⟩
    rcases exec_cases hi h with ⟨r, rfl⟩ | ⟨he, v, u, hm, rfl⟩ | ⟨he, c, u, hm, rfl⟩
    · exact ⟨hcur, herr⟩
    · have hu := (commandWalk_keeps sameBlock_steps i s).1 v u hm
      exact ⟨(commandWalk_keeps cursorOk_steps i s).1 v u hm hcur, .inl (by rw [hu]; exact he)⟩
    · have hu := (commandWalk_keeps sameBlock_steps i s).2 c u hm
      have hue : u.err = 0 := by rw [hu]; exact he
      rw [State.takeError_of_clear hue]
      exact ⟨(commandWalk_keeps cursorOk_steps i s).2 c u hm hcur,
        .inr ⟨c, commandWalk_raisesRecorded i s c u hm, rfl⟩⟩

/-- What each step does: it waits, resets, runs the command it has taken, or reports the word. -/
theorem step_cases {s t : State} (h : step s = .next t) :
    t = s ∨ (∃ rest, t = s.resetBlock rest) ∨ (∃ i data rest, exec i (s.accept data rest) = .next t) ∨
    ∃ data rest r, t = (s.accept data rest).respond r := by
  unfold step at h
  split at h
  · cases h; exact .inl rfl
  · cases h; exact .inr (.inl ⟨_, rfl⟩)
  · split at h
    · exact .inr (.inr (.inl ⟨_, _, _, h⟩))
    · rename_i e _
      cases h
      cases e <;> exact .inr (.inr (.inr ⟨_, _, _, rfl⟩))

/-- Settles O14: reset is sound, and each instruction keeps the state it takes the command in sound. -/
theorem stepKeepsTheBlockSound : Obligations.StepKeepsTheBlockSound := by
  intro s t hs h
  rcases step_cases h with rfl | ⟨rest, rfl⟩ | ⟨i, data, rest, he⟩ | ⟨data, rest, r, rfl⟩
  · exact hs
  · exact resetBlock_sound s rest
  · exact exec_sound (s := s.accept data rest) hs he
  · exact hs

/-! ## A context that is not valid -/

/-- A walk that raises where it starts, while no error is pending, changes ERR and the response only. -/
theorem exec_of_raise {i : Instr} {s : State} {c : Cause} (hr : refusable i = true) (hw : i.wf = true)
    (he : s.err = 0) (hm : commandWalk i s = .error c s) :
    exec i s = .next ((s.withErr (errWord c s.curPos)).respond (.error c s.curPos)) := by
  rw [exec_refusable hr, hw, stateful_run he, runWalk_error hm, State.takeError_of_clear he]

/-- Settles O31: the check of the flag is the first act of each of the five walks. -/
theorem unwrittenContextRaises : Obligations.UnwrittenContextRaises := by
  rintro i s he (⟨hv, rfl | rfl | rfl⟩ | ⟨hv, rfl | rfl⟩)
  · exact exec_of_raise rfl rfl he (walk_bind_error (walk_bind_error (requireValid_clear hv)))
  · exact exec_of_raise rfl rfl he (walk_bind_error (walk_bind_error (requireValid_clear hv)))
  · exact exec_of_raise rfl rfl he (walk_bind_error (walk_bind_error (requireValid_clear hv)))
  · exact exec_of_raise rfl rfl he (walk_bind_error (walk_bind_error (requireValid_clear hv)))
  · exact exec_of_raise rfl rfl he (walk_bind_error (walk_bind_error (requireValid_clear hv)))

end Sys2Proof.Machine
end

section
/-! SUPPORT. Walks over a context they do not look at: reads that end alike in every context, and the writes of ICS_INFO
as one function of the context (R171 to R175). -/

namespace Sys2Proof.Machine

/-- The walk only reads, and ends alike whatever the context is. -/
def ReadsStream {α : Type} (m : Walk α) : Prop :=
  ∀ s : State, ∃ n, n ≤ s.unread ∧
    ((∃ a, ∀ c, m (s.withCtx c) = .ok a ((s.advance n).withCtx c)) ∨
      ∃ e, ∀ c, m (s.withCtx c) = .error e ((s.advance n).withCtx c))

theorem readsStream_readBits (n : Nat) : ReadsStream (readBits n) := fun s => by
  by_cases h : n ≤ s.unread
  · exact ⟨n, h, .inl ⟨bitsToNat (streamBits s.inbuf s.curPos n), fun c => readBits_enough (s := s.withCtx c) h⟩⟩
  · exact ⟨0, Nat.zero_le _, .inr ⟨_, fun c => readBits_short (s := s.withCtx c) (Nat.not_le.mp h)⟩⟩

theorem readsStream_bind {α β : Type} {m : Walk α} {f : α → Walk β} (hm : ReadsStream m)
    (hf : ∀ a, ReadsStream (f a)) : ReadsStream (m >>= f) := fun s => by
  obtain ⟨n, hn, ⟨a, ha⟩ | ⟨e, he⟩⟩ := hm s
  · obtain ⟨k, hk, hr⟩ := hf a (s.advance n)
    rw [State.unread_advance] at hk
    simp only [State.advance_advance] at hr
    refine ⟨n + k, by omega, ?_⟩
    obtain ⟨b, hb⟩ | ⟨e, he⟩ := hr
    · exact .inl ⟨b, fun c => by rw [walk_bind_ok (ha c), hb]⟩
    · exact .inr ⟨e, fun c => by rw [walk_bind_ok (ha c), he]⟩
  · exact ⟨n, hn, .inr ⟨e, fun c => walk_bind_error (he c)⟩⟩

theorem readsStream_reads : ClosedUnderReads fun _ m => ReadsStream m where
  pure a _ := ⟨0, Nat.zero_le _, .inl ⟨a, fun _ => rfl⟩⟩
  raise e _ _ := ⟨0, Nat.zero_le _, .inr ⟨e, fun _ => rfl⟩⟩
  getState f hc hf s := by
    have h : ∀ c, (getState >>= f) (s.withCtx c) = f s (s.withCtx c) := fun c => by
      rw [walk_bind_ok (walk_getState _), hc]
    simp only [h]
    exact hf s s
  readBits := readsStream_readBits
  bind := readsStream_bind

/-- The valid flags and global_gain are the same. -/
def sameHead (c d : Ctx) : Prop := d.vInfo = c.vInfo ∧ d.vSect = c.vSect ∧ d.globalGain = c.globalGain

theorem sameHead.trans {c d e : Ctx} : sameHead c d → sameHead d e → sameHead c e :=
  fun ⟨h1, h2, h3⟩ ⟨h4, h5, h6⟩ => ⟨h4.trans h1, h5.trans h2, h6.trans h3⟩

/-- The walk reads, and where it succeeds it has applied one function of the context, alike for every context; where it
raises, it has left the flags and global_gain alone. -/
def Writes (Q : (Ctx → Ctx) → Prop) (m : Walk Unit) : Prop :=
  ∀ s : State, ∃ n, n ≤ s.unread ∧
    ((∃ f, Q f ∧ ∀ c, m (s.withCtx c) = .ok () ((s.advance n).withCtx (f c))) ∨
      ∃ e, ∀ c, ∃ d, sameHead c d ∧ m (s.withCtx c) = .error e ((s.advance n).withCtx d))

theorem Writes.update {Q : (Ctx → Ctx) → Prop} {g : Ctx → Ctx} (h : Q g) : Writes Q (updateCtx g) :=
  fun _ => ⟨0, Nat.zero_le _, .inl ⟨g, h, fun _ => rfl⟩⟩

theorem Writes.raise (Q : (Ctx → Ctx) → Prop) (e : Cause) : Writes Q (raise e) :=
  fun _ => ⟨0, Nat.zero_le _, .inr ⟨e, fun c => ⟨c, ⟨rfl, rfl, rfl⟩, rfl⟩⟩⟩

/-- A walk whose write leaves the flags and global_gain alone, then another. -/
theorem Writes.andThen {Q Q' : (Ctx → Ctx) → Prop} {m k : Walk Unit} (hm : Writes Q m)
    (hk : ∀ f, Q f → (∀ c, sameHead c (f c)) ∧ Writes (fun g => Q' (g ∘ f)) k) : Writes Q' (m >>= fun _ => k) :=
  fun s => by
    obtain ⟨n, hn, ⟨f, hf, h⟩ | ⟨e, he⟩⟩ := hm s
    · obtain ⟨hsame, hw⟩ := hk f hf
      obtain ⟨j, hj, hr⟩ := hw (s.advance n)
      rw [State.unread_advance] at hj
      simp only [State.advance_advance] at hr
      refine ⟨n + j, by omega, ?_⟩
      obtain ⟨g, hg, h'⟩ | ⟨e, he⟩ := hr
      · exact .inl ⟨g ∘ f, hg, fun c => by rw [walk_bind_ok (h c), h']; rfl⟩
      · refine .inr ⟨e, fun c => ?_⟩
        obtain ⟨d, hd, h'⟩ := he (f c)
        exact ⟨d, (hsame c).trans hd, by rw [walk_bind_ok (h c), h']⟩
    · refine ⟨n, hn, .inr ⟨e, fun c => ?_⟩⟩
      obtain ⟨d, hd, h⟩ := he c
      exact ⟨d, hd, walk_bind_error h⟩

theorem Writes.updateThen {Q : (Ctx → Ctx) → Prop} {g : Ctx → Ctx} {k : Walk Unit} (hg : ∀ c, sameHead c (g c))
    (hk : Writes (fun f => Q (f ∘ g)) k) : Writes Q (updateCtx g >>= fun _ => k) :=
  .andThen (Q := fun f => f = g) (.update rfl) fun _ h => by subst h; exact ⟨hg, hk⟩

/-- A read, then a walk that goes on with its value. -/
theorem Writes.readThen {α : Type} {Q : (Ctx → Ctx) → Prop} {m : Walk α} {k : α → Walk Unit} (hm : ReadsStream m)
    (hk : ∀ a, Writes Q (k a)) : Writes Q (m >>= k) := fun s => by
  obtain ⟨n, hn, ⟨a, h⟩ | ⟨e, he⟩⟩ := hm s
  · obtain ⟨j, hj, hr⟩ := hk a (s.advance n)
    rw [State.unread_advance] at hj
    simp only [State.advance_advance] at hr
    refine ⟨n + j, by omega, ?_⟩
    simpa only [walk_bind_ok (h _)] using hr
  · exact ⟨n, hn, .inr ⟨e, fun c => ⟨c, ⟨rfl, rfl, rfl⟩, walk_bind_error (he c)⟩⟩⟩

/-! ## The grouping -/

/-- The windows in the groups are those counted so far and one for each further bit (R172). -/
theorem groupLengths_sum : ∀ (bits : Bits) (done : List Nat) (cur : Nat),
    (groupLengths done cur bits).sum = done.sum + cur + bits.length
  | [], done, cur => by simp [groupLengths, Nat.add_comm]
  | true :: rest, done, cur => by
    rw [groupLengths, groupLengths_sum rest, List.length_cons]; omega
  | false :: rest, done, cur => by
    rw [groupLengths, groupLengths_sum rest, List.sum_cons, List.length_cons]; omega

/-- No group is empty (R172). -/
theorem groupLengths_pos : ∀ (bits : Bits) (done : List Nat) (cur : Nat), 1 ≤ cur → (∀ n ∈ done, 1 ≤ n) →
    ∀ n ∈ groupLengths done cur bits, 1 ≤ n
  | [], done, cur, hc, hd => by
    simp only [groupLengths, List.mem_reverse, List.mem_cons]
    rintro n (rfl | hn)
    · exact hc
    · exact hd n hn
  | true :: rest, done, cur, _, hd => groupLengths_pos rest done (cur + 1) (by omega) hd
  | false :: rest, done, cur, hc, hd =>
    groupLengths_pos rest (cur :: done) 1 (Nat.le_refl 1) (List.forall_mem_cons.mpr ⟨hc, hd⟩)

/-- The groups hold the 8 short windows (R172). -/
theorem grouping_sum (g : Nat) : (grouping g).sum = 8 := by rw [grouping, groupLengths_sum]; simp

theorem grouping_pos (g : Nat) : ∀ n ∈ grouping g, 1 ≤ n :=
  groupLengths_pos _ [] 1 (Nat.le_refl 1) (fun _ h => nomatch h)

/-! ## ICS_INFO -/

/-- What ICS_INFO reads (R171), the lengths of its groups in place of the number of windows. -/
structure WindowFields where
  reserved  : Nat
  sequence  : WindowSequence
  shape     : Nat
  maxSfb    : Nat
  groupBits : Nat
  predictor : Nat
  lengths   : List Nat

/-- The context with the window part written and valid, and the section part invalid (R171, R30). -/
def WindowFields.write (x : WindowFields) (c : Ctx) : Ctx :=
  { c with
    icsReservedBit := x.reserved, windowSequence := x.sequence, windowShape := x.shape, maxSfb := x.maxSfb
    scaleFactorGrouping := x.groupBits, predictorDataPresent := x.predictor, numWindows := windowCount x.sequence
    numWindowGroups := x.lengths.length, windowGroupLength := x.lengths
    sectSfbOffset := offsets x.sequence x.maxSfb x.lengths, vInfo := true, vSect := false }

/-- The ranges of what ICS_INFO accepts (R172, R175). -/
def WindowFields.Ok (x : WindowFields) : Prop :=
  x.maxSfb ≤ sfbLimit x.sequence ∧ x.lengths.sum = windowCount x.sequence ∧ ∀ n ∈ x.lengths, 1 ≤ n

theorem WindowFields.infoOk_write {x : WindowFields} (h : x.Ok) (c : Ctx) : (x.write c).infoOk :=
  ⟨h.1, rfl, rfl, h.2.1, h.2.2, rfl⟩

/-- The writes of the window part between window_shape and the band edges (R171). -/
def WindowFields.writeWindow (x : WindowFields) (c : Ctx) : Ctx :=
  { c with
    maxSfb := x.maxSfb, scaleFactorGrouping := x.groupBits, predictorDataPresent := x.predictor
    numWindows := windowCount x.sequence, numWindowGroups := x.lengths.length, windowGroupLength := x.lengths }

/-- A function of the context that ICS_INFO's window part may apply. -/
def WindowFields.IsWindow (ws : WindowSequence) (f : Ctx → Ctx) : Prop :=
  ∃ x : WindowFields, x.Ok ∧ x.sequence = ws ∧ f = x.writeWindow

theorem icsInfoShort_writes : Writes (WindowFields.IsWindow .eightShort) icsInfoShort :=
  .readThen (readsStream_readBits 4) fun maxSfb => .updateThen (fun _ => ⟨rfl, rfl, rfl⟩) <| by
    by_cases h : maxSfb > numSwbShort
    · rw [if_pos h]; exact .raise _ _
    · rw [if_neg h]
      exact .readThen (readsStream_readBits 7) fun g => .update
        ⟨⟨0, .eightShort, 0, maxSfb, g, 0, grouping g⟩, ⟨Nat.not_lt.mp h, grouping_sum g, grouping_pos g⟩, rfl, rfl⟩

theorem icsInfoLong_writes {ws : WindowSequence} (hws : isShort ws = false) :
    Writes (WindowFields.IsWindow ws) icsInfoLong :=
  .readThen (readsStream_readBits 6) fun maxSfb => .updateThen (fun _ => ⟨rfl, rfl, rfl⟩) <| by
    by_cases h : maxSfb > numSwbLong
    · rw [if_pos h]; exact .raise _ _
    · rw [if_neg h]
      refine .updateThen (fun _ => ⟨rfl, rfl, rfl⟩) <| .readThen (readsStream_readBits 1) fun pred =>
        .updateThen (fun _ => ⟨rfl, rfl, rfl⟩) <|
        .readThen (readsStream_reads.whenTrue (readsStream_reads.predictorData maxSfb) _) fun _ => .update
        ⟨⟨0, ws, 0, maxSfb, 0, pred, [1]⟩, ⟨?_, ?_, ?_⟩, rfl, ?_⟩
      · simpa [sfbLimit, hws] using h
      · simp [windowCount, hws]
      · simp
      · funext c; simp [WindowFields.writeWindow, windowCount, hws]

theorem icsInfoWindow_writes (ws : WindowSequence) : Writes (WindowFields.IsWindow ws) (icsInfoWindow ws) := by
  unfold icsInfoWindow
  cases h : isShort ws with
  | true =>
    have : ws = .eightShort := of_decide_eq_true h
    subst this
    exact icsInfoShort_writes
  | false => exact icsInfoLong_writes h

/-- ICS_INFO after it has cleared the valid flags (R171). -/
def icsInfoFields : Walk Unit := do
  let reserved ← readBits 1
  updateCtx fun c => { c with icsReservedBit := reserved }
  let ws ← readBits 2
  updateCtx fun c => { c with windowSequence := windowSequenceOf ws }
  let shape ← readBits 1
  updateCtx fun c => { c with windowShape := shape }
  icsInfoWindow (windowSequenceOf ws)
  updateCtx fun c => { c with sectSfbOffset := offsets c.windowSequence c.maxSfb c.windowGroupLength }
  updateCtx setValidInfo

theorem icsInfoBody_eq : icsInfoBody = (do updateCtx clearValid; icsInfoFields) := rfl

theorem icsInfoFields_writes :
    Writes (fun f => ∃ x : WindowFields, x.Ok ∧ ∀ c, f (clearValid c) = x.write c) icsInfoFields := by
  refine .readThen (readsStream_readBits 1) fun reserved => .updateThen (fun _ => ⟨rfl, rfl, rfl⟩) <|
    .readThen (readsStream_readBits 2) fun ws => .updateThen (fun _ => ⟨rfl, rfl, rfl⟩) <|
    .readThen (readsStream_readBits 1) fun shape => .updateThen (fun _ => ⟨rfl, rfl, rfl⟩) <|
    (icsInfoWindow_writes (windowSequenceOf ws)).andThen fun f hf => ?_
  obtain ⟨x, hx, hs, rfl⟩ := hf
  refine ⟨fun _ => ⟨rfl, rfl, rfl⟩, .updateThen (fun _ => ⟨rfl, rfl, rfl⟩) <| .update
    ⟨{ x with reserved := reserved, shape := shape }, hx, fun c => ?_⟩⟩
  simp [WindowFields.writeWindow, WindowFields.write, setValidInfo, clearValid, hs]

/-- Everything ICS_INFO can do, alike for every context: it writes the whole window part from what it reads, or it
raises with both flags clear and global_gain as it was. -/
theorem icsInfoBody_cases (s : State) : ∃ n, n ≤ s.unread ∧
    ((∃ x : WindowFields, x.Ok ∧ ∀ c, icsInfoBody (s.withCtx c) = .ok () ((s.advance n).withCtx (x.write c))) ∨
      ∃ e, ∀ c, ∃ d, sameHead (clearValid c) d ∧ icsInfoBody (s.withCtx c) = .error e ((s.advance n).withCtx d)) := by
  obtain ⟨n, hn, ⟨f, ⟨x, hx, hf⟩, h⟩ | ⟨e, he⟩⟩ := icsInfoFields_writes s
  · exact ⟨n, hn, .inl ⟨x, hx, fun c => (h (clearValid c)).trans (by rw [hf])⟩⟩
  · exact ⟨n, hn, .inr ⟨e, fun c => he (clearValid c)⟩⟩

end Sys2Proof.Machine
end

section
/-! SUPPORT. What a walk makes of a property of the context, and the section context that SECTION_DATA builds (R176 to
R179). -/

namespace Sys2Proof.Machine

/-! ## Properties of the context along a walk -/

/-- From a context in `P` the walk ends in one that `Q` allows for its value, or raises with one in `E`. -/
def CtxTriple {α : Type} (P : Ctx → Prop) (m : Walk α) (Q : α → Ctx → Prop) (E : Ctx → Prop) : Prop :=
  ∀ s : State, P s.ctx → (∀ a t, m s = .ok a t → Q a t.ctx) ∧ (∀ e t, m s = .error e t → E t.ctx)

namespace CtxTriple

variable {α β : Type} {P E : Ctx → Prop}

theorem bind {Q : α → Ctx → Prop} {Q' : β → Ctx → Prop} {m : Walk α} {f : α → Walk β} (hm : CtxTriple P m Q E)
    (hf : ∀ a, CtxTriple (Q a) (f a) Q' E) : CtxTriple P (m >>= f) Q' E := fun s hs => by
  refine ⟨fun b u h => ?_, fun e u h => ?_⟩
  · obtain ⟨a, t, h1, h2⟩ := walk_bind_eq_ok.mp h
    exact (hf a t ((hm s hs).1 a t h1)).1 b u h2
  · rcases walk_bind_eq_error.mp h with h1 | ⟨a, t, h1, h2⟩
    · exact (hm s hs).2 e u h1
    · exact (hf a t ((hm s hs).1 a t h1)).2 e u h2

theorem pure {Q : α → Ctx → Prop} {a : α} (h : ∀ c, P c → Q a c) : CtxTriple P (pure a) Q E :=
  fun s hs => ⟨fun b t e => by cases e; exact h s.ctx hs, fun _ _ e => nomatch e⟩

theorem raise {Q : α → Ctx → Prop} {e : Cause} (h : ∀ c, P c → E c) : CtxTriple P (raise e) Q E :=
  fun s hs => ⟨fun _ _ e => (nomatch e), fun d t e => by cases e; exact h s.ctx hs⟩

theorem update {Q : Unit → Ctx → Prop} {g : Ctx → Ctx} (h : ∀ c, P c → Q () (g c)) : CtxTriple P (updateCtx g) Q E :=
  fun s hs => ⟨fun b t e => by cases e; exact h s.ctx hs, fun _ _ e => nomatch e⟩

theorem getCtx : CtxTriple P getCtx (fun a c => a = c ∧ P c) E :=
  fun s hs => ⟨fun b t e => by cases e; exact ⟨rfl, hs⟩, fun _ _ e => nomatch e⟩

/-- A walk that only reads keeps the context; what is known of its value is known after it. -/
theorem reads {m : Walk α} {V : α → Prop} (hm : ReadsForward m) (hV : ∀ s a t, m s = .ok a t → V a)
    (hE : ∀ c, P c → E c) : CtxTriple P m (fun a c => V a ∧ P c) E := fun s hs => by
  refine ⟨fun a t h => ⟨hV s a t h, ?_⟩, fun e t h => hE _ ?_⟩
  · rw [(hm.keeps_sameButCursor s).1 a t h]; exact hs
  · rw [(hm.keeps_sameButCursor s).2 e t h]; exact hs

/-- A loop over a range whose passes lead from one invariant to the next. -/
theorem foldFrom {I : Nat → Ctx → Prop} {f : Nat → α → Walk α}
    (hf : ∀ i a, CtxTriple (I i) (f i a) (fun _ => I (i + 1)) E) (n : Nat) :
    ∀ i a, CtxTriple (I i) (foldFrom f i n a) (fun _ => I (i + n)) E := by
  induction n with
  | zero => exact fun i a => .pure fun _ h => h
  | succ n ih =>
    refine fun i a => .bind (hf i a) fun a' => ?_
    have := ih (i + 1) a'
    rwa [show i + 1 + n = i + (n + 1) by omega] at this

/-- A loop whose passes keep an invariant of its value. -/
theorem whileBits {I : α → Ctx → Prop} {Q : β → Ctx → Prop} {body : α → Walk (α ⊕ β)}
    (hb : ∀ a, CtxTriple (I a) (body a) (fun r c => r.elim (fun a' => I a' c) (fun b => Q b c)) E)
    (hE : ∀ a c, I a c → E c) (a : α) : CtxTriple (I a) (whileBits body a) Q E := by
  have fuel (n : Nat) : ∀ a, CtxTriple (I a) (loopFuel body n a) Q E := by
    induction n with
    | zero => exact fun a => .raise (hE a)
    | succ n ih =>
      refine fun a => .bind (hb a) fun r => ?_
      cases r with
      | inl a' => exact ih a'
      | inr b => exact .pure fun _ h => h
  exact fun s hs => fuel (s.unread + 1) a s hs

end CtxTriple

/-! ## The section registers -/

/-- The context with whole groups of sections stored (R176, R179). -/
def withSections (c : Ctx) (groups : List (List Section)) : Ctx :=
  { c with sect := groups, sfbCb := groups.map bandCodebooks, numSec := groups.map List.length }

/-- The context with whole groups stored and a further group open. -/
def withOpenGroup (c : Ctx) (groups : List (List Section)) (cur : List Section) : Ctx :=
  { withSections c (groups ++ [cur]) with numSec := groups.map List.length }

theorem modifyAt_length {α : Type} (f : α → α) (x : α) : ∀ l : List α, modifyAt f l.length (l ++ [x]) = l ++ [f x]
  | [] => rfl
  | y :: rest => by
    simp only [List.length_cons, List.cons_append, modifyAt, modifyAt_length f x rest]

theorem bandCodebooks_append_singleton (l : List Section) (x : Section) :
    bandCodebooks (l ++ [x]) = bandCodebooks l ++ List.replicate (x.last - x.first) x.cb := by
  simp [bandCodebooks]

theorem startSections_eq (c : Ctx) : startSections c = withSections (clearValidSect c) [] := rfl

theorem openGroup_eq (c : Ctx) (groups : List (List Section)) :
    openGroup (withSections c groups) = withOpenGroup c groups [] := by
  simp [openGroup, withSections, withOpenGroup, bandCodebooks]

theorem storeSection_eq (c : Ctx) (groups : List (List Section)) (cur : List Section) (x : Section) :
    storeSection groups.length x (withOpenGroup c groups cur) = withOpenGroup c groups (cur ++ [x]) := by
  have hs := modifyAt_length (· ++ [x]) cur groups
  have hb := modifyAt_length (· ++ List.replicate (x.last - x.first) x.cb) (bandCodebooks cur)
    (groups.map bandCodebooks)
  rw [List.length_map] at hb
  simp [storeSection, withOpenGroup, withSections, hs, hb, bandCodebooks_append_singleton]

theorem closeGroup_eq (c : Ctx) (groups : List (List Section)) (cur : List Section) :
    closeGroup groups.length (withOpenGroup c groups cur) = withSections c (groups ++ [cur]) := by
  simp [closeGroup, withOpenGroup, withSections]

/-- A further section from where the sections end. -/
theorem tiles_append {x : Section} (hcb : x.cb < 16) (hne : x.first < x.last) :
    ∀ (k : Nat) (l : List Section), tiles k l x.first → tiles k (l ++ [x]) x.last
  | _, [], h => ⟨hcb, h.symm, h ▸ hne, rfl⟩
  | _, _ :: rest, ⟨h1, h2, h3, h4⟩ => ⟨h1, h2, h3, tiles_append hcb hne _ rest h4⟩

/-! ## SECTION_DATA -/

/-- A read gives a number of as many bits. -/
theorem readBits_lt {n v : Nat} {s t : State} (h : readBits n s = .ok v t) : v < 2 ^ n := by
  by_cases hn : n ≤ s.unread
  · rw [readBits_enough hn] at h
    cases h
    simpa using bitsToNat_lt (streamBits s.inbuf s.curPos n)
  · rw [readBits_short (Nat.not_le.mp hn)] at h; cases h

section groups
variable (c : Ctx) (groups : List (List Section))

/-- The sections of the open group tile the bands below `k`. -/
def openAt (k : Nat) (d : Ctx) : Prop :=
  ∃ cur, d = withOpenGroup c groups cur ∧ tiles 0 cur k ∧ k ≤ c.maxSfb

/-- A section's context, whatever sections are stored. -/
def hidesTo (d : Ctx) : Prop := Grammar.hideSect d = Grammar.hideSect c

/-- One pass stores a section from band `k` on, or ends the group where the bands end. -/
theorem sectionPass_triple (k : Nat) :
    CtxTriple (openAt c groups k) (sectionPass groups.length k)
      (fun r d => r.elim (fun k' => openAt c groups k' d) (fun _ => openAt c groups c.maxSfb d)) (hidesTo c) := by
  have hides (k : Nat) (d : Ctx) : openAt c groups k d → hidesTo c d := fun ⟨_, h, _⟩ => by subst h; rfl
  refine .bind .getCtx fun d => ?_
  by_cases hk : k < d.maxSfb
  · rw [if_pos hk]
    refine .bind (.reads (V := (· < 16)) (.readBits 4) (fun _ _ _ => readBits_lt) fun d h => hides k d h.2) fun cb =>
      .bind (.reads (V := fun _ => True) (sectionLength_readsForward _) (fun _ _ _ _ => trivial)
        fun d h => hides k d h.2.2) fun len => ?_
    by_cases hlen : k + len > d.maxSfb
    · rw [if_pos hlen]; exact .raise fun d h => hides k d h.2.2.2
    · rw [if_neg hlen]
      refine .bind (Q := fun _ => openAt c groups (k + len)) ?_ fun _ => .pure fun _ h => h
      cases hpos : decide (len > 0) with
      | false =>
        rw [of_decide_eq_false hpos |> Nat.eq_zero_of_not_pos]
        exact .pure fun _ h => h.2.2.2
      | true =>
        refine .update fun _ h => ?_
        obtain ⟨-, hcb, rfl, cur, rfl, ht, -⟩ := h
        refine ⟨cur ++ [⟨cb, k, k + len⟩], storeSection_eq c groups cur _, ?_, Nat.not_lt.mp hlen⟩
        exact tiles_append hcb (Nat.lt_add_of_pos_right (of_decide_eq_true hpos)) 0 cur ht
  · rw [if_neg hk]
    refine .pure fun _ h => ?_
    obtain ⟨rfl, cur, rfl, ht, hle⟩ := h
    have : k = c.maxSfb := Nat.le_antisymm hle (Nat.not_lt.mp hk)
    subst this
    exact ⟨cur, rfl, ht, hle⟩

/-- So many whole groups are stored, each of which tiles the bands. -/
def groupsDone (g : Nat) (d : Ctx) : Prop :=
  ∃ groups : List (List Section), groups.length = g ∧ (∀ x ∈ groups, tiles 0 x c.maxSfb) ∧ d = withSections c groups

end groups

/-- A group is stored whole, or the section that passes the bands raises. -/
theorem sectionGroup_triple (c : Ctx) (g : Nat) :
    CtxTriple (groupsDone c g) (sectionGroup g) (fun _ => groupsDone c (g + 1)) (hidesTo c) := by
  intro s ⟨groups, hg, ht, hs⟩
  subst hg
  have run : CtxTriple (fun d => d = withSections c groups) (sectionGroup groups.length)
      (fun _ => groupsDone c (groups.length + 1)) (hidesTo c) := by
    refine .bind (Q := fun _ => openAt c groups 0) (.update fun d hd => ?_) fun _ =>
      .bind (.whileBits (sectionPass_triple c groups) (fun _ d ⟨_, h, _⟩ => by subst h; rfl) 0) fun _ =>
      .update fun d hd => ?_
    · subst hd; exact ⟨[], openGroup_eq c groups, rfl, Nat.zero_le _⟩
    · obtain ⟨cur, rfl, hcur, -⟩ := hd
      refine ⟨groups ++ [cur], by simp, fun x hx => ?_, closeGroup_eq c groups cur⟩
      rcases List.mem_append.mp hx with hx | hx
      · exact ht x hx
      · rw [List.mem_singleton.mp hx]; exact hcur
  exact run s hs

/-- A context in which valid sections tile the bands of every group of `c`. -/
def sectionsValid (c d : Ctx) : Prop :=
  ∃ groups : List (List Section), groups.length = c.numWindowGroups ∧ (∀ x ∈ groups, tiles 0 x c.maxSfb) ∧
    d = setValidSect (withSections (clearValidSect c) groups)

/-- Everything SECTION_DATA can do to a context whose window part is valid: it stores groups that tile the bands, or it
raises with the window part as it was and the section part invalid. -/
theorem sectionDataBody_triple (c : Ctx) :
    CtxTriple (fun d => d = c ∧ c.vInfo = true) sectionDataBody (fun _ => sectionsValid c)
      (hidesTo (clearValidSect c)) := by
  have valid : CtxTriple (fun d => d = c ∧ c.vInfo = true) (requireValid Ctx.vInfo) (fun _ d => d = c)
      (hidesTo (clearValidSect c)) := fun s ⟨hs, hv⟩ => by
    have h := requireValid_set (flag := Ctx.vInfo) (s := s) (by rw [hs]; exact hv)
    exact ⟨fun _ _ e => by rw [h] at e; cases e; exact hs, fun _ _ e => by rw [h] at e; cases e⟩
  refine .bind valid fun _ => .bind (Q := fun _ => groupsDone (clearValidSect c) 0) (.update fun d hd => ?_) fun _ =>
    .bind .getCtx fun a s ⟨ha, hs⟩ => ?_
  · subst hd
    exact ⟨[], rfl, fun _ h => (nomatch h), startSections_eq d⟩
  · have hn : a.numWindowGroups = c.numWindowGroups := by obtain ⟨_, _, _, h⟩ := hs; rw [ha, h]; rfl
    have run := CtxTriple.bind (Q' := fun _ => sectionsValid c) (f := fun _ => updateCtx setValidSect)
      (.foldFrom (fun g (_ : Unit) => sectionGroup_triple (clearValidSect c) g) a.numWindowGroups 0 ()) fun _ =>
      .update fun d ⟨groups, hg, ht, hd⟩ => ⟨groups, by rw [hg, Nat.zero_add, hn], ht, by rw [hd]⟩
    exact run s hs

end Sys2Proof.Machine
end

section
/-! PROOFS. The context is true to its valid flags (R28 to R30, R179). -/

namespace Sys2Proof.Machine

/-- A context with both flags clear promises nothing. -/
theorem ctxOk_of_clear {s : State} (hi : s.ctx.vInfo = false) (hs : s.ctx.vSect = false) : s.ctxOk :=
  ⟨fun h => (nomatch hi.symm.trans h), fun h => nomatch hs.symm.trans h⟩

/-- From a state that keeps its promise a walk ends in one that does. -/
def keepsCtxOk (s t : State) : Prop := s.ctxOk → t.ctxOk

theorem keepsCtxOk_steps : Steps keepsCtxOk where
  trans _ _ _ h1 h2 h := h2 (h1 h)
  advance _ _ _ h := h

theorem icsInfoBody_keepsCtxOk : Keeps keepsCtxOk icsInfoBody := fun s => by
  obtain ⟨n, -, ⟨x, hx, h⟩ | ⟨e, h⟩⟩ := icsInfoBody_cases s
  · have h := h s.ctx
    rw [State.withCtx_self] at h
    refine ⟨fun _ t ht _ => ?_, fun _ t ht => ?_⟩
    · rw [h] at ht
      cases ht
      exact ⟨fun _ => WindowFields.infoOk_write hx s.ctx, fun hs => nomatch hs⟩
    · rw [h] at ht; cases ht
  · obtain ⟨d, ⟨hi, hs, -⟩, h⟩ := h s.ctx
    rw [State.withCtx_self] at h
    refine ⟨fun _ t ht => ?_, fun _ t ht _ => ?_⟩
    · rw [h] at ht; cases ht
    · rw [h] at ht; cases ht; exact ctxOk_of_clear hi hs

theorem sectionDataBody_keepsCtxOk : Keeps keepsCtxOk sectionDataBody := fun s => by
  cases hv : s.ctx.vInfo with
  | false =>
    have h : sectionDataBody s = .error .contextUnwritten s := walk_bind_error (requireValid_clear hv)
    exact ⟨fun _ t ht => (by rw [h] at ht; cases ht), fun _ t ht hs => by rw [h] at ht; cases ht; exact hs⟩
  | true =>
    have run := sectionDataBody_triple s.ctx s ⟨rfl, hv⟩
    refine ⟨fun _ t ht ⟨hinfo, _⟩ => ?_, fun e t ht ⟨hinfo, _⟩ => ?_⟩
    · obtain ⟨groups, hg, htile, hc⟩ := run.1 _ t ht
      unfold State.ctxOk
      rw [hc]
      exact ⟨fun _ => hinfo hv, fun _ => ⟨hv, hg, rfl, rfl, htile⟩⟩
    · have hc : Grammar.hideSect t.ctx = Grammar.hideSect (clearValidSect s.ctx) := run.2 e t ht
      have hsect : t.ctx.vSect = false := congrArg Ctx.vSect hc
      have hwindow : s.ctx.infoOk → t.ctx.infoOk := (congrArg Ctx.infoOk hc).mpr
      exact ⟨fun _ => hwindow (hinfo hv), fun h => nomatch hsect.symm.trans h⟩

/-- A change of the context that keeps its promise. -/
theorem updateCtx_keepsCtxOk {g : Ctx → Ctx} (h : ∀ s : State, s.ctxOk → (s.withCtx (g s.ctx)).ctxOk) :
    Keeps keepsCtxOk (updateCtx g) := .update (fun _ => rfl) h

theorem clearAfter_keepsCtxOk {α : Type} (m : Walk α) : Keeps keepsCtxOk (clearAfter m) := fun s => by
  unfold clearAfter
  cases m s with
  | ok a t => exact ⟨fun _ _ h _ => by cases h; exact ctxOk_of_clear rfl rfl, fun _ _ h => nomatch h⟩
  | error e t => exact ⟨fun _ _ h => (nomatch h), fun _ _ h _ => by cases h; exact ctxOk_of_clear rfl rfl⟩

/-- Every command keeps the context true to its flags. -/
theorem commandWalk_keepsCtxOk (i : Instr) : Keeps keepsCtxOk (commandWalk i) := by
  have h := Keeps.closedUnderReads keepsCtxOk_steps
  have reads {α : Type} {m : Walk α} (hm : ReadsForward m) : Keeps keepsCtxOk m := .readsForward keepsCtxOk_steps hm
  exact ClosedUnderCommands.commandWalk (P := fun _ m => Keeps keepsCtxOk m)
    { toClosedUnderReads := h
      setMark := .update (fun _ => rfl) fun _ hs => hs
      setEnded := .update (fun _ => rfl) fun _ hs => hs
      clearValid := updateCtx_keepsCtxOk fun _ _ => ctxOk_of_clear rfl rfl
      setGain := fun _ => updateCtx_keepsCtxOk fun _ hs => hs
      clearAfter := fun _ => clearAfter_keepsCtxOk _
      icsInfoBody := icsInfoBody_keepsCtxOk
      icsInfo := h.bind icsInfoBody_keepsCtxOk fun _ => h.bind (reads .getCtx) fun _ => h.pure _
      sectionDataBody := sectionDataBody_keepsCtxOk
      sectionData := h.bind sectionDataBody_keepsCtxOk fun _ => h.bind (reads .getCtx) fun _ => h.pure _
      scaleFactorDataBody := reads scaleFactorDataBody_readsForward
      tnsDataBody := reads tnsDataBody_readsForward
      gainControlDataBody := reads gainControlDataBody_readsForward
      spectralDataBody := reads spectralDataBody_readsForward } i

/-- Every instruction keeps the context true to its flags. -/
theorem exec_ctxOk {i : Instr} {s t : State} (hs : s.ctxOk) (h : exec i s = .next t) : t.ctxOk := by
  by_cases hi : i = .load
  · subst hi
    rcases exec_load_cases h with ⟨-, rfl⟩ | rfl
    · exact ctxOk_of_clear rfl rfl
    · exact hs
  · obtain ⟨u, r, -, hu, rfl | ⟨-, c, -, -, rfl⟩⟩ := exec_frame (R := keepsCtxOk) hi h id
      (commandWalk_keeps sameBlock_steps i) (commandWalk_keepsCtxOk i)
    · exact hu hs
    · exact hu hs

/-- Settles O15: reset clears the flags, and each instruction keeps the context true to them. -/
theorem stepKeepsTheContextTrue : Obligations.StepKeepsTheContextTrue := by
  intro s t hs h
  rcases step_cases h with rfl | ⟨rest, rfl⟩ | ⟨i, data, rest, he⟩ | ⟨data, rest, r, rfl⟩
  · exact hs
  · exact resetBlock_ctxOk s rest
  · exact exec_ctxOk (s := s.accept data rest) hs he
  · exact hs

end Sys2Proof.Machine
end

section
/-! PROOFS. A context register whose valid flag is clear is never observed (R29, R34). -/

namespace Sys2Proof.Machine

open Sys2Proof.Grammar

/-! ## What the flags let a command see -/

@[simp] theorem visible_vInfo (c : Ctx) : (visible c).vInfo = c.vInfo := by unfold visible; split_ifs <;> rfl
@[simp] theorem visible_vSect (c : Ctx) : (visible c).vSect = c.vSect := by unfold visible; split_ifs <;> rfl
@[simp] theorem visible_globalGain (c : Ctx) : (visible c).globalGain = c.globalGain := by
  unfold visible; split_ifs <;> rfl

/-- With the section part valid all of the context is seen. -/
theorem eq_of_visible {c d : Ctx} (h : visible c = visible d) (hs : c.vSect = true) : c = d := by
  have hd : d.vSect = true := by rw [← visible_vSect, ← h, visible_vSect, hs]
  simpa [visible, hs, hd] using h

/-- With the window part valid all but the section part is seen. -/
theorem hideSect_eq_of_visible {c d : Ctx} (h : visible c = visible d) (hi : c.vInfo = true) :
    hideSect c = hideSect d := by
  have hd : d.vInfo = true := by rw [← visible_vInfo, ← h, visible_vInfo, hi]
  have hsect : d.vSect = c.vSect := by rw [← visible_vSect, ← h, visible_vSect]
  cases hs : c.vSect with
  | true => rw [eq_of_visible h hs]
  | false => simpa [visible, hi, hd, hs, hsect] using h

/-- With both flags clear only global_gain is seen. -/
theorem visible_eq_of_sameHead {c d c' d' : Ctx} (h : c.globalGain = c'.globalGain) (hd : sameHead (clearValid c) d)
    (hd' : sameHead (clearValid c') d') : visible d = visible d' := by
  obtain ⟨hi, hs, hg⟩ := hd
  obtain ⟨hi', hs', hg'⟩ := hd'
  have hgain : d.globalGain = d'.globalGain := hg.trans (h.trans hg'.symm)
  simp_all [visible, hideInfo, hideSect]

theorem visible_clearValid {c d : Ctx} (h : visible c = visible d) : visible (clearValid c) = visible (clearValid d) :=
  visible_eq_of_sameHead (by rw [← visible_globalGain, h, visible_globalGain]) ⟨rfl, rfl, rfl⟩ ⟨rfl, rfl, rfl⟩

theorem visible_setGain (g : Nat) {c d : Ctx} (h : visible c = visible d) :
    visible { c with globalGain := g } = visible { d with globalGain := g } := by
  have commutes (e : Ctx) : visible { e with globalGain := g } = { visible e with globalGain := g } := by
    unfold visible; split_ifs <;> rfl
  rw [commutes c, commutes d, h]

/-- ICS_INFO's window part hides what the context held, global_gain apart. -/
theorem visible_write (x : WindowFields) {c d : Ctx} (h : c.globalGain = d.globalGain) :
    visible (x.write c) = visible (x.write d) := by
  simp [visible, WindowFields.write, hideSect, h]

/-- Two such states are one state with two contexts that look alike. -/
theorem sameButUnwritten_iff {s s' : State} :
    sameButUnwritten s s' ↔ ∃ c, s' = s.withCtx c ∧ visible s.ctx = visible c := by
  constructor
  · intro h
    have hctx : visible s.ctx = visible s'.ctx := congrArg State.ctx h
    refine ⟨s'.ctx, ?_, hctx⟩
    have := congrArg (fun t : State => t.withCtx s'.ctx) h
    exact this.symm
  · rintro ⟨c, rfl, h⟩
    simp only [sameButUnwritten, State.withCtx, h]

theorem sameButUnwritten_withCtx (s : State) {c d : Ctx} (h : visible c = visible d) :
    sameButUnwritten (s.withCtx c) (s.withCtx d) := sameButUnwritten_iff.mpr ⟨d, rfl, h⟩

/-! ## Walks that see no more -/

/-- Two ends of a walk that look alike: one value or one cause, and one state with contexts that look alike. -/
inductive LookAlike {α : Type} : EStateM.Result Cause State α → EStateM.Result Cause State α → Prop
  | ok (a : α) (t : State) {c d : Ctx} (h : visible c = visible d) :
      LookAlike (.ok a (t.withCtx c)) (.ok a (t.withCtx d))
  | error (e : Cause) (t : State) {c d : Ctx} (h : visible c = visible d) :
      LookAlike (.error e (t.withCtx c)) (.error e (t.withCtx d))

theorem LookAlike.refl {α : Type} : ∀ r : EStateM.Result Cause State α, LookAlike r r
  | .ok a t => .ok a t (c := t.ctx) rfl
  | .error e t => .error e t (c := t.ctx) rfl

/-- From contexts that look alike the walk comes to ends that look alike. -/
def Blind {α : Type} (m : Walk α) : Prop :=
  ∀ (s : State) (c d : Ctx), visible c = visible d → LookAlike (m (s.withCtx c)) (m (s.withCtx d))

theorem blind_of_readsStream {α : Type} {m : Walk α} (hm : ReadsStream m) : Blind m := fun s c d h => by
  obtain ⟨n, -, ⟨a, ha⟩ | ⟨e, he⟩⟩ := hm s
  · rw [ha, ha]; exact .ok a _ h
  · rw [he, he]; exact .error e _ h

theorem blind_bind {α β : Type} {m : Walk α} {f : α → Walk β} (hm : Blind m) (hf : ∀ a, Blind (f a)) :
    Blind (m >>= f) := fun s c d h => by
  have run := hm s c d h
  generalize hr : m (s.withCtx c) = r at run
  generalize hr' : m (s.withCtx d) = r' at run
  cases run with
  | ok a t h => rw [walk_bind_ok hr, walk_bind_ok hr']; exact hf a t _ _ h
  | error e t h => rw [walk_bind_error hr, walk_bind_error hr']; exact .error e t h

theorem blind_updateCtx {g : Ctx → Ctx} (hg : ∀ c d, visible c = visible d → visible (g c) = visible (g d)) :
    Blind (updateCtx g) := fun s c d h => .ok () s (hg c d h)

theorem blind_clearAfter {α : Type} {m : Walk α} (hm : Blind m) : Blind (clearAfter m) := fun s c d h => by
  have run := hm s c d h
  unfold clearAfter
  generalize m (s.withCtx c) = r at run
  generalize m (s.withCtx d) = r' at run
  cases run with
  | ok a t h => exact .ok a t (visible_clearValid h)
  | error e t h => exact .error e t (visible_clearValid h)

theorem blind_reads : ClosedUnderReads fun _ m => Blind m where
  pure a := blind_of_readsStream (readsStream_reads.pure a)
  raise e he := blind_of_readsStream (readsStream_reads.raise e he)
  getState f hc hf s c d h := by
    rw [walk_bind_ok (walk_getState _), walk_bind_ok (walk_getState _), hc, hc]
    exact hf s s c d h
  readBits n := blind_of_readsStream (readsStream_readBits n)
  bind := blind_bind

/-! ## The walks behind a valid flag -/

/-- From contexts that look alike the walk does the same, or it raises at once from both. -/
def SameOrRaises {α : Type} (m : Walk α) : Prop :=
  ∀ (s : State) (c d : Ctx), visible c = visible d → m (s.withCtx c) = m (s.withCtx d) ∨
    ∃ e, m (s.withCtx c) = .error e (s.withCtx c) ∧ m (s.withCtx d) = .error e (s.withCtx d)

theorem SameOrRaises.bind {α β : Type} {m : Walk α} (hm : SameOrRaises m) (f : α → Walk β) :
    SameOrRaises (m >>= f) := fun s c d h => by
  rcases hm s c d h with h | ⟨e, h, h'⟩
  · exact .inl (by simp only [Bind.bind, EStateM.bind, h])
  · exact .inr ⟨e, walk_bind_error h, walk_bind_error h'⟩

theorem SameOrRaises.blind {α : Type} {m : Walk α} (hm : SameOrRaises m) : Blind m := fun s c d h => by
  rcases hm s c d h with h' | ⟨e, h1, h2⟩
  · rw [h']; exact .refl _
  · rw [h1, h2]; exact .error e s h

/-- While the section part is valid, contexts that look alike are equal. -/
theorem requireSect_sameOrRaises : SameOrRaises (requireValid Ctx.vSect) := fun s c d h => by
  cases hs : c.vSect with
  | true => exact .inl (by rw [eq_of_visible h hs])
  | false =>
    have hd : d.vSect = false := by rw [← visible_vSect, ← h, visible_vSect, hs]
    exact .inr ⟨_, requireValid_clear (s := s.withCtx c) hs, requireValid_clear (s := s.withCtx d) hd⟩

/-- Behind the flag of the window part, a walk that does not use the section part of the context. -/
theorem blind_requireInfo {α : Type} {k : Ctx → Walk α} (hk : ∀ c, k (hideSect c) = k c) (hb : ∀ c, Blind (k c)) :
    Blind (do requireValid Ctx.vInfo; let c ← getCtx; k c) := fun s c d h => by
  cases hi : c.vInfo with
  | true =>
    have hd : d.vInfo = true := by rw [← visible_vInfo, ← h, visible_vInfo, hi]
    have hkd : k c = k d := by rw [← hk c, ← hk d, hideSect_eq_of_visible h hi]
    rw [walk_bind_ok (requireValid_set (s := s.withCtx c) hi), walk_bind_ok (walk_getCtx _),
      walk_bind_ok (requireValid_set (s := s.withCtx d) hd), walk_bind_ok (walk_getCtx _)]
    simp only [State.withCtx_ctx, hkd]
    exact hb d s c d h
  | false =>
    have hd : d.vInfo = false := by rw [← visible_vInfo, ← h, visible_vInfo, hi]
    rw [walk_bind_error (requireValid_clear (s := s.withCtx c) hi),
      walk_bind_error (requireValid_clear (s := s.withCtx d) hd)]
    exact .error _ s h

theorem tnsDataBody_blind : Blind tnsDataBody := by
  have h := blind_reads
  exact blind_requireInfo (fun _ => rfl) fun _ => h.bind h.getPos fun _ => h.bind (h.times (h.tnsWindow _) _) fun _ =>
    h.bind h.getPos fun _ => h.pure _

theorem gainControlDataBody_blind : Blind gainControlDataBody := by
  have h := blind_reads
  exact blind_requireInfo (fun _ => rfl) fun _ => h.bind h.getPos fun _ => h.bind (h.readBits 2) fun _ =>
    h.bind (h.times (h.forEach h.gainWindow _) _) fun _ => h.bind h.getPos fun _ => h.pure _

/-- SECTION_DATA drops the section part first, so that contexts with a valid window part become equal. -/
theorem sectionDataBody_sameOrRaises : SameOrRaises sectionDataBody := fun s c d h => by
  cases hi : c.vInfo with
  | true =>
    have hd : d.vInfo = true := by rw [← visible_vInfo, ← h, visible_vInfo, hi]
    have hstart : startSections (hideSect c) = startSections (hideSect d) := by rw [hideSect_eq_of_visible h hi]
    have hstart : startSections c = startSections d := hstart
    refine .inl ?_
    unfold sectionDataBody
    rw [walk_bind_ok (requireValid_set (s := s.withCtx c) hi), walk_bind_ok (walk_updateCtx _ _),
      walk_bind_ok (requireValid_set (s := s.withCtx d) hd), walk_bind_ok (walk_updateCtx _ _)]
    simp only [State.withCtx_ctx, State.withCtx_withCtx, hstart]
  | false =>
    have hd : d.vInfo = false := by rw [← visible_vInfo, ← h, visible_vInfo, hi]
    exact .inr ⟨_, walk_bind_error (requireValid_clear (s := s.withCtx c) hi),
      walk_bind_error (requireValid_clear (s := s.withCtx d) hd)⟩

/-! ## ICS_INFO -/

/-- ICS_INFO, and what a walk makes of the context it has written, where that depends on the window part alone. -/
theorem icsInfoBody_then_blind {α : Type} {f : Ctx → α}
    (hf : ∀ (x : WindowFields) (c d : Ctx), f (x.write c) = f (x.write d)) :
    Blind (do icsInfoBody; let c ← getCtx; pure (f c)) := fun s c d h => by
  have hg : c.globalGain = d.globalGain := by rw [← visible_globalGain, h, visible_globalGain]
  obtain ⟨n, -, ⟨x, -, hx⟩ | ⟨e, he⟩⟩ := icsInfoBody_cases s
  · rw [walk_bind_ok (hx c), walk_bind_ok (hx d), walk_bind_ok (walk_getCtx _), walk_bind_ok (walk_getCtx _)]
    simp only [State.withCtx_ctx, hf x c d]
    exact .ok _ _ (visible_write x hg)
  · obtain ⟨c', hc', hec⟩ := he c
    obtain ⟨d', hd', hed⟩ := he d
    rw [walk_bind_error hec, walk_bind_error hed]
    exact .error e _ (visible_eq_of_sameHead hg hc' hd')

theorem icsInfoBody_blind : Blind icsInfoBody := fun s c d h => by
  have run := icsInfoBody_then_blind (f := fun _ => ()) (fun _ _ _ => rfl) s c d h
  have hid : (do icsInfoBody; let _ ← getCtx; pure ()) = icsInfoBody := by
    funext t
    cases e : icsInfoBody t with
    | ok a u => rw [walk_bind_ok e]; rfl
    | error c u => rw [walk_bind_error e]
  rwa [hid] at run

/-! ## Every command -/

theorem commandWalk_blind (i : Instr) : Blind (commandWalk i) := by
  have h := blind_reads
  exact ClosedUnderCommands.commandWalk (P := fun _ m => Blind m)
    { toClosedUnderReads := h
      setMark := fun s _ _ hv => .ok () s.markHere hv
      setEnded := fun s _ _ hv => .ok () (s.withDState .ended) hv
      clearValid := blind_updateCtx fun _ _ => visible_clearValid
      setGain := fun g => blind_updateCtx fun _ _ => visible_setGain g
      clearAfter := blind_clearAfter
      icsInfoBody := icsInfoBody_blind
      icsInfo := icsInfoBody_then_blind fun _ _ _ => rfl
      sectionDataBody := sectionDataBody_sameOrRaises.blind
      sectionData := (sectionDataBody_sameOrRaises.bind _).blind
      scaleFactorDataBody := (requireSect_sameOrRaises.bind _).blind
      tnsDataBody := tnsDataBody_blind
      gainControlDataBody := gainControlDataBody_blind
      spectralDataBody := (requireSect_sameOrRaises.bind _).blind } i

/-- Taking an error does not touch the context. -/
theorem State.takeError_withCtx (s : State) (c : Ctx) (e : Cause) :
    (s.withCtx c).takeError e = (s.takeError e).withCtx c := by
  by_cases h : s.err = 0
  · rw [State.takeError_of_clear h, State.takeError_of_clear (s := s.withCtx c) h]; rfl
  · rw [State.takeError_of_pending h, State.takeError_of_pending (s := s.withCtx c) h]; rfl

/-- The response to a run's end, and ERR, look alike where the end does. -/
theorem stateful_blind {m : Walk Value} (hm : Blind m) (ok : Bool) (s : State) {c d : Ctx} (h : visible c = visible d) :
    sameButUnwritten (stateful ok m (s.withCtx c)) (stateful ok m (s.withCtx d)) := by
  cases ok with
  | false => exact sameButUnwritten_withCtx (s.reportError .badArgument) h
  | true =>
    by_cases he : s.err = 0
    · rw [stateful_run (s := s.withCtx c) he, stateful_run (s := s.withCtx d) he]
      have run := hm s c d h
      generalize hr : m (s.withCtx c) = r at run
      generalize hr' : m (s.withCtx d) = r' at run
      cases run with
      | ok v t h =>
        rw [runWalk_ok hr, runWalk_ok hr']
        exact sameButUnwritten_withCtx (t.respond (.ok v)) h
      | @error e t c' d' h =>
        rw [runWalk_error hr, runWalk_error hr', State.takeError_withCtx, State.takeError_withCtx]
        exact sameButUnwritten_withCtx _ h
    · rw [stateful_refused (s := s.withCtx c) he, stateful_refused (s := s.withCtx d) he]
      exact sameButUnwritten_withCtx s.refuse h

/-- Settles O18: LOAD clears the flags, a pure command only answers, and the walk of every other instruction is blind to
what the flags hide. -/
theorem unwrittenContextIsNeverSeen : Obligations.UnwrittenContextIsNeverSeen := by
  intro i s s' t hss h
  obtain ⟨c, rfl, hv⟩ := sameButUnwritten_iff.mp hss
  by_cases hi : i = .load
  · subst hi
    by_cases hb : s.dataIn.bytes.length ≤ inbufBytes
    · rw [exec_load_of_fits hb] at h
      cases h
      exact ⟨_, exec_load_of_fits (s := s.withCtx c) hb,
        sameButUnwritten_withCtx ((loadState s s.dataIn.bytes).respond (.ok .unit)) (visible_clearValid hv)⟩
    · rw [exec_load_of_long hb] at h
      cases h
      exact ⟨_, exec_load_of_long (s := s.withCtx c) hb, sameButUnwritten_withCtx (s.reportError .badArgument) hv⟩
  · rcases groupP_or_refusable hi with hp | hr
    · obtain ⟨r, hr⟩ := exec_groupP hp s
      rw [hr s rfl] at h
      cases h
      exact ⟨_, hr (s.withCtx c) rfl, sameButUnwritten_withCtx (s.respond r) hv⟩
    · rw [exec_refusable hr] at h
      cases h
      exact ⟨_, exec_refusable hr _, stateful_blind (commandWalk_blind i) i.wf s hv⟩

end Sys2Proof.Machine
end

section
/-! SUPPORT. Walks over the bits they expect: what a walk takes, returns and leaves behind when its bits are ahead. -/

namespace Sys2Proof.Machine

open Sys2Proof.Grammar

/-- With these bits ahead the walk takes exactly them, returns `a` and leaves the context `c`. -/
def Parses {α : Type} (m : Walk α) (s : State) (bits : Bits) (a : α) (c : Ctx) : Prop :=
  Ahead s bits → m s = .ok a ((s.advance bits.length).withCtx c)

namespace Parses

variable {α β : Type} {s : State} {c d : Ctx} {x y : Bits} {a : α} {b : β}

theorem bindCtx {m : Walk α} {f : α → Walk β} (hm : Parses m s x a c)
    (hf : Parses (f a) ((s.advance x.length).withCtx c) y b d) : Parses (m >>= f) s (x ++ y) b d := fun h => by
  obtain ⟨hx, hy⟩ := ahead_append h
  rw [walk_bind_ok (hm hx), hf hy, State.withCtx_advance, State.advance_advance, State.withCtx_withCtx,
    List.length_append]

/-- Sequencing after a walk that leaves the context alone. -/
theorem bind {m : Walk α} {f : α → Walk β} (hm : Parses m s x a s.ctx) (hf : Parses (f a) (s.advance x.length) y b d) :
    Parses (m >>= f) s (x ++ y) b d := bindCtx hm hf

/-- Sequencing before a walk that takes nothing. -/
theorem bindLast {m : Walk α} {f : α → Walk β} (hm : Parses m s x a c)
    (hf : f a ((s.advance x.length).withCtx c) = .ok b ((s.advance x.length).withCtx d)) :
    Parses (m >>= f) s x b d := fun h => by rw [walk_bind_ok (hm h), hf]

theorem pure (a : α) : Parses (pure a : Walk α) s [] a s.ctx := fun _ => rfl

/-- Returning something else. -/
theorem map {m : Walk α} (hm : Parses m s x a c) (f : α → β) : Parses (do let r ← m; Pure.pure (f r)) s x (f a) c :=
  hm.bindLast rfl

theorem updateThen {g : Ctx → Ctx} {f : Unit → Walk β} (hf : Parses (f ()) (s.withCtx (g s.ctx)) x b d) :
    Parses (updateCtx g >>= f) s x b d := fun h => by rw [walk_bind_ok (walk_updateCtx g s), hf h]; rfl

theorem update (g : Ctx → Ctx) : Parses (updateCtx g) s [] () (g s.ctx) := fun _ => rfl

theorem getCtxThen {f : Ctx → Walk β} (hf : Parses (f s.ctx) s x b d) : Parses (getCtx >>= f) s x b d := fun h => by
  rw [walk_bind_ok (walk_getCtx s), hf h]

theorem getPosThen {f : Nat → Walk β} (hf : Parses (f s.curPos) s x b d) : Parses (getPos >>= f) s x b d := fun h => by
  rw [walk_bind_ok (walk_getPos s), hf h]

theorem requireThen {flag : Ctx → Bool} {f : Unit → Walk β} (hv : flag s.ctx = true) (hf : Parses (f ()) s x b d) :
    Parses (requireValid flag >>= f) s x b d := fun h => by rw [walk_bind_ok (requireValid_set hv), hf h]

/-- A read of a field that fits. -/
theorem field {n v : Nat} (hv : v < 2 ^ n) : Parses (readBits n) s (natToBits n v) v s.ctx := fun h => by
  rw [readBits_field hv h, natToBits_length]; rfl

/-- A read of a one-bit flag. -/
theorem flag (v : Bool) : Parses (readBits 1) s [v] v.toNat s.ctx := fun h => readBits_flag h

theorem skip {n : Nat} (hn : x.length = n) : Parses (skipBits n) s x () s.ctx := fun h => by
  subst hn; exact skipBits_ahead h

/-- Two reads of one field whose value nothing uses. -/
theorem skipSkip {m n : Nat} (h : x.length = m + n) : Parses (do skipBits m; skipBits n) s x () s.ctx := by
  have hx : x = x.take m ++ x.drop m := (List.take_append_drop m x).symm
  rw [hx]
  exact (skip (by rw [List.length_take]; omega)).bind (skip (by rw [List.length_drop]; omega))

theorem whileAgain {body : α → Walk (α ⊕ β)} (hc : Consumes body) {a' : α} (h : Parses (body a) s x (.inl a') c)
    (h' : Parses (whileBits body a') ((s.advance x.length).withCtx c) y b d) :
    Parses (whileBits body a) s (x ++ y) b d := fun ha => by
  obtain ⟨hx, hy⟩ := ahead_append ha
  rw [whileBits_again hc (h hx), h' hy, State.withCtx_advance, State.advance_advance, State.withCtx_withCtx,
    List.length_append]

theorem whileDone {body : α → Walk (α ⊕ β)} (h : Parses (body a) s x (.inr b) d) :
    Parses (whileBits body a) s x b d := fun ha => whileBits_done (h ha)

end Parses

/-! ## Loops over items -/

section loops
variable {ι κ : Type} {s : State} {bits : ι → Bits}

/-- As many runs as there are items, each taking one. -/
theorem parses_times {m : Walk Unit} (items : List ι)
    (h : ∀ x ∈ items, ∀ n, Parses m (s.advance n) (bits x) () s.ctx) :
    Parses (times items.length m) s (items.flatMap bits) () s.ctx := by
  have from_ (items : List ι) (h : ∀ x ∈ items, ∀ n, Parses m (s.advance n) (bits x) () s.ctx) :
      ∀ i n, Parses (foldFrom (fun _ _ => m) i items.length ()) (s.advance n) (items.flatMap bits) () s.ctx := by
    induction items with
    | nil => exact fun _ _ => .pure ()
    | cons x rest ih =>
      intro i n
      have hrest := ih (fun y hy => h y (List.mem_cons_of_mem x hy)) (i + 1) (n + (bits x).length)
      rw [← State.advance_advance] at hrest
      exact (h x List.mem_cons_self n).bind hrest
  exact from_ items h 0 0

/-- A pass for each element, which takes an item where a test says so. -/
theorem parses_forEach_whenTrue {m : Walk Unit} {p : κ → Bool} :
    ∀ (v : List κ) (items : List ι) (n : Nat), items.length = v.countP p →
      (∀ x ∈ items, ∀ n, Parses m (s.advance n) (bits x) () s.ctx) →
      Parses (forEach (fun k => whenTrue (p k) m) v) (s.advance n) (items.flatMap bits) () s.ctx
  | [], items, n, hl, _ => by
    rw [List.countP_nil, List.length_eq_zero_iff] at hl
    subst hl
    exact .pure ()
  | k :: v, items, n, hl, h => by
    cases hk : p k with
    | false =>
      have rest := parses_forEach_whenTrue v items n (by rw [hl, List.countP_cons, hk]; rfl) h
      have skipped : Parses (whenTrue (p k) m) (s.advance n) [] () s.ctx := by rw [hk]; exact .pure ()
      exact skipped.bind rest
    | true =>
      cases items with
      | nil => simp [hk] at hl
      | cons x items =>
        have rest := parses_forEach_whenTrue (m := m) v items (n + (bits x).length)
          (by simpa [List.countP_cons, hk] using hl) fun y hy => h y (List.mem_cons_of_mem x hy)
        rw [← State.advance_advance] at rest
        have taken : Parses (whenTrue (p k) m) (s.advance n) (bits x) () s.ctx := by
          rw [hk]; exact h x List.mem_cons_self n
        exact taken.bind rest

/-- A list matched with two lists in a row falls into two parts. -/
theorem forall₂_append_left {R : κ → ι → Prop} {x y : List κ} {l : List ι} (h : List.Forall₂ R (x ++ y) l) :
    ∃ l₁ l₂, l = l₁ ++ l₂ ∧ List.Forall₂ R x l₁ ∧ List.Forall₂ R y l₂ :=
  ⟨l.take x.length, l.drop x.length, (List.take_append_drop _ l).symm,
    (List.forall₂_take_append l x y h.flip).flip, (List.forall₂_drop_append l x y h.flip).flip⟩

/-- A counting loop over a range, where pass `i` takes items of the kinds `kinds i` and counts them. -/
theorem parses_counting {R : κ → ι → Prop} {f : Nat → Nat → Walk Nat} {kinds : Nat → List κ}
    (hf : ∀ i k n items, List.Forall₂ R (kinds i) items →
      Parses (f i k) (s.advance n) (items.flatMap bits) (k + items.length) s.ctx) :
    ∀ (count i k n : Nat) (items : List ι), List.Forall₂ R ((List.range' i count).flatMap kinds) items →
      Parses (foldFrom f i count k) (s.advance n) (items.flatMap bits) (k + items.length) s.ctx
  | 0, i, k, n, items, h => by
    cases List.forall₂_nil_left_iff.mp h
    exact .pure k
  | count + 1, i, k, n, items, h => by
    rw [List.range'_succ, List.flatMap_cons] at h
    obtain ⟨first, rest, rfl, hfirst, hrest⟩ := forall₂_append_left h
    have tail := parses_counting hf count (i + 1) (k + first.length) (n + (first.flatMap bits).length) rest hrest
    rw [← State.advance_advance, Nat.add_assoc, ← List.length_append] at tail
    rw [List.flatMap_append]
    exact (hf i k n first hfirst).bind tail

end loops

end Sys2Proof.Machine
end

section
/-! SUPPORT. The parts of an individual_channel_stream that only read, over the bits the grammar gives them (R124, R181
to R189, R200 to R211). -/

namespace Sys2Proof.Machine

open Sys2Proof.Grammar

variable {s : State}

/-! ## Codewords and scale factors -/

theorem descend_parses : ∀ (t : Trie) (s : State) (path : Bits) (sym : Nat), subtrie t path = .leaf sym →
    Parses (descend t) s path sym s.ctx
  | .leaf sym', s, [], sym, h => by cases h; exact .pure sym'
  | .leaf _, _, _ :: _, _, h => nomatch h
  | .absent, _, [], _, h => nomatch h
  | .absent, _, _ :: _, _, h => nomatch h
  | .node _ _, _, [], _, h => nomatch h
  | .node c0 c1, s, b :: rest, sym, h => by
    refine Parses.bind (.flag b) ?_
    cases b with
    | false => exact descend_parses c0 _ rest sym h
    | true => exact descend_parses c1 _ rest sym h

theorem huffDecode_parses {t sym : Nat} {path : Bits} (h : IsCodeword s t path sym) :
    Parses (huffDecode t) s path sym s.ctx := descend_parses (s.trie t) s path sym h

/-- The bands of group `g` that take a symbol, one entry each. -/
def codedBandsOf (c : Ctx) (g : Nat) : List Unit :=
  (List.range' 0 c.maxSfb).flatMap fun sfb => if bandCb c g sfb = 0 then [] else [()]

theorem codedBandsOf_length (c : Ctx) (g : Nat) :
    (codedBandsOf c g).length = (List.range c.maxSfb).countP fun sfb => decide (bandCb c g sfb ≠ 0) := by
  rw [codedBandsOf, ← List.range_eq_range']
  induction List.range c.maxSfb with
  | nil => rfl
  | cons sfb rest ih =>
    rw [List.flatMap_cons, List.length_append, ih, List.countP_cons, Nat.add_comm]
    by_cases h : bandCb c g sfb = 0 <;> simp [h]

theorem codedBands_eq_length (c : Ctx) :
    codedBands c = ((List.range' 0 c.numWindowGroups).flatMap (codedBandsOf c)).length := by
  rw [List.length_flatMap, codedBands, ← List.range_eq_range']
  simp only [codedBandsOf_length]

/-- SCALE_FACTOR_DATA over one codeword of table 0 for each coded band (R181). -/
theorem scaleFactorDataBody_parses {words : List Bits} (hv : s.ctx.vSect = true)
    (hlen : words.length = codedBands s.ctx) (hw : ∀ w ∈ words, ∃ sym, IsCodeword s 0 w sym) :
    Parses scaleFactorDataBody s words.flatten words.length s.ctx := by
  have matched : List.Forall₂ (fun _ w => ∃ sym, IsCodeword s 0 w sym)
      ((List.range' 0 s.ctx.numWindowGroups).flatMap (codedBandsOf s.ctx)) words :=
    List.forall₂_iff_zip.mpr ⟨by rw [hlen, codedBands_eq_length], fun h => hw _ (List.of_mem_zip h).2⟩
  have band (g sfb k n : Nat) (items : List Bits)
      (h : List.Forall₂ (fun _ w => ∃ sym, IsCodeword s 0 w sym) (if bandCb s.ctx g sfb = 0 then [] else [()]) items) :
      Parses (scaleFactorBand g sfb k) (s.advance n) (items.flatMap id) (k + items.length) s.ctx := by
    refine .getCtxThen ?_
    by_cases hz : bandCb s.ctx g sfb = 0
    · rw [if_pos hz] at h
      cases h
      rw [State.advance_ctx, if_pos hz]
      exact .pure k
    · rw [if_neg hz] at h
      obtain ⟨w, rest, ⟨sym, hsym⟩, hnil, rfl⟩ := List.forall₂_cons_left_iff.mp h
      cases hnil
      rw [State.advance_ctx, if_neg hz, List.flatMap_singleton]
      exact (huffDecode_parses (s := s.advance n) hsym).map fun _ => k + 1
  have all := parses_counting (s := s)
    (fun g k n items h => parses_counting (band g) s.ctx.maxSfb 0 k n items h) s.ctx.numWindowGroups 0 0 0 words matched
  rw [List.flatMap_id, Nat.zero_add] at all
  exact .requireThen hv (.getCtxThen all)

/-! ## pulse_data -/

theorem pulseDataBody_parses {x : Pulse} (h : x.Ok) :
    Parses pulseDataBody s x.bits (8 + 9 * x.pulses.length) s.ctx := by
  obtain ⟨hstart, hlo, hhi, hpulse⟩ := h
  rw [Pulse.bits, List.append_assoc]
  refine .bind (.field (by omega)) <| .bind (.skip hstart) ?_
  rw [Nat.sub_add_cancel hlo, ← List.flatMap_id]
  exact (parses_times x.pulses fun p hp _ => .skipSkip (hpulse p hp)).map fun _ => 8 + 9 * x.pulses.length

/-! ## tns_data -/

theorem tnsFilter_parses {short coefRes : Bool} {f : TnsFilter} (h : f.Ok short coefRes) :
    Parses (tnsFilter short coefRes.toNat) s (f.bits short) () s.ctx := by
  obtain ⟨hlen, horder, hcoef⟩ := h
  rw [TnsFilter.bits, List.append_assoc]
  have hfit : f.coefs.length < 2 ^ (if short then 3 else 5) := by cases short <;> exact horder
  refine .bind (.skip hlen) <| .bind (.field hfit) ?_
  by_cases hz : f.coefs = []
  · rw [if_pos hz, hz]; exact .pure ()
  · rw [if_neg hz, if_pos (List.length_pos_iff.mpr hz)]
    refine Parses.bind (x := [f.direction]) (.skip rfl) <| Parses.bind (x := [f.compress]) (.flag _) ?_
    rw [← List.flatMap_id]
    exact parses_times f.coefs fun x hx _ => .skip (hcoef x hx)

theorem tnsWindow_parses {short : Bool} {w : TnsWindow} (h : w.Ok short) :
    Parses (tnsWindow short) s (w.bits short) () s.ctx := by
  obtain ⟨hlen, hf⟩ := h
  have hfit : w.filters.length < 2 ^ (if short then 1 else 2) := by cases short <;> exact hlen
  refine .bind (.field hfit) ?_
  by_cases hz : w.filters = []
  · rw [if_pos hz, hz]; exact .pure ()
  · rw [if_neg hz, if_pos (List.length_pos_iff.mpr hz)]
    exact Parses.bind (x := [w.coefRes]) (.flag _) (parses_times w.filters fun f hfm _ => tnsFilter_parses (hf f hfm))

/-- The bits a walk took, as its two looks at the cursor give them. -/
theorem Parses.measured {α β : Type} {s : State} {m : Walk α} {bits : Bits} {a : α} {c : Ctx} (f : α → Nat → β)
    (hm : Parses m s bits a c) :
    Parses (do let n0 ← getPos; let r ← m; let n1 ← getPos; Pure.pure (f r (n1 - n0))) s bits (f a bits.length) c :=
  .getPosThen <| hm.bindLast <| by
    rw [walk_bind_ok (walk_getPos _), State.withCtx_curPos, State.advance_curPos, Nat.add_sub_cancel_left]; rfl

/-- TNS_DATA over the filters of each window (R187). -/
theorem tnsDataBody_parses {windows : List TnsWindow} {ws : WindowSequence} (hv : s.ctx.vInfo = true)
    (hws : s.ctx.windowSequence = ws) (hlen : windows.length = s.ctx.numWindows)
    (hw : ∀ w ∈ windows, w.Ok (isShort ws)) :
    Parses tnsDataBody s (windows.flatMap (TnsWindow.bits (isShort ws)))
      (windows.flatMap (TnsWindow.bits (isShort ws))).length s.ctx := by
  refine .requireThen hv (.getCtxThen ?_)
  rw [← hlen, hws]
  exact (parses_times windows fun w hwm _ => tnsWindow_parses (hw w hwm)).measured fun _ n => n

/-! ## gain_control_data -/

theorem gainWindow_parses {w : GainWindow} {width : Nat} (h : gainWindowOk w width) :
    Parses (gainWindow width) s (gainWindowBits w) () s.ctx :=
  .bind (.field h.1) <| parses_times w fun a ha _ => .skipSkip <| by
    rw [List.length_append, (h.2 a ha).1, (h.2 a ha).2]

theorem gainBand_parses {b : List GainWindow} {widths : List Nat} (h : List.Forall₂ gainWindowOk b widths) :
    ∀ s : State, Parses (forEach gainWindow widths) s (b.flatMap gainWindowBits) () s.ctx := by
  induction h with
  | nil => exact fun _ => .pure ()
  | cons hw _ ih => exact fun s => (gainWindow_parses hw).bind (ih _)

/-- GAIN_CONTROL_DATA over its bands (R189). -/
theorem gainControlDataBody_parses {bands : List (List GainWindow)} {ws : WindowSequence} (hv : s.ctx.vInfo = true)
    (hws : s.ctx.windowSequence = ws) (h : gainOk ws bands) :
    Parses gainControlDataBody s (gainBits bands) (gainBits bands).length s.ctx := by
  have read : Parses (do let maxBand ← readBits 2; times maxBand (forEach gainWindow (alocWidths ws)))
      s (gainBits bands) () s.ctx :=
    .bind (.field h.1) (parses_times bands fun b hb _ => gainBand_parses (h.2 b hb) _)
  have := read.measured fun _ n => n
  simp only [bind_assoc, ← hws] at this
  exact .requireThen hv (.getCtxThen this)

/-! ## Spectral units -/

theorem escPrefixBit_parses (b : Bool) (k : Nat) :
    Parses (escPrefixBit k) s [b] (if b then .inl (k + 1) else .inr k) s.ctx := by
  have := (Parses.flag (s := s) b).map fun v => if v = 1 then (Sum.inl (k + 1) : Nat ⊕ Nat) else .inr k
  cases b <;> exact this

/-- A run of ones and the 0 that ends it (R204). -/
theorem escPrefix_parses : ∀ (n k : Nat) (s : State),
    Parses (whileBits escPrefixBit k) s (List.replicate n true ++ [false]) (k + n) s.ctx
  | 0, k, _ => .whileDone (escPrefixBit_parses false k)
  | n + 1, k, s => by
    have rest := escPrefix_parses n (k + 1) (s.advance [true].length)
    rw [Nat.add_right_comm, Nat.add_assoc] at rest
    exact .whileAgain (x := [true]) (c := s.ctx) escPrefixBit_consumes (escPrefixBit_parses true k) rest

/-- A read of a field given by its bits. -/
theorem Parses.bits {n : Nat} {x : Bits} (h : x.length = n) : Parses (readBits n) s x (bitsToNat x) s.ctx :=
  fun ha => by subst h; exact readBits_ahead ha

theorem escSeq_parses {e : Escape} (h : e.Ok) : Parses escSeq s e.bits (e.prefixLen, bitsToNat e.word) s.ctx := by
  have hb : e.bits = (List.replicate e.prefixLen true ++ [false]) ++ e.word := by simp [Escape.bits]
  rw [hb]
  have hprefix := escPrefix_parses e.prefixLen 0 s
  rw [Nat.zero_add] at hprefix
  exact hprefix.bind ((Parses.bits h).map fun w => (e.prefixLen, w))

/-- The sign bits and the escape sequences of a tuple (R142, R143, R202). -/
theorem unitTail_parses {cb : Nat} {v : List Int} {signs : Bits} {escapes : List Escape}
    (hs : signs.length = signCount cb v) (he : escapes.length = escCount cb v) (hok : ∀ e ∈ escapes, e.Ok) :
    Parses (unitTail cb v) s (signs ++ escapes.flatMap Escape.bits) () s.ctx := by
  have signPass : Parses (whenTrue (!(cbParams cb).signed) (forEach (fun x => whenTrue (x != 0) (skipBits 1)) v)) s
      signs () s.ctx := by
    unfold signCount at hs
    cases hsigned : (cbParams cb).signed with
    | true =>
      rw [if_pos hsigned, List.length_eq_zero_iff] at hs
      subst hs
      exact .pure ()
    | false =>
      have hcount : signs.length = v.countP fun x => x != 0 := by
        rw [hs, hsigned]
        exact List.countP_congr fun x _ => by simp
      have := parses_forEach_whenTrue (s := s) (bits := fun b : Bool => [b]) v signs 0 hcount
        fun _ _ _ => .skip rfl
      rwa [List.flatMap_singleton'] at this
  refine signPass.bind ?_
  unfold escCount at he
  by_cases hcb : cb = 11
  · rw [if_pos hcb] at he
    rw [hcb]
    exact parses_forEach_whenTrue v escapes _ he fun e hmem _ => (escSeq_parses (hok e hmem)).map fun _ => ()
  · rw [if_neg hcb, List.length_eq_zero_iff] at he
    subst he
    rw [show (cb == 11) = false from beq_false_of_ne hcb]
    exact .pure ()

theorem specUnit_parses {cb : Nat} {u : SpecUnit} (h : u.Ok s cb) :
    Parses (specUnit cb) s u.bits (u.idx, cbValue cb u.idx, u.bits.length) s.ctx := by
  obtain ⟨hcode, hsigns, hescapes, hok⟩ := h
  have read : Parses (do let idx ← huffDecode cb; unitTail cb (cbValue cb idx); Pure.pure idx) s u.bits u.idx
      s.ctx := by
    rw [SpecUnit.bits, List.append_assoc]
    exact (huffDecode_parses hcode).bind ((unitTail_parses hsigns hescapes hok).map fun _ => u.idx)
  have := read.measured fun idx n => (idx, cbValue cb idx, n)
  simp only [bind_assoc, pure_bind] at this
  exact this

/-! ## spectral_data -/

/-- A list read by index up to `n`, where what lies past its end gives nothing. -/
theorem flatMap_range_getD {α β : Type} (F : α → List β) {d : α} (hd : F d = []) :
    ∀ (n : Nat) (l : List α), (List.range n).flatMap (fun i => F (l.getD i d)) = (l.take n).flatMap F
  | 0, _ => by simp
  | n + 1, [] => by simp [hd]
  | n + 1, x :: l => by
    rw [List.range_succ_eq_map, List.flatMap_cons, List.flatMap_map, List.take_succ_cons, List.flatMap_cons,
      ← flatMap_range_getD F hd n l]
    rfl

/-- The codebooks of the units of a section of group `g` (R207). -/
def sectionUnits (c : Ctx) (g : Nat) (x : Section) : List Nat :=
  if isSpectralCb x.cb then
    List.replicate (unitsBetween (bandEdge c g x.first) (bandEdge c g x.last) (cbParams x.cb).dim) x.cb
  else []

/-- The codebooks of the units of group `g`, section by section as R207's loop visits them. -/
def groupUnits (c : Ctx) (g : Nat) : List Nat :=
  (List.range' 0 (c.numSec.getD g 0)).flatMap fun i => sectionUnits c g ((c.sect.getD g []).getD i ⟨0, 0, 0⟩)

theorem unitCodebooks_eq (c : Ctx) : unitCodebooks c = (List.range' 0 c.numWindowGroups).flatMap (groupUnits c) := by
  unfold groupUnits
  simp only [← List.range_eq_range', flatMap_range_getD (sectionUnits c _) (d := ⟨0, 0, 0⟩) rfl]
  rfl

theorem flatMap_range'_singleton (a : Nat) : ∀ n i : Nat, (List.range' i n).flatMap (fun _ => [a]) = List.replicate n a
  | 0, _ => rfl
  | n + 1, i => by
    rw [List.range'_succ, List.flatMap_cons, flatMap_range'_singleton a n, List.replicate_succ]; rfl

theorem spectralSection_parses (g : Nat) (x : Section) (k n : Nat) (units : List SpecUnit)
    (h : List.Forall₂ (SpecUnit.Ok s) (sectionUnits s.ctx g x) units) :
    Parses (spectralSection s.ctx g x k) (s.advance n) (units.flatMap SpecUnit.bits) (k + units.length) s.ctx := by
  unfold sectionUnits at h
  unfold spectralSection
  cases hcb : isSpectralCb x.cb with
  | false =>
    rw [hcb] at h
    cases h
    exact .pure k
  | true =>
    rw [hcb, if_pos rfl] at h
    rw [if_pos rfl]
    refine parses_counting (R := SpecUnit.Ok s) (kinds := fun _ => [x.cb]) (fun _ k n items hi => ?_) _ 0 k n units ?_
    · obtain ⟨u, rest, hu, hnil, rfl⟩ := List.forall₂_cons_left_iff.mp hi
      cases hnil
      rw [List.flatMap_singleton]
      exact (specUnit_parses (s := s.advance n) hu).map fun _ => k + 1
    · rwa [flatMap_range'_singleton]

theorem spectralGroup_parses (g k n : Nat) (units : List SpecUnit)
    (h : List.Forall₂ (SpecUnit.Ok s) (groupUnits s.ctx g) units) :
    Parses (spectralGroup s.ctx g k) (s.advance n) (units.flatMap SpecUnit.bits) (k + units.length) s.ctx :=
  parses_counting
    (fun i k n items hi => spectralSection_parses g ((s.ctx.sect.getD g []).getD i ⟨0, 0, 0⟩) k n items hi)
    (s.ctx.numSec.getD g 0) 0 k n units h

theorem spectralDataBody_parses {units : List SpecUnit} (hv : s.ctx.vSect = true)
    (h : List.Forall₂ (SpecUnit.Ok s) (unitCodebooks s.ctx) units) :
    Parses spectralDataBody s (units.flatMap SpecUnit.bits) (units.length, (units.flatMap SpecUnit.bits).length)
      s.ctx := by
  rw [unitCodebooks_eq] at h
  have all := parses_counting (s := s) spectralGroup_parses s.ctx.numWindowGroups 0 0 0 units h
  rw [Nat.zero_add] at all
  exact .requireThen hv (.getCtxThen (all.measured fun r n => (r, n)))

end Sys2Proof.Machine
end

section
/-! PROOFS. ICS_INFO, SECTION_DATA, ICS and SCE over an individual_channel_stream (R171 to R179, R222 to R224). -/

namespace Sys2Proof.Machine

open Sys2Proof.Grammar

variable {s : State}

/-! ## ics_info -/

/-- An optional part behind its flag (R171, R222). -/
theorem Parses.optional {ι : Type} {m : Walk Unit} {bits : ι → Bits} {o : Option ι}
    (h : ∀ x, o = some x → ∀ n, Parses m (s.advance n) (bits x) () s.ctx) :
    Parses (do let flag ← readBits 1; whenTrue (flag == 1) m) s (optional bits o) () s.ctx := by
  cases o with
  | none => exact Parses.bind (.flag false) (.pure ())
  | some x => exact Parses.bind (x := [true]) (.flag true) (h x rfl _)

theorem predictorData_parses {p : Predictor} {maxSfb : Nat} (hused : p.used.length = min maxSfb predSfbMax)
    (hreset : ∀ g, p.resetGroup = some g → g.length = predResetGroupBits) :
    Parses (predictorData maxSfb) s p.bits () s.ctx := by
  have flags (n : Nat) : Parses (times (min maxSfb predSfbMax) (skipBits 1)) (s.advance n) p.used () s.ctx := by
    have := parses_times (s := s.advance n) (bits := fun b : Bool => [b]) p.used fun _ _ _ => .skip rfl
    rwa [List.flatMap_singleton', hused] at this
  have read := (Parses.optional (m := skipBits predResetGroupBits) (bits := id) (o := p.resetGroup)
    fun g hg n => .skip (s := s.advance n) (hreset g hg)).bind (flags _)
  rwa [bind_assoc] at read

theorem windowSequenceOf_windowCode (ws : WindowSequence) : windowSequenceOf (windowCode ws) = ws := by cases ws <;> rfl

theorem windowCode_lt (ws : WindowSequence) : windowCode ws < 2 ^ 2 := by cases ws <;> decide

/-- The context after what ICS_INFO reads behind window_shape. -/
def windowContext (w : Window) (c : Ctx) : Ctx :=
  match w with
  | .long _ maxSfb predictor =>
    { c with
      maxSfb := maxSfb, scaleFactorGrouping := 0, predictorDataPresent := predictor.isSome.toNat, numWindows := 1
      numWindowGroups := 1, windowGroupLength := [1] }
  | .short maxSfb g =>
    { c with
      maxSfb := maxSfb, scaleFactorGrouping := g, predictorDataPresent := 0, numWindows := 8
      numWindowGroups := (grouping g).length, windowGroupLength := grouping g }

theorem icsInfoShort_parses {maxSfb g : Nat} (hmax : maxSfb ≤ numSwbShort) (hg : g < 128) :
    Parses icsInfoShort s (natToBits 4 maxSfb ++ natToBits 7 g) () (windowContext (.short maxSfb g) s.ctx) := by
  have hfit : maxSfb < 2 ^ 4 := Nat.lt_of_le_of_lt hmax (by decide)
  refine .bind (.field hfit) <| .updateThen ?_
  rw [if_neg (Nat.not_lt.mpr hmax)]
  exact (Parses.field hg).bindLast rfl

theorem icsInfoLong_parses {ws : WindowSequence} {maxSfb : Nat} {predictor : Option Predictor}
    (hmax : maxSfb ≤ numSwbLong) (hp : ∀ p, predictor = some p → p.used.length = min maxSfb predSfbMax ∧
      ∀ g, p.resetGroup = some g → g.length = predResetGroupBits) :
    Parses icsInfoLong s (natToBits 6 maxSfb ++ optional Predictor.bits predictor) ()
      (windowContext (.long ws maxSfb predictor) s.ctx) := by
  have hfit : maxSfb < 2 ^ 6 := Nat.lt_of_le_of_lt hmax (by decide)
  refine .bind (.field hfit) <| .updateThen ?_
  rw [if_neg (Nat.not_lt.mpr hmax)]
  refine .updateThen ?_
  cases predictor with
  | none => exact Parses.bindLast (Parses.flag false) rfl
  | some p =>
    refine Parses.bind (x := [true]) (.flag true) <| .updateThen ?_
    obtain ⟨hused, hreset⟩ := hp p rfl
    exact (predictorData_parses hused hreset).bindLast rfl

/-- The context before the window part, once window_shape is read (R171). -/
def headContext (reserved shape : Bool) (ws : WindowSequence) (c : Ctx) : Ctx :=
  { clearValid c with
    icsReservedBit := reserved.toNat, windowSequence := ws, windowShape := shape.toNat }

/-- The last writes of ICS_INFO (R171, R174). -/
def finishInfo (c : Ctx) : Ctx :=
  { c with sectSfbOffset := offsets c.windowSequence c.maxSfb c.windowGroupLength, vInfo := true }

theorem icsInfoFinish_parses {t : State} {ws : WindowSequence} {rest : Bits} {c : Ctx}
    (hw : Parses (icsInfoWindow ws) t rest () c) :
    Parses (do icsInfoWindow ws
               updateCtx fun c => { c with sectSfbOffset := offsets c.windowSequence c.maxSfb c.windowGroupLength }
               updateCtx setValidInfo) t rest () (finishInfo c) := hw.bindLast rfl

/-- ICS_INFO over its head and any window part. -/
theorem icsInfoBody_parses_window {reserved shape : Bool} {ws : WindowSequence} {rest : Bits} {f : Ctx → Ctx}
    (hw : ∀ t : State, Parses (icsInfoWindow ws) t rest () (f t.ctx)) :
    Parses icsInfoBody s ([reserved] ++ (natToBits 2 (windowCode ws) ++ ([shape] ++ rest))) ()
      (finishInfo (f (headContext reserved shape ws s.ctx))) := by
  refine .updateThen <| .bind (.flag reserved) <| .updateThen <| .bind (.field (windowCode_lt ws)) <| .updateThen <|
    .bind (.flag shape) <| .updateThen ?_
  rw [windowSequenceOf_windowCode]
  exact icsInfoFinish_parses (hw _)

/-- ICS_INFO over an ics_info (R171 to R175). -/
theorem icsInfoBody_parses {x : IcsInfo} (h : x.Ok) : Parses icsInfoBody s x.bits () (x.context s.ctx) := by
  obtain ⟨reserved, shape, window⟩ := x
  cases window with
  | long ws maxSfb predictor =>
    obtain ⟨hws, hmax, hp⟩ := h
    have hlong : icsInfoWindow ws = icsInfoLong := if_neg (by simpa [isShort] using hws)
    have hbits : IcsInfo.bits ⟨reserved, shape, .long ws maxSfb predictor⟩ =
        [reserved] ++ (natToBits 2 (windowCode ws) ++ ([shape] ++
          (natToBits 6 maxSfb ++ optional Predictor.bits predictor))) := by simp [IcsInfo.bits]
    rw [hbits]
    exact icsInfoBody_parses_window fun t => by rw [hlong]; exact icsInfoLong_parses (ws := ws) hmax hp
  | short maxSfb g =>
    obtain ⟨hmax, hg⟩ := h
    have hbits : IcsInfo.bits ⟨reserved, shape, .short maxSfb g⟩ =
        [reserved] ++ (natToBits 2 (windowCode .eightShort) ++ ([shape] ++
          (natToBits 4 maxSfb ++ natToBits 7 g))) := by simp [IcsInfo.bits]
    rw [hbits]
    exact icsInfoBody_parses_window (f := windowContext (.short maxSfb g)) fun t => icsInfoShort_parses hmax hg

theorem icsInfo_context_vInfo (x : IcsInfo) (c : Ctx) : (x.context c).vInfo = true := by
  obtain ⟨_, _, window⟩ := x; cases window <;> rfl

theorem icsInfo_context_windowSequence (x : IcsInfo) (c : Ctx) : (x.context c).windowSequence = x.ws := by
  obtain ⟨_, _, window⟩ := x; cases window <;> rfl

/-- ICS_INFO does not depend on the flags it clears. -/
theorem icsInfo_context_clearValid (x : IcsInfo) (c : Ctx) : x.context (clearValid c) = x.context c := by
  obtain ⟨_, _, window⟩ := x; cases window <;> rfl

/-! ## section_data -/

/-- A section's length: all-ones increments and the rest (R176). -/
theorem sectionLength_parses (ws : WindowSequence) {r : Nat} (hr : r < sectEsc ws) : ∀ (q len : Nat) (s : State),
    Parses (whileBits (sectionIncrement ws) len) s
      ((List.replicate q (natToBits (sectBits ws) (sectEsc ws))).flatten ++ natToBits (sectBits ws) r)
      (len + q * sectEsc ws + r) s.ctx := by
  have hesc : sectEsc ws < 2 ^ sectBits ws := by unfold sectEsc sectBits; split <;> decide
  have increment (v len : Nat) (hv : v < 2 ^ sectBits ws) (s : State) :
      Parses (sectionIncrement ws len) s (natToBits (sectBits ws) v)
        (if v = sectEsc ws then .inl (len + v) else .inr (len + v)) s.ctx :=
    (Parses.field hv).map fun v => if v = sectEsc ws then (Sum.inl (len + v) : Nat ⊕ Nat) else .inr (len + v)
  intro q
  induction q with
  | zero =>
    intro len s
    have last := increment r len (hr.trans hesc) s
    rw [if_neg (Nat.ne_of_lt hr)] at last
    rw [Nat.zero_mul]
    exact .whileDone last
  | succ q ih =>
    intro len s
    have first := increment (sectEsc ws) len hesc s
    rw [if_pos rfl] at first
    have rest := ih (len + sectEsc ws) (s.advance (natToBits (sectBits ws) (sectEsc ws)).length)
    rw [List.replicate_succ, List.flatten_cons, List.append_assoc,
      show len + (q + 1) * sectEsc ws + r = len + sectEsc ws + q * sectEsc ws + r by ring]
    exact .whileAgain (sectionIncrement_consumes ws) first rest

/-- A pass that goes on has read the 4 bits of a codebook. -/
theorem sectionPass_consumes (g : Nat) : Consumes (sectionPass g) := fun k k' s t h => by
  obtain ⟨c, u, hc, hrest⟩ := walk_bind_eq_ok.mp h
  cases hc
  by_cases hk : k < s.ctx.maxSfb
  · rw [if_pos hk] at hrest
    obtain ⟨cb, v, hcb, htail⟩ := walk_bind_eq_ok.mp hrest
    have hread := readBits_unread hcb
    obtain ⟨len, w, hlen, hend⟩ := walk_bind_eq_ok.mp htail
    have hle := (sectionLength_readsForward _).unread_le hlen
    split at hend
    · cases hend
    · obtain ⟨_, w', hstore, hp⟩ := walk_bind_eq_ok.mp hend
      cases hp
      have := (Keeps.whenTrue unread_le_steps.toSteps (.updateCtx unread_le_steps.toStepsCtx _) _ w).1 _ _ hstore
      omega
  · rw [if_neg hk] at hrest
    cases hrest

theorem sectEsc_pos (ws : WindowSequence) : 0 < sectEsc ws := by unfold sectEsc; split <;> decide

/-- One section of the open group (R176, R178). -/
theorem sectionPass_parses {c : Ctx} {groups : List (List Section)} {cur : List Section} {k : Nat} {x : RawSection}
    (hs : s.ctx = withOpenGroup c groups cur) (hcb : x.cb < 16) (hk : k < c.maxSfb) (hlen : k + x.len ≤ c.maxSfb) :
    Parses (sectionPass groups.length k) s (x.bits c.windowSequence) (.inl (k + x.len))
      (withOpenGroup c groups (cur ++ storedFrom k [x])) := by
  have hmax : s.ctx.maxSfb = c.maxSfb := by rw [hs]; rfl
  have hws : s.ctx.windowSequence = c.windowSequence := by rw [hs]; rfl
  have length := sectionLength_parses c.windowSequence (Nat.mod_lt x.len (sectEsc_pos c.windowSequence))
    (x.len / sectEsc c.windowSequence) 0 (s.advance (natToBits 4 x.cb).length)
  rw [Nat.zero_add, Nat.div_add_mod'] at length
  rw [RawSection.bits, List.append_assoc]
  refine .getCtxThen ?_
  rw [hmax, hws, if_pos hk]
  refine .bind (.field hcb) <| length.bindLast ?_
  rw [if_neg (Nat.not_lt.mpr hlen)]
  by_cases hz : x.len = 0
  · rw [show storedFrom k [x] = [] by simp [storedFrom, hz], List.append_nil, ← hs, hz]; rfl
  · rw [show storedFrom k [x] = [⟨x.cb, k, k + x.len⟩] by simp [storedFrom, hz], ← storeSection_eq, ← hs,
      show decide (x.len > 0) = true from decide_eq_true (Nat.pos_of_ne_zero hz)]
    rfl

theorem storedFrom_cons (k : Nat) (x : RawSection) (rest : List RawSection) :
    storedFrom k (x :: rest) = storedFrom k [x] ++ storedFrom (k + x.len) rest := by
  by_cases hz : x.len = 0 <;> simp [storedFrom, hz]

/-- The sections that are left of the open group, up to where the bands end (R176). -/
theorem sectionPasses_parse {c : Ctx} {groups : List (List Section)} :
    ∀ (raws : List RawSection) (k : Nat) (cur : List Section) (s : State), s.ctx = withOpenGroup c groups cur →
      groupPrefix c.maxSfb k raws c.maxSfb →
      Parses (whileBits (sectionPass groups.length) k) s (raws.flatMap (RawSection.bits c.windowSequence)) ()
        (withOpenGroup c groups (cur ++ storedFrom k raws))
  | [], k, cur, s, hs, h => by
    have hmax : s.ctx.maxSfb = c.maxSfb := by rw [hs]; rfl
    rw [storedFrom, List.append_nil, ← hs]
    refine .whileDone (.getCtxThen ?_)
    rw [if_neg (by rw [hmax, h]; exact Nat.lt_irrefl _)]
    exact .pure _
  | x :: rest, k, cur, s, hs, h => by
    obtain ⟨hcb, hk, hlen, hrest⟩ := h
    rw [storedFrom_cons, ← List.append_assoc]
    exact .whileAgain (sectionPass_consumes _) (sectionPass_parses hs hcb hk hlen)
      (sectionPasses_parse rest (k + x.len) (cur ++ storedFrom k [x]) _ rfl hrest)

/-- A whole group (R176). -/
theorem sectionGroup_parses {c : Ctx} {groups : List (List Section)} {raws : List RawSection}
    (hs : s.ctx = withSections c groups) (h : groupOk c.maxSfb raws) :
    Parses (sectionGroup groups.length) s (raws.flatMap (RawSection.bits c.windowSequence)) ()
      (withSections c (groups ++ [storedFrom 0 raws])) := by
  refine .updateThen ?_
  have sections := sectionPasses_parse (c := c) (groups := groups) raws 0 [] (s.withCtx (openGroup s.ctx))
    (by rw [hs]; exact openGroup_eq c groups) h
  refine sections.bindLast ?_
  rw [walk_updateCtx, State.withCtx_ctx, List.nil_append, closeGroup_eq]; rfl

/-- The groups that are left (R176). -/
theorem sectionGroups_parse {c : Ctx} :
    ∀ (raws : List (List RawSection)) (groups : List (List Section)) (s : State), s.ctx = withSections c groups →
      (∀ g ∈ raws, groupOk c.maxSfb g) →
      Parses (foldFrom (fun g _ => sectionGroup g) groups.length raws.length ()) s (sectionBits c.windowSequence raws)
        () (withSections c (groups ++ raws.map (storedFrom 0)))
  | [], groups, s, hs, _ => by
    rw [List.map_nil, List.append_nil, ← hs]; exact .pure ()
  | g :: rest, groups, s, hs, h => by
    have tail := sectionGroups_parse rest (groups ++ [storedFrom 0 g])
      ((s.advance (g.flatMap (RawSection.bits c.windowSequence)).length).withCtx
        (withSections c (groups ++ [storedFrom 0 g]))) rfl fun x hx => h x (List.mem_cons_of_mem g hx)
    rw [List.length_append, List.append_assoc] at tail
    exact (sectionGroup_parses hs (h g List.mem_cons_self)).bindCtx tail

theorem sectionContext_eq (groups : List (List RawSection)) (c : Ctx) :
    sectionContext groups c =
      setValidSect (withSections (clearValidSect c) (groups.map (storedFrom 0))) := by
  simp [sectionContext, setValidSect, withSections, clearValidSect]

/-- SECTION_DATA over the sections of every group (R176, R178). -/
theorem sectionDataBody_parses {groups : List (List RawSection)} (hv : s.ctx.vInfo = true)
    (hn : groups.length = s.ctx.numWindowGroups) (hg : ∀ g ∈ groups, groupOk s.ctx.maxSfb g) :
    Parses sectionDataBody s (sectionBits s.ctx.windowSequence groups) () (sectionContext groups s.ctx) := by
  refine .requireThen hv <| .updateThen <| .getCtxThen ?_
  have all := sectionGroups_parse (c := clearValidSect s.ctx) groups [] (s.withCtx (startSections s.ctx))
    (startSections_eq s.ctx) hg
  rw [hn] at all
  rw [sectionContext_eq]
  exact all.bindLast rfl

/-! ## individual_channel_stream -/

/-- An optional block behind its presence flag, whose number nothing uses (R222). -/
theorem whenFlag_parses {ι : Type} {body : Walk Nat} {bits : ι → Bits} {o : Option ι}
    (h : ∀ x, o = some x → ∀ n, ∃ k, Parses body (s.advance n) (bits x) k s.ctx) :
    Parses (whenFlag body) s (optional bits o) () s.ctx :=
  Parses.optional fun x hx n => by
    obtain ⟨k, hk⟩ := h x hx n
    exact hk.map fun _ => ()

theorem isCodeword_of_hrom {s t : State} (h : t.hrom = s.hrom) : IsCodeword t = IsCodeword s := by
  unfold IsCodeword State.trie; rw [h]

theorem specUnitOk_of_hrom {s t : State} (h : t.hrom = s.hrom) : SpecUnit.Ok t = SpecUnit.Ok s := by
  unfold SpecUnit.Ok; rw [isCodeword_of_hrom h]

/-- What ICS reads once its context is written: scale factors, the optional blocks and the spectral units (R222). -/
def icsTail (gain : Nat) : Walk Nat := do
  let _ ← scaleFactorDataBody
  whenFlag pulseDataBody
  whenFlag tnsDataBody
  whenFlag gainControlDataBody
  let _ ← spectralDataBody
  pure gain

/-- The bits of an individual_channel_stream after its sections. -/
def tailBits (x : Ics) : Bits :=
  x.scale.flatten ++ (optional Pulse.bits x.pulse ++
    (optional (fun ws => ws.flatMap (TnsWindow.bits (isShort x.info.ws))) x.tns ++
      (optional gainBits x.gainControl ++ x.units.flatMap SpecUnit.bits)))

theorem icsTail_parses {s t : State} {x : Ics} (h : x.Ok s) (hctx : t.ctx = x.context s.ctx) (hrom : t.hrom = s.hrom)
    (gain : Nat) : Parses (icsTail gain) t (tailBits x) gain (x.context s.ctx) := by
  obtain ⟨-, -, -, -, hscale, hwords, hpulse, htns, hgain, hunits⟩ := h
  have hinfo : t.ctx.vInfo = true := by rw [hctx]; exact icsInfo_context_vInfo x.info _
  have hsect : t.ctx.vSect = true := by rw [hctx]; rfl
  have hws : t.ctx.windowSequence = x.info.ws := by rw [hctx]; exact icsInfo_context_windowSequence x.info _
  rw [← hctx] at hscale htns hunits
  rw [← isCodeword_of_hrom hrom] at hwords
  rw [← specUnitOk_of_hrom hrom] at hunits
  rw [tailBits, ← hctx]
  refine (scaleFactorDataBody_parses hsect hscale hwords).bind <|
    .bind (whenFlag_parses fun p hp _ => ⟨_, pulseDataBody_parses (hpulse p hp)⟩) <|
    .bind (whenFlag_parses fun ws hw _ => ⟨_, tnsDataBody_parses hinfo hws (htns ws hw).1 (htns ws hw).2⟩) <|
    .bind (whenFlag_parses fun b hb _ => ⟨_, gainControlDataBody_parses hinfo hws (hgain b hb)⟩) <|
    Parses.map (a := (x.units.length, (x.units.flatMap SpecUnit.bits).length)) ?_ fun _ => gain
  exact spectralDataBody_parses hsect hunits

/-- The body of ICS over an individual_channel_stream (R222). -/
theorem icsBody_parses {x : Ics} (h : x.Ok s) :
    Parses icsBody s x.bits (x.globalGain, x.bits.length) (x.context s.ctx) := by
  have hok := h
  obtain ⟨hgain, hinfo, hn, hgroups, -⟩ := h
  have hbits : x.bits =
      natToBits 8 x.globalGain ++ (x.info.bits ++ (sectionBits x.info.ws x.groups ++ tailBits x)) := by
    simp [Ics.bits, tailBits]
  have info (t : State) (ht : t.ctx = clearValid { s.ctx with globalGain := x.globalGain }) :
      Parses icsInfoBody t x.info.bits () (x.info.context { s.ctx with globalGain := x.globalGain }) := by
    rw [← icsInfo_context_clearValid, ← ht]; exact icsInfoBody_parses hinfo
  have sections (t : State) (ht : t.ctx = x.info.context { s.ctx with globalGain := x.globalGain }) :
      Parses sectionDataBody t (sectionBits x.info.ws x.groups) () (x.context s.ctx) := by
    rw [Ics.context, ← icsInfo_context_windowSequence x.info { s.ctx with globalGain := x.globalGain }, ← ht]
    refine sectionDataBody_parses ?_ ?_ ?_
    · rw [ht]; exact icsInfo_context_vInfo x.info _
    · rw [ht]; exact hn
    · rw [ht]; exact hgroups
  have read : Parses (do let gain ← readBits 8
                         updateCtx fun c => { c with globalGain := gain }
                         icsInfoBody
                         sectionDataBody
                         icsTail gain)
      (s.withCtx (clearValid s.ctx)) x.bits x.globalGain (x.context s.ctx) := by
    rw [hbits]
    refine .bind (.field hgain) <| .updateThen <| .bindCtx (info _ rfl) <| .bindCtx (sections _ rfl) ?_
    refine icsTail_parses hok ?_ ?_ x.globalGain
    · rfl
    · rfl
  have := read.measured fun gain n => (gain, n)
  simp only [icsTail, bind_assoc, pure_bind] at this
  exact .updateThen this

/-! ## ICS and SCE as commands -/

/-- A walk over its bits, as a command that no error blocks. -/
theorem exec_of_parses {i : Instr} {bits : Bits} {v : Value} {c : Ctx} (hr : refusable i = true) (hw : i.wf = true)
    (he : s.err = 0) (h : Parses (commandWalk i) s bits v c) (ha : Ahead s bits) :
    exec i s = .next (((s.advance bits.length).withCtx c).respond (.ok v)) := by
  rw [exec_refusable hr, hw, stateful_run he, runWalk_ok (h ha)]

/-- The body of SCE: a tag, then an individual_channel_stream, and both flags cleared (R223, R30). -/
theorem sceBody_parses {x : Ics} {tag : Nat} (htag : tag < 16) (h : x.Ok s) :
    Parses sceBody s (natToBits 4 tag ++ x.bits) tag (clearValid (x.context s.ctx)) := by
  have cleared (t : State) (ht : x.Ok t) : Parses (clearAfter icsBody) t x.bits (x.globalGain, x.bits.length)
      (clearValid (x.context t.ctx)) := fun ha => by
    unfold clearAfter; rw [icsBody_parses ht ha]; rfl
  exact .bind (.field htag) ((cleared (s.advance _) h).map fun _ => tag)

/-- Settles O45: the bodies of ICS and SCE parse their grammar part by part, and ICS 1 raises before it reads. -/
theorem icsAndSceParseTheChannelStream : Obligations.IcsAndSceParseTheChannelStream := by
  intro s he
  refine ⟨fun x hx ha => ?_, exec_of_raise rfl rfl he rfl, fun tag x htag hx ha => ?_⟩
  · exact exec_of_parses rfl rfl he ((icsBody_parses hx).map fun r => Value.ics r.1 r.2) ha
  · have := exec_of_parses (i := .sce) rfl rfl he ((sceBody_parses htag hx).map Value.nat) ha
    rwa [List.length_append, natToBits_length] at this

end Sys2Proof.Machine
end

section
/-! SUPPORT. The bit order of a number, of a stream read and of a packed byte (R10, R43, R44). -/

namespace Sys2Proof.Machine

open Sys2Proof.Grammar

/-- Bit i of a sequence, counted from its most significant end, is its entry i (R43). -/
theorem testBit_bitsToNat (bits : Bits) {i : Nat} (h : i < bits.length) :
    (bitsToNat bits).testBit (bits.length - 1 - i) = bits[i] := by
  have spelled : (natToBits bits.length (bitsToNat bits))[i]? = bits[i]? := by rw [natToBits_bitsToNat]
  simpa [natToBits, h] using spelled

/-- Bit 7 - j of byte k of a packed sequence is sequence bit 8k + j (R44). -/
theorem packedByte_getLsbD (bits : Bits) (k : Nat) {j : Nat} (h : j < 8) :
    (packedByte bits k).getLsbD (7 - j) = bits.getD (8 * k + j) false := by
  have := testBit_bitsToNat ((List.range 8).map fun j => bits.getD (8 * k + j) false) (i := j) (by simpa using h)
  rw [List.getElem_map, List.getElem_range, List.length_map, List.length_range] at this
  rw [packedByte, BitVec.getLsbD_ofNat, decide_eq_true (by omega), Bool.true_and, ← this]

@[simp] theorem pack_length (bits : Bits) : (pack bits).length = (bits.length + 7) / 8 := by simp [pack]

/-- Byte k of a packed sequence (R44). -/
theorem pack_getD (bits : Bits) {k : Nat} (h : k < (bits.length + 7) / 8) :
    (pack bits).getD k 0 = packedByte bits k := by
  simp [pack, h]

/-- A stream bit is the low bit of its byte shifted down to it (R10, R100). -/
theorem streamBit_eq_decide (m : Memory) (k : Nat) :
    streamBit m k = decide ((m.read (k / 8)).toNat >>> (7 - k % 8) % 2 = 1) := by
  rw [Nat.shiftRight_eq_div_pow]
  exact Nat.testBit_eq_decide_div_mod_eq

/-- A stream bit as a number. -/
theorem streamBit_toNat (m : Memory) (k : Nat) :
    (streamBit m k).toNat = (m.read (k / 8)).toNat >>> (7 - k % 8) % 2 := by
  rw [Nat.shiftRight_eq_div_pow]
  exact Nat.toNat_testBit ..

theorem streamBits_one (m : Memory) (p : Nat) : streamBits m p 1 = [streamBit m p] := rfl

/-- The number that `n` stream bits spell is R43's sum of weighted bits. -/
theorem bitsToNat_streamBits (m : Memory) (p n : Nat) :
    bitsToNat (streamBits m p n) = ((List.range n).map fun i => (streamBit m (p + i)).toNat * 2 ^ (n - 1 - i)).sum := by
  induction n generalizing p with
  | zero => rfl
  | succ n ih =>
    rw [Nat.add_comm n 1, streamBits_add, streamBits_one, List.singleton_append, bitsToNat_cons, streamBits_length, ih,
      Nat.add_comm 1 n, List.range_succ_eq_map, List.map_cons, List.sum_cons, List.map_map]
    congr 2
    refine List.map_congr_left fun i _ => ?_
    rw [Function.comp_apply, Nat.succ_eq_add_one, Nat.add_right_comm p 1 i, Nat.add_assoc p i 1,
      show n + 1 - 1 - (i + 1) = n - 1 - i by omega]

/-- READBOOL's read is the next stream bit (R102). -/
theorem readBool_enough {s : State} (h : 1 ≤ s.unread) :
    readBool s = .ok (streamBit s.inbuf s.curPos) (s.advance 1) := by
  rw [readBool, walk_bind_ok (readBits_enough h), streamBits_one]
  cases streamBit s.inbuf s.curPos
  · rfl
  · rfl

/-- READBOOL with no bit left consumes nothing (R100, R102). -/
theorem readBool_short {s : State} (h : s.unread < 1) : readBool s = .error .read s := by
  rw [readBool, walk_bind_error (readBits_short h)]

/-- A walk that ends in a value, as a command that no error blocks (R302). -/
theorem exec_of_value {i : Instr} {s t : State} {v : Value} (hr : refusable i = true) (hw : i.wf = true)
    (he : s.err = 0) (hm : commandWalk i s = .ok v t) : exec i s = .next (t.respond (.ok v)) := by
  rw [exec_refusable hr, hw, stateful_run he, runWalk_ok hm]

end Sys2Proof.Machine
end

section
/-! SUPPORT. What a step does with each kind of input, and the response to each instruction (R40, R302, R342). -/

namespace Sys2Proof.Machine

/-- With no input the block waits (R342). -/
theorem step_of_no_input {s : State} (h : s.inputs = []) : step s = .next s := by simp only [step, h]

/-- A reset of the host (R343). -/
theorem step_of_reset {s : State} {rest : List HostInput} (h : s.inputs = .reset :: rest) :
    step s = .next (s.resetBlock rest) := by simp only [step, h]

section command
variable {s : State} {c : Command} {rest : List HostInput} (h : s.inputs = .command c :: rest)
include h

/-- A word that decodes is run on the state that has taken it (R302). -/
theorem step_of_decoded {i : Instr} (hd : decode c.word = .ok i) : step s = exec i (s.accept c.data rest) := by
  simp only [step, h, hd]

/-- A word that does not decode is only reported (R302). -/
theorem step_of_rejected {e : DecodeError} (hd : decode c.word = .error e) :
    step s = .next (rejectWord e (s.accept c.data rest)) := by simp only [step, h, hd]

end command

/-- The channels have moved as a command moves them: the inputs stay and one response is put after those given. -/
def AnswersOnce (s t : State) : Prop := t.inputs = s.inputs ∧ ∃ r, t.responses = s.responses ++ [r]

theorem answersOnce_respond (s : State) (r : Response) : AnswersOnce s (s.respond r) := ⟨rfl, r, rfl⟩

theorem answersOnce_rejectWord (e : DecodeError) (s : State) : AnswersOnce s (rejectWord e s) := by
  cases e with
  | illegalOpcode => exact answersOnce_respond s _
  | badArgument => exact answersOnce_respond s _

/-- Every instruction answers a next state: it is LOAD, pure, or a walk behind the preamble (R351). -/
theorem exec_total (i : Instr) (s : State) : ∃ t, exec i s = .next t := by
  by_cases hi : i = .load
  · subst hi; exact ⟨_, rfl⟩
  · rcases groupP_or_refusable hi with hp | hr
    · obtain ⟨r, h⟩ := exec_groupP hp s
      exact ⟨_, h s rfl⟩
    · exact ⟨_, exec_refusable hr s⟩

/-- Every instruction gives exactly one response: a walk leaves the channels alone, and its end adds one. -/
theorem exec_answersOnce {i : Instr} {s t : State} (h : exec i s = .next t) : AnswersOnce s t := by
  by_cases hi : i = .load
  · subst hi
    rcases exec_load_cases h with ⟨-, rfl⟩ | rfl
    · exact ⟨rfl, _, rfl⟩
    · exact answersOnce_respond s _
  · have hk := commandWalk_keeps sameBlock_steps i
    obtain ⟨u, r, hu, -, ht⟩ := exec_frame (R := sameBlock) hi h rfl hk hk
    have hin : u.inputs = s.inputs := by rw [hu]
    have hresp : u.responses = s.responses := by rw [hu]
    rcases ht with rfl | ⟨-, c, -, -, rfl⟩
    · exact ⟨hin, r, by rw [State.respond_responses, hresp]⟩
    · exact ⟨hin, r, by rw [State.respond_responses, State.withErr_responses, hresp]⟩

/-- A step that takes a command answers it once, whether or not its word decodes. -/
theorem step_answersOnce {s : State} {c : Command} {rest : List HostInput} (h : s.inputs = .command c :: rest) :
    ∃ t, step s = .next t ∧ AnswersOnce (s.accept c.data rest) t := by
  cases hd : decode c.word with
  | ok i =>
    obtain ⟨t, ht⟩ := exec_total i (s.accept c.data rest)
    exact ⟨t, (step_of_decoded h hd).trans ht, exec_answersOnce ht⟩
  | error e => exact ⟨_, step_of_rejected h hd, answersOnce_rejectWord e _⟩

end Sys2Proof.Machine
end

section
/-! PROOFS. Reads, packing and steps (R40 to R44, R100 to R102, R302, R342, R351). -/

namespace Sys2Proof.Machine

/-- Settles O22: the bits a read returns spell R43's sum, and a read of too many raises where it starts. -/
theorem readsReturnTheNextBits : Obligations.ReadsReturnTheNextBits := by
  intro s n hn he
  have hw : (Instr.readbits n).wf = true := decide_eq_true hn
  refine ⟨fun h => ?_, fun h => ?_, fun h => ?_, fun h => ?_⟩
  · simp only [← streamBit_toNat, ← bitsToNat_streamBits]
    exact exec_of_value rfl hw he (walk_bind_ok (readBits_enough h))
  · exact exec_of_raise rfl hw he (walk_bind_error (readBits_short h))
  · rw [← streamBit_eq_decide]
    exact exec_of_value rfl rfl he (walk_bind_ok (readBool_enough h))
  · exact exec_of_raise rfl rfl he (walk_bind_error (readBool_short (Nat.lt_one_iff.mpr h)))

/-- Settles O25: bit i of the sequence lies at place i mod 8 of byte i / 8. -/
theorem packingIsMostSignificantBitFirst : Obligations.PackingIsMostSignificantBitFirst := by
  intro bits
  refine ⟨pack_length bits, fun i hi => ?_⟩
  rw [pack_getD bits (Nat.div_lt_of_lt_mul hi), packedByte_getLsbD bits _ (Nat.mod_lt i (by decide)), Nat.div_add_mod]

/-- Settles O4: a step of a word that decodes. -/
theorem stepRunsTheDecodedCommand : Obligations.StepRunsTheDecodedCommand := fun _ _ _ _ h hd => step_of_decoded h hd

/-- Settles O6: by the next input, which is none, a reset, or a command that is answered once. -/
theorem everyStepAnswersOnce : Obligations.EveryStepAnswersOnce := by
  refine ⟨fun s => ?_, fun s => step_of_no_input, rfl, rfl, rfl⟩
  cases h : s.inputs with
  | nil => exact ⟨s, step_of_no_input h, fun _ _ hc => nomatch hc⟩
  | cons input rest =>
    cases input with
    | reset => exact ⟨_, step_of_reset h, fun _ _ hc => nomatch hc⟩
    | command c =>
      obtain ⟨t, ht, hanswer⟩ := step_answersOnce h
      refine ⟨t, ht, fun _ _ hc => ?_⟩
      cases hc
      exact hanswer

end Sys2Proof.Machine
end

section
/-! PROOFS. The decoder reads back what the encoder writes, and accepts nothing else (R70, R71, R74 to R78). -/

namespace Sys2Proof

open Sys2Proof.Machine Sys2Proof.Grammar

/-! ## Encoded instructions are read back -/

/-- A codebook's index range is below 2^16, the width of field B (R70, R140). -/
theorem cbSize_lt {cb : Nat} (h : isSpectralCb cb = true) : cb < 256 ∧ cbSize cb < 65536 := by
  simp only [isSpectralCb, Bool.and_eq_true, decide_eq_true_eq] at h
  obtain ⟨hlo, hhi⟩ := h
  refine ⟨by omega, ?_⟩
  interval_cases cb <;> decide

/-- A code that names none of the four types with a row of their own is kept as `other` (R78). -/
theorem extTypeOf_other {code : Nat} (h : isOtherExtCode code = true) : extTypeOf code = .other code := by
  unfold extTypeOf
  split
  · cases h
  · cases h
  · cases h
  · cases h
  · rfl

theorem isOtherExtCode_lt {code : Nat} (h : isOtherExtCode code = true) : code < 16 := by
  simp only [isOtherExtCode, Bool.and_eq_true, decide_eq_true_eq] at h
  exact h.1

/-- An extension payload has 1 to 269 bytes (R228). -/
theorem extCountOk_iff {cnt : Nat} : extCountOk cnt = true ↔ 1 ≤ cnt ∧ cnt ≤ 269 := by
  rw [extCountOk, Bool.and_eq_true, decide_eq_true_eq, decide_eq_true_eq, maxExtCount]

/-- Settles O1: a bare command word and a stream code of fixed bits are read by evaluation; an operand in range fits its
field. -/
theorem decodeOfEncodeIsTheInstruction : Obligations.DecodeOfEncodeIsTheInstruction := by
  intro i hw
  cases i with
  | readbits n =>
    have hn : n ≤ 32 := of_decide_eq_true hw
    simp [decodeCode, encode, decode, Nat.mod_eq_of_lt (show n < 65536 by omega), maxReadBits, hn]
  | huffDecode t =>
    have ht : t < 12 := of_decide_eq_true hw
    simp [decodeCode, encode, decode, Nat.mod_eq_of_lt (show t < 256 by omega), numHuffTables, ht]
  | cbValue cb idx =>
    simp only [Instr.wf, Bool.and_eq_true, decide_eq_true_eq] at hw
    obtain ⟨hcb, hidx⟩ := hw
    obtain ⟨hlt, hsize⟩ := cbSize_lt hcb
    simp [decodeCode, encode, decode, Nat.mod_eq_of_lt hlt, Nat.mod_eq_of_lt (Nat.lt_trans hidx hsize), hcb, hidx]
  | specUnit cb =>
    have hcb : isSpectralCb cb = true := hw
    simp [decodeCode, encode, decode, Nat.mod_eq_of_lt (cbSize_lt hcb).1, hcb]
  | ics cw => cases cw <;> rfl
  | extPayload cnt =>
    have hcnt : extCountOk cnt = true := hw
    have hlt : cnt < 65536 := by have := extCountOk_iff.mp hcnt; omega
    simp [decodeCode, encode, decode, Nat.mod_eq_of_lt hlt, hcnt]
  | extOther code cnt =>
    simp only [Instr.wf, Bool.and_eq_true] at hw
    have hcode : (BitVec.ofNat 4 code).toNat = code := Nat.mod_eq_of_lt (isOtherExtCode_lt hw.1)
    simp only [decodeCode, encode, extTypeCode, hcode, extTypeOf_other hw.1]
    rfl
  | _ => rfl

/-! ## Nothing else is accepted -/

/-- What a decoder's answer says of the word: an instruction is well formed and has the word as its encoding. -/
def ReadFrom (w : Word) (r : Except DecodeError Instr) : Prop :=
  ∀ i, r = .ok i → i.wf = true ∧ encode i = .command w

/-- A word is the command word of the fields it is seen to have. -/
theorem commandWord_of_fields {w : Word} {opc a b : Nat} (ho : wordOpc w = opc) (ha : wordA w = a)
    (hb : wordB w = b) : commandWord opc a b = w := by
  rw [← ho, ← ha, ← hb, commandWord_fields]

theorem ReadFrom.argsChecked {w : Word} {ok : Bool} {i : Instr}
    (h : ok = true → i.wf = true ∧ encode i = .command w) : ReadFrom w (argsChecked ok i) := fun j hj => by
  obtain ⟨hok, rfl⟩ := argsChecked_eq_ok.mp hj
  exact h hok

/-- A command without operands: both fields are checked to be 0 (R74). -/
theorem ReadFrom.bare {w : Word} {opc : Nat} {i : Instr} (ho : wordOpc w = opc) (hw : i.wf = true)
    (he : encode i = .command (commandWord opc 0 0)) :
    ReadFrom w (Sys2Proof.argsChecked (wordA w == 0 && wordB w == 0) i) := .argsChecked fun hok => by
  simp only [Bool.and_eq_true, beq_iff_eq] at hok
  exact ⟨hw, by rw [he, commandWord_of_fields ho hok.1 hok.2]⟩

/-- A command with its operand in field A alone. -/
theorem ReadFrom.inA {w : Word} {opc : Nat} {i : Instr} {ok : Bool} (ho : wordOpc w = opc)
    (hw : ok = true → i.wf = true) (he : ok = true → encode i = .command (commandWord opc (wordA w) 0)) :
    ReadFrom w (Sys2Proof.argsChecked (ok && wordB w == 0) i) := .argsChecked fun hok => by
  simp only [Bool.and_eq_true, beq_iff_eq] at hok
  exact ⟨hw hok.1, by rw [he hok.1, commandWord_of_fields ho rfl hok.2]⟩

/-- A command with its operand in field B alone. -/
theorem ReadFrom.inB {w : Word} {opc : Nat} {i : Instr} {ok : Bool} (ho : wordOpc w = opc)
    (hw : ok = true → i.wf = true) (he : encode i = .command (commandWord opc 0 (wordB w))) :
    ReadFrom w (Sys2Proof.argsChecked (wordA w == 0 && ok) i) := .argsChecked fun hok => by
  simp only [Bool.and_eq_true, beq_iff_eq] at hok
  exact ⟨hw hok.2, by rw [he, commandWord_of_fields ho hok.1 rfl]⟩

/-- The decoder reads a well-formed instruction only from its encoding: READBITS, HUFF_DECODE, CB_VALUE, SPEC_UNIT, ICS
and EXT_PAYLOAD with their operands, no reserved opcode, and every other row of the opcode map bare (R71, R74). -/
theorem decode_readFrom (w : Word) : ReadFrom w (decode w) := by
  unfold decode
  split
  case h_2 ho => exact .inB ho id rfl
  case h_8 ho => exact .inA ho id fun _ => rfl
  case h_9 ho => exact .argsChecked fun hok => ⟨hok, congrArg Code.command (commandWord_of_fields ho rfl rfl)⟩
  case h_10 ho => exact .inA ho id fun _ => rfl
  case h_19 ho =>
    refine .inA ho (fun _ => rfl) fun hok => ?_
    have ha : wordA w < 2 := of_decide_eq_true hok
    interval_cases wordA w <;> rfl
  case h_23 ho => exact .inB ho id rfl
  case h_28 => exact fun _ h => nomatch h
  all_goals
    rename_i ho
    exact .bare ho rfl rfl

/-- The opcode is illegal exactly when R71 does not list it (R75). -/
theorem decode_illegal_iff (w : Word) : decode w = .error .illegalOpcode ↔ reservedOpcode (wordOpc w) := by
  have hlt : wordOpc w < 256 := BitVec.isLt _
  unfold decode reservedOpcode
  split
  case h_28 => simp only [imp_false, true_iff] at *; omega
  all_goals
    rename_i ho
    simp only [ho, argsChecked_ne_illegal, false_iff]
    decide

/-- Settles O2: a word's answer is read row by row, an encoding is read back by O1. -/
theorem wordsAreReadAsTheOpcodeMapSays : Obligations.WordsAreReadAsTheOpcodeMapSays := by
  refine ⟨fun w i => ⟨decode_readFrom w i, fun ⟨hw, he⟩ => ?_⟩, fun w => ?_⟩
  · have back := decodeOfEncodeIsTheInstruction i hw
    rwa [he] at back
  · rw [← wordOpc_eq_div]
    exact decode_illegal_iff w

/-- Settles O3: each word is read by evaluation of the decoder. -/
theorem writtenOutWordsDecode : Obligations.WrittenOutWordsDecode := by
  unfold Obligations.WrittenOutWordsDecode
  decide

end Sys2Proof
end

section
/-! PROOFS. A new stream, and a word that is turned away (R10, R72, R106, R302, R303). -/

namespace Sys2Proof.Machine

open Sys2Proof.Grammar

/-- The eight stream bits of one byte, the most significant first (R10). -/
theorem streamBits_byte (m : Memory) (p : Nat) : streamBits m (8 * p) 8 = natToBits 8 (m.read p).toNat := by
  rw [streamBits, natToBits, List.range'_eq_map_range, List.map_map]
  refine List.map_congr_left fun i hi => ?_
  have hi : i < 8 := List.mem_range.mp hi
  rw [Function.comp_apply, streamBit, show (8 * p + i) / 8 = p by omega, show (8 * p + i) % 8 = i by omega]
  rfl

/-- Bytes that a memory holds from an address on are its stream bits from there on. -/
theorem streamBits_bytes (m : Memory) (bytes : List Byte) :
    ∀ p, (∀ i, i < bytes.length → m.read (p + i) = bytes.getD i 0) →
      streamBits m (8 * p) (8 * bytes.length) = bytesToBits bytes := by
  induction bytes with
  | nil => exact fun _ _ => rfl
  | cons b rest ih =>
    intro p h
    have head : m.read p = b := h 0 (Nat.succ_pos _)
    have tail := ih (p + 1) fun i hi => by
      rw [Nat.add_right_comm p 1 i, Nat.add_assoc p i 1]; exact h (i + 1) (Nat.succ_lt_succ hi)
    rw [List.length_cons, Nat.mul_succ, Nat.add_comm, streamBits_add, streamBits_byte, head, ← Nat.mul_succ, tail]
    rfl

/-- Settles O26: the written bytes read back, so the new cursor has them ahead; an over-long sequence is only reported. -/
theorem loadStartsANewStream : Obligations.LoadStartsANewStream := by
  intro s
  refine ⟨fun h => ⟨loadState s s.dataIn.bytes, exec_load_of_fits h, rfl, fun hwf => ?_⟩, fun h =>
    exec_load_of_long (Nat.not_le.mpr h)⟩
  have reads (a : Nat) (ha : a < s.dataIn.bytes.length) :
      (s.inbuf.writeBytes 0 s.dataIn.bytes).read (0 + a) = s.dataIn.bytes.getD a 0 :=
    (Memory.read_writeBytes_mem _ _ 0 a hwf ha).1
  refine ⟨fun a ha => ?_, fun a ha => ?_, streamBits_bytes _ _ 0 reads⟩
  · have := reads a ha
    rwa [Nat.zero_add] at this
  · exact Memory.read_writeBytes_above _ _ 0 a hwf (by omega)

/-- Settles O5: the word is taken from the channel and reported, and nothing runs. -/
theorem rejectedWordOnlyAnswers : Obligations.RejectedWordOnlyAnswers :=
  fun _ _ _ h => ⟨step_of_rejected h, step_of_rejected h⟩

end Sys2Proof.Machine
end

section
/-! SUPPORT. The bodies of PCE, FIL and an extension payload over the bits the grammar gives them (R225 to R230). -/

namespace Sys2Proof.Machine

open Sys2Proof.Grammar

variable {s : State}

/-! ## program_config_element -/

/-- From any state the walk takes exactly these bits, returns `a` and leaves the context alone. -/
def Takes {α : Type} (m : Walk α) (bits : Bits) (a : α) : Prop := ∀ s : State, Parses m s bits a s.ctx

namespace Takes

variable {α β : Type} {x y : Bits} {a : α} {b : β}

theorem bind {m : Walk α} {f : α → Walk β} (hm : Takes m x a) (hf : Takes (f a) y b) : Takes (m >>= f) (x ++ y) b :=
  fun s => (hm s).bind (hf _)

/-- Followed by a walk that leaves the context alone from the state it meets. -/
theorem bindAt {m : Walk α} {f : α → Walk β} (hm : Takes m x a)
    (hf : Parses (f a) (s.advance x.length) y b (s.advance x.length).ctx) : Parses (m >>= f) s (x ++ y) b s.ctx :=
  (hm s).bind hf

theorem map {m : Walk α} (hm : Takes m x a) (f : α → β) : Takes (do let r ← m; pure (f r)) x (f a) :=
  fun s => (hm s).map f

theorem field {n v : Nat} (hv : v < 2 ^ n) : Takes (readBits n) (natToBits n v) v := fun _ => .field hv

theorem skip {n : Nat} (hn : x.length = n) : Takes (skipBits n) x () := fun _ => .skip hn

/-- Two fields in a row whose values nothing uses. -/
theorem skipSkip {m n : Nat} (h : x.length = m + n) : Takes (do skipBits m; skipBits n) x () := fun _ => .skipSkip h

/-- The same two fields, and what follows them. -/
theorem skipSkipThen {m n : Nat} {f : Unit → Walk β} (h : x.length = m + n) (hf : Takes (f ()) y b) :
    Takes (do skipBits m; skipBits n >>= f) (x ++ y) b := by
  have := (skipSkip h).bind hf
  rwa [bind_assoc] at this

/-- As many runs as there are bit sequences, each taking one. -/
theorem times {m : Walk Unit} (items : List Bits) (h : ∀ x ∈ items, Takes m x ()) :
    Takes (times items.length m) items.flatten () := fun _ => by
  rw [← List.flatMap_id]
  exact parses_times items fun x hx _ => h x hx _

/-- An optional group of fields behind its presence flag (R225). -/
theorem mixdown {m : Walk Unit} {o : Option Bits} (h : ∀ x, o = some x → Takes m x ()) :
    Takes (pceMixdown m) (optional id o) () := fun _ => .optional fun x hx _ => h x hx _

end Takes

/-- What PCE reads before its alignment; it returns the tag. `pceBody_eq` ties it to the body. -/
def pceFields : Walk Nat := do
  let tag ← readBits 4
  skipBits 2
  skipBits 4
  let nf ← readBits 4
  let ns ← readBits 4
  let nb ← readBits 4
  let nl ← readBits 2
  let na ← readBits 3
  let nc ← readBits 4
  pceMixdown (skipBits 4)
  pceMixdown (skipBits 4)
  pceMixdown (do skipBits 2; skipBits 1)
  times nf (do skipBits 1; skipBits 4)
  times ns (do skipBits 1; skipBits 4)
  times nb (do skipBits 1; skipBits 4)
  times nl (skipBits 4)
  times na (skipBits 4)
  times nc (do skipBits 1; skipBits 4)
  pure tag

/-- The comment at the end of PCE. -/
def pceComment (tag : Nat) : Walk (Nat × Nat) := do
  let ncb ← readBits 8
  times ncb (skipBits 8)
  pure (tag, ncb)

theorem pceBody_eq : pceBody = (do let tag ← pceFields; let _ ← byteAlign; pceComment tag) := by
  simp only [pceBody, pceFields, pceComment, bind_assoc, pure_bind]

theorem pceFields_takes {x : Pce} {pos : Nat} (h : x.Ok pos) : Takes pceFields x.fixedBits x.tag := by
  obtain ⟨htag, hhead, hfront, hside, hback, hlfe, hassoc, hcc, hfive, hfour, hmono, hstereo, hmix, -, -, -⟩ := h
  simp only [List.mem_append, or_imp, forall_and] at hfive hfour
  obtain ⟨⟨⟨hfront5, hside5⟩, hback5⟩, hcc5⟩ := hfive
  obtain ⟨hlfe4, hassoc4⟩ := hfour
  have fives (l : List Bits) (hl : ∀ b ∈ l, b.length = 5) :
      Takes (times l.length (do skipBits 1; skipBits 4)) l.flatten () := .times l fun b hb => .skipSkip (hl b hb)
  have fours (l : List Bits) (hl : ∀ b ∈ l, b.length = 4) : Takes (times l.length (skipBits 4)) l.flatten () :=
    .times l fun b hb => .skip (hl b hb)
  simp only [Pce.fixedBits, List.append_assoc]
  exact .bind (.field htag) <| .skipSkipThen hhead <| .bind (.field hfront) <| .bind (.field hside) <|
    .bind (.field hback) <| .bind (.field hlfe) <| .bind (.field hassoc) <| .bind (.field hcc) <|
    .bind (.mixdown fun b hb => .skip (hmono b hb)) <| .bind (.mixdown fun b hb => .skip (hstereo b hb)) <|
    .bind (.mixdown fun b hb => .skipSkip (hmix b hb)) <| .bind (fives _ hfront5) <| .bind (fives _ hside5) <|
    .bind (fives _ hback5) <| .bind (fours _ hlfe4) <| .bind (fours _ hassoc4) <|
    (fives _ hcc5).map fun _ => x.tag

/-- BYTEALIGN's read over its padding (R103). -/
theorem byteAlign_parses {pad : Bits} (h : pad.length = alignGap s.curPos) :
    Parses byteAlign s pad (bitsToNat pad, alignGap s.curPos) s.ctx :=
  .getPosThen <| (Parses.bits h).map fun v => (v, alignGap s.curPos)

theorem pceComment_takes (tag : Nat) {comment : List Bits} (hlen : comment.length < 256)
    (hbytes : ∀ b ∈ comment, b.length = 8) :
    Takes (pceComment tag) (natToBits 8 comment.length ++ comment.flatten) (tag, comment.length) :=
  .bind (.field hlen) <| (Takes.times comment fun b hb => .skip (hbytes b hb)).map fun _ => (tag, comment.length)

/-- The body of PCE over a program_config_element at the cursor (R225, R226). -/
theorem pceBody_parses {x : Pce} (h : x.Ok s.curPos) :
    Parses pceBody s x.bits (x.tag, x.comment.length) s.ctx := by
  have fields := pceFields_takes h
  obtain ⟨-, -, -, -, -, -, -, -, -, -, -, -, -, hpad, hlen, hbytes⟩ := h
  have rest (t : State) (ht : x.pad.length = alignGap t.curPos) :
      Parses (do let _ ← byteAlign; pceComment x.tag) t (x.pad ++ (natToBits 8 x.comment.length ++ x.comment.flatten))
        (x.tag, x.comment.length) t.ctx := (byteAlign_parses ht).bind (pceComment_takes x.tag hlen hbytes _)
  simp only [pceBody_eq, Pce.bits, List.append_assoc]
  exact fields.bindAt (rest _ hpad)

/-! ## extension payload and fill element -/

/-- Skipping `n` fields of `k` bits each (R228, R229). -/
theorem times_skipBits_enough {k n : Nat} (h : n * k ≤ s.unread) :
    times n (skipBits k) s = .ok () (s.advance (n * k)) := by
  have from_ (n : Nat) : ∀ (i : Nat) (t : State), n * k ≤ t.unread →
      foldFrom (fun _ _ => skipBits k) i n () t = .ok () (t.advance (n * k)) := by
    induction n with
    | zero => intro i t _; rw [Nat.zero_mul, State.advance_zero]; rfl
    | succ n ih =>
      intro i t ht
      rw [Nat.succ_mul] at ht ⊢
      rw [foldFrom, walk_bind_ok (skipBits_enough (by omega)), ih _ _ (by rw [State.unread_advance]; omega),
        State.advance_advance, Nat.add_comm k]
  exact from_ n 0 s h

/-- Fill data takes what is left of 8 bits a byte once the type is read (R228). -/
theorem extBody_fillData_enough {cnt : Nat} (hc : 1 ≤ cnt) (h : 8 * cnt - 4 ≤ s.unread) :
    extBody cnt .fillData s = .ok () (s.advance (8 * cnt - 4)) := by
  rw [extBody, walk_bind_ok (skipBits_enough (by omega)),
    times_skipBits_enough (by rw [State.unread_advance]; omega), State.advance_advance,
    show 4 + (cnt - 1) * 8 = 8 * cnt - 4 by omega]

/-- So does every type that has no row of its own (R229). -/
theorem extBody_other_enough {cnt : Nat} (code : Nat) (hc : 1 ≤ cnt) (h : 8 * cnt - 4 ≤ s.unread) :
    extBody cnt (.other code) s = .ok () (s.advance (8 * cnt - 4)) := by
  rw [extBody, show 8 * (cnt - 1) + 4 = 8 * cnt - 4 by omega, skipBits_enough h]

/-- An accepted type is fill data or has no row of its own (R78, R230). -/
theorem extTypeOf_accepted {code : Nat} (h : extAccepted code) :
    extTypeOf code = .fillData ∨ extTypeOf code = .other code := by
  obtain ⟨-, hdynamic, hsbr, hcrc⟩ := h
  unfold extTypeOf
  split
  · exact .inl rfl
  · exact absurd rfl hdynamic
  · exact absurd rfl hsbr
  · exact absurd rfl hcrc
  · exact .inr rfl

/-- The payload of an accepted type (R228, R229). -/
theorem extPayload_parses {cnt code : Nat} {body : Bits} (hc : 1 ≤ cnt) (hcode : extAccepted code)
    (hbody : body.length = 8 * cnt - 4) :
    Parses (extPayload cnt) s (natToBits 4 code ++ body) (code, cnt) s.ctx := by
  have read (t : State) : Parses (extBody cnt (extTypeOf code)) t body () t.ctx := fun ha => by
    have hu : 8 * cnt - 4 ≤ t.unread := by rw [← hbody]; exact (ahead_spec ha).1
    rw [hbody]
    rcases extTypeOf_accepted hcode with he | he
    · rw [he]; exact extBody_fillData_enough hc hu
    · rw [he]; exact extBody_other_enough code hc hu
  exact .bind (.field hcode.1) ((read _).map fun _ => (code, cnt))

/-- The byte count of a fill element, plain or escaped (R227). -/
theorem fillCount_parses {x : Fil} (h : x.Ok) : Parses fillCount s x.countBits x.count s.ctx := by
  obtain ⟨hcount, -⟩ := h
  unfold Fil.countBits
  cases hesc : x.escaped with
  | false =>
    rw [hesc, if_neg Bool.false_ne_true] at hcount
    refine (Parses.field (n := 4) (by omega)).bindLast ?_
    rw [if_neg (by omega)]
    rfl
  | true =>
    rw [hesc, if_pos rfl] at hcount
    have total : 15 + (x.count - 14) - 1 = x.count := by omega
    have escaped :=
      (Parses.field (s := s.advance 4) (n := 8) (v := x.count - 14) (by omega)).map fun esc => 15 + esc - 1
    rw [total] at escaped
    exact Parses.bind (x := natToBits 4 15) (.field (by decide)) escaped

/-- FIL's loop makes one pass over a payload, and none without one (R227). -/
theorem fillPasses_parse {x : Fil} (h : x.Ok) :
    Parses (whileBits fillPass x.count) s (if x.count = 0 then [] else natToBits 4 x.extCode ++ x.body) () s.ctx := by
  have leave (t : State) : Parses (fillPass 0) t [] (.inr ()) t.ctx := .pure _
  by_cases hz : x.count = 0
  · rw [if_pos hz, hz]
    exact .whileDone (leave s)
  · obtain ⟨hcode, hbody⟩ := h.2 hz
    have pass : Parses (fillPass x.count) s (natToBits 4 x.extCode ++ x.body) (.inl (x.count - x.count)) s.ctx := by
      rw [fillPass, if_pos (Nat.pos_of_ne_zero hz)]
      exact (extPayload_parses (Nat.pos_of_ne_zero hz) hcode hbody).map fun r => Sum.inl (x.count - r.2)
    rw [if_neg hz, ← List.append_nil (natToBits 4 x.extCode ++ x.body)]
    refine .whileAgain fillPass_consumes pass ?_
    rw [Nat.sub_self]
    exact .whileDone (leave _)

/-- The body of FIL over a fill element (R227 to R229). -/
theorem filBody_parses {x : Fil} (h : x.Ok) : Parses filBody s x.bits x.count s.ctx :=
  .bind (fillCount_parses h) ((fillPasses_parse h).map fun _ => x.count)

end Sys2Proof.Machine
end

section
/-! PROOFS. The element ids and extension types, once read, and inside the commands that read them (R77, R78, R228 to
R236). -/

namespace Sys2Proof.Machine

open Sys2Proof.Grammar

variable {s : State}

/-! ## The meaning of a stream code -/

/-- Settles O49: the walks of the accepted types skip the rest of the payload, and the others raise where they start. -/
theorem extensionTypesComplete : Obligations.ExtensionTypesComplete := by
  intro s cnt code he hlo hhi
  have hcnt : extCountOk cnt = true := extCountOk_iff.mpr ⟨hlo, hhi⟩
  refine ⟨fun h => ?_, fun h hcode => ?_, exec_of_raise rfl rfl he rfl, exec_of_raise rfl rfl he rfl,
    exec_of_raise rfl rfl he rfl⟩
  · exact exec_of_value rfl hcnt he (walk_bind_ok (extBody_fillData_enough hlo h))
  · have hw : (Instr.extOther code cnt).wf = true := by rw [Instr.wf, hcode, hcnt]; rfl
    exact exec_of_value rfl hw he (walk_bind_ok (extBody_other_enough code hlo h))

/-- Past bits that are ahead the record has grown by them (R24, R107). -/
theorem record_advance {bits : Bits} (hmark : s.curMark ≤ s.curPos) (ha : Ahead s bits) :
    (s.advance bits.length).record = s.record ++ bits := by
  have hlen : s.curPos + bits.length - s.curMark = s.curPos - s.curMark + bits.length := by omega
  rw [State.record, State.advance_curPos, State.advance_curMark, State.advance_inbuf, hlen, streamBits_add,
    Nat.add_sub_cancel' hmark, (ahead_spec ha).2, State.record]

/-- An element that yields a record: the body's bits are taken, and with what was recorded before they are the record
(R231, R233). -/
theorem recordElement_ahead {α : Type} {body : Walk α} {bits : Bits} {a : α} {c : Ctx} (id : Nat)
    (hmark : s.curMark ≤ s.curPos) (hb : Parses body s bits a c) (ha : Ahead s bits) :
    recordElement id body s =
      .ok (.element id (bitSeq (s.record ++ bits)))
        { s.advance bits.length with ctx := c, curMark := s.curPos + bits.length } := by
  rw [← record_advance hmark ha, recordElement, walk_bind_ok (hb ha)]
  rfl

/-- An element that yields a record and leaves the context alone. -/
theorem recordElement_ahead_of_ctx {α : Type} {body : Walk α} {bits : Bits} {a : α} (id : Nat)
    (hmark : s.curMark ≤ s.curPos) (hb : Parses body s bits a s.ctx) (ha : Ahead s bits) :
    recordElement id body s = .ok (.element id (bitSeq (s.record ++ bits)))
      { s.advance bits.length with curMark := s.curPos + bits.length } :=
  recordElement_ahead id hmark hb ha

/-- The instruction of an element id runs the id's arm. -/
theorem commandWalk_elementInstr (e : ElementId) :
    commandWalk (elementInstr e) = (do let r ← elementArm e; pure (.step r)) := by cases e <;> rfl

theorem elementInstr_refusable (e : ElementId) : refusable (elementInstr e) = true := by cases e <;> rfl

theorem elementInstr_wf (e : ElementId) : (elementInstr e).wf = true := by cases e <;> rfl

/-- An element id whose arm ends in a result. -/
theorem exec_elementInstr {e : ElementId} {t : State} {r : StepResult} (he : s.err = 0)
    (h : elementArm e s = .ok r t) : exec (elementInstr e) s = .next (t.respond (.ok (.step r))) :=
  exec_of_value (elementInstr_refusable e) (elementInstr_wf e) he (by
    rw [commandWalk_elementInstr, walk_bind_ok h]; rfl)

/-- Settles O51: SCE, PCE and FIL parse their element and take the record; the other arms are run by evaluation. -/
theorem elementIdsComplete : Obligations.ElementIdsComplete := by
  rintro s pre he hmark rfl
  refine ⟨fun tag x htag hx ha => ?_, fun x hx ha => ?_, fun x hx ha => ?_,
    exec_elementInstr (e := .endId) he rfl, exec_elementInstr (e := .cpe) he rfl, exec_elementInstr (e := .cce) he rfl,
    exec_elementInstr (e := .lfe) he rfl, exec_elementInstr (e := .dse) he rfl⟩
  · have := exec_elementInstr (e := .sce) he (recordElement_ahead 0 hmark (sceBody_parses htag hx) ha)
    rwa [List.length_append, natToBits_length, ← List.append_assoc] at this
  · exact exec_elementInstr (e := .pce) he (recordElement_ahead_of_ctx 5 hmark (pceBody_parses hx) ha)
  · exact exec_elementInstr (e := .fil) he (recordElement_ahead_of_ctx 6 hmark (filBody_parses hx) ha)

/-! ## Stream codes inside their commands -/

/-- Two walks that end alike, each from its own state, go on alike. -/
theorem walk_bind_congr {α β : Type} {m m' : Walk α} {f : α → Walk β} {t : State} (h : m s = m' t) :
    (m >>= f) s = (m' >>= f) t := by
  simp only [bind, EStateM.bind, h]

/-- Two instructions that no error blocks do alike where their walks end alike. -/
theorem exec_eq_of_walk_eq {i j : Instr} {t : State} (hi : refusable i = true) (hiw : i.wf = true) (he : s.err = 0)
    (hj : refusable j = true) (hjw : j.wf = true) (het : t.err = 0) (h : commandWalk i s = commandWalk j t) :
    exec i s = exec j t := by
  rw [exec_refusable hi, exec_refusable hj, hiw, hjw, stateful_run he, stateful_run het, runWalk, runWalk, h]

/-- ELEMENT_STEP with the loop going on and an id ahead is the id's arm past it (R231). -/
theorem elementStepBody_id {id : Nat} (hd : s.dstate ≠ .ended) (hp : s.curPos ≠ s.curLen) (hid : id < 2 ^ 3)
    (ha : Ahead s (natToBits 3 id)) : elementStepBody s = elementArm (elementIdOf id) (s.advance 3) := by
  rw [elementStepBody, walk_bind_ok (walk_getState s), if_neg hd, if_neg hp, walk_bind_ok (readBits_field hid ha)]

/-- The code of the type it names is the code (R78). -/
theorem extTypeCode_of (code : Nat) : extTypeCode (extTypeOf code) = code := by
  unfold extTypeOf
  split
  · rfl
  · rfl
  · rfl
  · rfl
  · rfl

/-- The instruction of an extension type runs the payload parser's arm and answers the type's code. -/
theorem commandWalk_extInstr (cnt : Nat) (e : ExtType) :
    commandWalk (extInstr cnt e) = (do extBody cnt e; pure (.ext (extTypeCode e) cnt)) := by cases e <;> rfl

theorem extInstr_refusable (cnt : Nat) (e : ExtType) : refusable (extInstr cnt e) = true := by cases e <;> rfl

/-- A 4-bit code in a payload of a legal length names a well-formed instruction (R78, R228). -/
theorem extInstr_wf {cnt code : Nat} (hcnt : extCountOk cnt = true) (hcode : code < 16) :
    (extInstr cnt (extTypeOf code)).wf = true := by
  unfold extTypeOf
  split
  · exact hcnt
  · rfl
  · rfl
  · rfl
  · rename_i hfill hdynamic hsbr hcrc
    have hother : isOtherExtCode code = true := by
      simp only [imp_false] at hfill hdynamic hsbr hcrc
      simp [isOtherExtCode, hcode, hfill, hdynamic, hsbr, hcrc]
    rw [extInstr, Instr.wf, hother, hcnt]
    rfl

/-- EXT_PAYLOAD with a type ahead is the type's arm past it (R228). -/
theorem extPayload_type {cnt code : Nat} (hcode : code < 2 ^ 4) (ha : Ahead s (natToBits 4 code)) :
    extPayload cnt s = (do extBody cnt (extTypeOf code); pure (code, cnt)) (s.advance 4) := by
  rw [extPayload, walk_bind_ok (readBits_field hcode ha)]

/-- Settles O50: past the code's bits the command's walk is the code's own. -/
theorem streamCodesRunInsideTheirCommands : Obligations.StreamCodesRunInsideTheirCommands := by
  refine fun s he => ⟨fun c hd hp ha => ⟨_, rfl, ?_⟩, fun cnt c hlo hhi ha => ⟨_, rfl, ?_⟩⟩
  · refine exec_eq_of_walk_eq rfl rfl he (elementInstr_refusable _) (elementInstr_wf _) he ?_
    rw [commandWalk_elementInstr, commandWalk, walk_bind_congr (elementStepBody_id hd hp c.isLt ha)]
  · have hcnt : extCountOk cnt = true := extCountOk_iff.mpr ⟨hlo, hhi⟩
    refine exec_eq_of_walk_eq rfl hcnt he (extInstr_refusable cnt _) (extInstr_wf hcnt c.isLt) he ?_
    have read := walk_bind_congr (f := fun r => pure (Value.ext r.1 r.2)) (extPayload_type (cnt := cnt) c.isLt ha)
    rw [bind_assoc] at read
    rw [commandWalk_extInstr, extTypeCode_of]
    exact read

end Sys2Proof.Machine
end

section
/-! PROOFS. Byte alignment, and the commands on the record and the end of the stream (R103, R104, R107 to R110). -/

namespace Sys2Proof.Machine

variable {s : State}

/-! ## Byte alignment -/

theorem alignGap_lt (pos : Nat) : alignGap pos < 8 := Nat.mod_lt _ (by decide)

/-- Past the gap the position is a multiple of 8 (R103). -/
theorem add_alignGap_mod (pos : Nat) : (pos + alignGap pos) % 8 = 0 := by unfold alignGap; omega

/-- A stream of whole bytes goes on to the next byte boundary from each of its positions (R103, R106). -/
theorem alignGap_le_unread (hpos : s.curPos ≤ s.curLen) (hbytes : s.curLen % 8 = 0) :
    alignGap s.curPos ≤ s.unread := by
  unfold alignGap State.unread
  omega

/-- BYTEALIGN's read with the gap's bits left (R103). -/
theorem byteAlign_enough (h : alignGap s.curPos ≤ s.unread) :
    byteAlign s = .ok (bitsToNat (streamBits s.inbuf s.curPos (alignGap s.curPos)), alignGap s.curPos)
      (s.advance (alignGap s.curPos)) := by
  rw [byteAlign, walk_bind_ok (walk_getPos s), walk_bind_ok (readBits_enough h), walk_pure]

/-- Settles O23: the gap is the k, and whole bytes leave enough bits to read it. -/
theorem byteAlignReachesAByteBoundary : Obligations.ByteAlignReachesAByteBoundary := fun s he hpos hbytes =>
  ⟨alignGap s.curPos, alignGap_lt _, add_alignGap_mod _,
    exec_of_value rfl rfl he (walk_bind_ok (byteAlign_enough (alignGap_le_unread hpos hbytes)))⟩

/-! ## The record -/

/-- The record on the response channel: its length is the cursor's distance from the checkpoint (R73, R107). -/
theorem bitSeq_record (s : State) :
    bitSeq s.record =
      ⟨s.curPos - s.curMark, pack (streamBits s.inbuf s.curMark (s.curPos - s.curMark))⟩ := by
  rw [bitSeq, State.record, streamBits_length]

/-- Settles O24: the three walks read nothing and end in a value. -/
theorem recordCommandsComplete : Obligations.RecordCommandsComplete := by
  intro s he
  refine ⟨exec_of_value rfl rfl he (walk_bind_ok (walk_getState s)), ?_,
    exec_of_value rfl rfl he (walk_bind_ok (walk_setMark s))⟩
  rw [← bitSeq_record]
  exact exec_of_value rfl rfl he (walk_bind_ok (walk_getState s))

end Sys2Proof.Machine
end

section
/-! SUPPORT. Paths in a Huffman trie, and what one insertion does to them (R31, R120). -/

namespace Sys2Proof.Machine

open Sys2Proof.Grammar

variable {sym code n x : Nat} {t t' : Trie} {p q : Bits}

/-! ## Paths in a trie -/

@[simp] theorem subtrie_nil (t : Trie) : subtrie t [] = t := by cases t <;> rfl

@[simp] theorem subtrie_node_cons (c0 c1 : Trie) (b : Bool) (p : Bits) :
    subtrie (.node c0 c1) (b :: p) = subtrie (if b then c1 else c0) p := rfl

@[simp] theorem subtrie_leaf_cons (sym : Nat) (b : Bool) (p : Bits) : subtrie (.leaf sym) (b :: p) = .absent := rfl

@[simp] theorem subtrie_absent (p : Bits) : subtrie .absent p = .absent := by cases p <;> rfl

theorem subtrie_append (t : Trie) (p q : Bits) : subtrie t (p ++ q) = subtrie (subtrie t p) q := by
  induction p generalizing t with
  | nil => rw [subtrie_nil, List.nil_append]
  | cons b p ih => cases t with
    | absent => simp
    | leaf sym => simp
    | node c0 c1 => exact ih _

/-- A path goes one edge, then on from the child. -/
theorem subtrie_cons (t : Trie) (b : Bool) (p : Bits) : subtrie t (b :: p) = subtrie (subtrie t [b]) p :=
  subtrie_append t [b] p

/-- The beginning of a path that stays in the trie stays in it. -/
theorem subtrie_ne_absent_of_prefix (h : p <+: q) (hq : subtrie t q ≠ .absent) : subtrie t p ≠ .absent := by
  obtain ⟨r, rfl⟩ := h
  intro hp
  rw [subtrie_append, hp, subtrie_absent] at hq
  exact hq rfl

/-! ## One insertion -/

/-- The internal node with the children of `t`, but the one at edge `b` replaced. -/
def setChild (b : Bool) (child t : Trie) : Trie :=
  if b then .node (subtrie t [false]) child else .node child (subtrie t [true])

theorem setChild_eq_node (b : Bool) (child t : Trie) : ∃ c0 c1, setChild b child t = .node c0 c1 := by
  cases b <;> exact ⟨_, _, rfl⟩

theorem subtrie_setChild_same (b : Bool) (child t : Trie) (p : Bits) :
    subtrie (setChild b child t) (b :: p) = subtrie child p := by
  cases b <;> rfl

theorem subtrie_setChild_of_ne {a b : Bool} (h : a ≠ b) (child t : Trie) (p : Bits) :
    subtrie (setChild b child t) (a :: p) = subtrie t (a :: p) := by
  rw [subtrie_cons t, Bool.eq_not.mpr h]
  cases b <;> rfl

theorem insertCode_zero_eq_some : insertCode sym code 0 t = some t' ↔ t = .absent ∧ t' = .leaf sym := by
  cases t <;> simp [insertCode, eq_comm]

theorem insertCode_succ_eq_some : insertCode sym code (n + 1) t = some t' ↔
    (∀ x, t ≠ .leaf x) ∧
      ∃ c, insertCode sym code n (subtrie t [code.testBit n]) = some c ∧ t' = setChild (code.testBit n) c t := by
  cases t with
  | leaf y => simp [insertCode]
  | absent => cases h : code.testBit n <;> simp [insertCode, setChild, h, eq_comm]
  | node c0 c1 => cases h : code.testBit n <;> simp [insertCode, setChild, h, eq_comm]

/-- An insertion adds one leaf, at the end of the codeword's path. -/
theorem insertCode_leaf_iff (h : insertCode sym code n t = some t') : subtrie t' p = .leaf x ↔
    subtrie t p = .leaf x ∨ p = natToBits n code ∧ x = sym := by
  induction n generalizing t t' p with
  | zero =>
    obtain ⟨rfl, rfl⟩ := insertCode_zero_eq_some.mp h
    cases p <;> simp [natToBits, eq_comm]
  | succ n ih =>
    obtain ⟨hleaf, c, hc, rfl⟩ := insertCode_succ_eq_some.mp h
    rw [natToBits_succ]
    cases p with
    | nil =>
      obtain ⟨c0, c1, hnode⟩ := setChild_eq_node (code.testBit n) c t
      simp [hnode, hleaf]
    | cons a p =>
      by_cases ha : a = code.testBit n
      · subst ha
        rw [subtrie_setChild_same, ih hc, ← subtrie_cons]
        simp
      · rw [subtrie_setChild_of_ne ha]
        simp [ha]

/-- An insertion adds only nodes on the codeword's path. -/
theorem insertCode_present (h : insertCode sym code n t = some t') (hp : subtrie t' p ≠ .absent) :
    subtrie t p ≠ .absent ∨ p <+: natToBits n code := by
  induction n generalizing t t' p with
  | zero =>
    obtain ⟨rfl, rfl⟩ := insertCode_zero_eq_some.mp h
    cases p with
    | nil => exact .inr List.nil_prefix
    | cons a p => exact absurd rfl hp
  | succ n ih =>
    obtain ⟨-, c, hc, rfl⟩ := insertCode_succ_eq_some.mp h
    rw [natToBits_succ]
    cases p with
    | nil => exact .inr List.nil_prefix
    | cons a p =>
      by_cases ha : a = code.testBit n
      · subst ha
        rw [subtrie_setChild_same] at hp
        rw [subtrie_cons t, List.cons_prefix_cons]
        exact (ih hc hp).imp_right fun h => ⟨rfl, h⟩
      · rw [subtrie_setChild_of_ne ha] at hp
        exact .inl hp

/-- An insertion succeeds exactly where the codeword's path leaves the trie and passes no leaf (R120). -/
theorem insertCode_succeeds_iff : (∃ t', insertCode sym code n t = some t') ↔
    subtrie t (natToBits n code) = .absent ∧ ∀ p, p <+: natToBits n code → ∀ x, subtrie t p ≠ .leaf x := by
  induction n generalizing t with
  | zero =>
    simp only [insertCode_zero_eq_some, natToBits, List.range_zero, List.map_nil, subtrie_nil, List.prefix_nil]
    constructor
    · rintro ⟨_, rfl, -⟩
      simp
    · rintro ⟨rfl, -⟩
      exact ⟨_, rfl, rfl⟩
  | succ n ih =>
    rw [natToBits_succ, subtrie_cons]
    constructor
    · rintro ⟨t', h⟩
      obtain ⟨hleaf, c, hc, -⟩ := insertCode_succ_eq_some.mp h
      obtain ⟨habsent, hpath⟩ := ih.mp ⟨c, hc⟩
      refine ⟨habsent, fun p hp x => ?_⟩
      cases p with
      | nil => rw [subtrie_nil]; exact hleaf x
      | cons a p =>
        obtain ⟨rfl, hrest⟩ := List.cons_prefix_cons.mp hp
        rw [subtrie_cons]
        exact hpath p hrest x
    · rintro ⟨habsent, hpath⟩
      obtain ⟨c, hc⟩ := ih.mpr ⟨habsent, fun p hp x => by
        rw [← subtrie_cons]
        exact hpath _ (List.cons_prefix_cons.mpr ⟨rfl, hp⟩) x⟩
      have hleaf (x : Nat) : t ≠ .leaf x := by simpa using hpath [] List.nil_prefix x
      exact ⟨_, insertCode_succ_eq_some.mpr ⟨hleaf, c, hc, rfl⟩⟩

end Sys2Proof.Machine
end

section
/-! PROOFS. The trie built from a codebook table, at reset too, and the tables that are refused (R12, R120 to R122, R340,
R341). -/

namespace Sys2Proof.Machine

open Sys2Proof.Grammar

variable {size sym code n x : Nat} {t t' : Trie} {p : Bits} {table done : HcbTable} {e f : HcbEntry}

/-! ## Codewords as paths -/

/-- The codeword of a triple, most significant bit first (R12, R121). -/
def HcbEntry.word (e : HcbEntry) : Bits := natToBits e.len e.code

theorem word_of_len_zero (h : e.len = 0) : e.word = [] := by rw [HcbEntry.word, h]; rfl

/-- The high bits of a number come before its low bits. -/
theorem natToBits_add (m k v : Nat) : natToBits (m + k) v = natToBits m (v / 2 ^ k) ++ natToBits k v := by
  induction m with
  | zero => rw [Nat.zero_add]; rfl
  | succ m ih => rw [Nat.add_right_comm, natToBits_succ, natToBits_succ, ih, Nat.testBit_div_two_pow]; rfl

/-- Codewords that fit their lengths are prefixes as bit paths only if they are as numbers (R12). -/
theorem isCodePrefix_of_prefix (he : e.code < 2 ^ e.len) (hf : f.code < 2 ^ f.len) (h : e.word <+: f.word) :
    isCodePrefix e f = true := by
  have hlen : e.len ≤ f.len := by simpa [HcbEntry.word] using h.length_le
  obtain ⟨k, hk⟩ := Nat.exists_eq_add_of_le hlen
  have hlt : f.code / 2 ^ k < 2 ^ e.len := Nat.div_lt_of_lt_mul (by rwa [← Nat.pow_add, Nat.add_comm, ← hk])
  have high : natToBits e.len (f.code / 2 ^ k) <+: f.word := by
    rw [HcbEntry.word, hk, natToBits_add]
    exact List.prefix_append _ _
  have same : e.word = natToBits e.len (f.code / 2 ^ k) :=
    (List.prefix_of_prefix_length_le h high (by simp [HcbEntry.word])).eq_of_length (by simp [HcbEntry.word])
  have hcode := congrArg bitsToNat same
  rw [HcbEntry.word, bitsToNat_natToBits_of_lt he, bitsToNat_natToBits_of_lt hlt] at hcode
  simp [isCodePrefix, hcode, hk]

/-- Neither codeword begins the other, so neither entry's path meets the other's leaf. -/
def Separate (e f : HcbEntry) : Prop := ¬ e.word <+: f.word ∧ ¬ f.word <+: e.word

theorem separate_of_compatible (he : e.code < 2 ^ e.len) (hf : f.code < 2 ^ f.len) (h : compatible e f = true) :
    Separate e f := by
  simp only [compatible, Bool.and_eq_true, Bool.not_eq_true'] at h
  obtain ⟨⟨hef, hfe⟩, -⟩ := h
  exact ⟨fun hp => by simp [isCodePrefix_of_prefix he hf hp] at hef,
    fun hp => by simp [isCodePrefix_of_prefix hf he hp] at hfe⟩

theorem pairwiseCompatible_iff : pairwiseCompatible table = true ↔ table.Pairwise fun e f => compatible e f = true := by
  induction table with
  | nil => simp [pairwiseCompatible]
  | cons e rest ih => rw [pairwiseCompatible, Bool.and_eq_true, List.all_eq_true, ih, List.pairwise_cons]

/-- The codewords of a well-formed table are pairwise separate (R12). -/
theorem separate_of_wfTable {i : Nat} (h : wfTable i table = true) : table.Pairwise Separate := by
  obtain ⟨hfits, hpairs⟩ := (Bool.and_eq_true _ _).mp h
  have fits (e : HcbEntry) (he : e ∈ table) : e.code < 2 ^ e.len :=
    of_decide_eq_true ((Bool.and_eq_true _ _).mp (List.all_eq_true.mp hfits e he)).1
  exact (pairwiseCompatible_iff.mp hpairs).imp_of_mem fun he hf => separate_of_compatible (fits _ he) (fits _ hf)

/-- A codeword of length 0 begins every other, so it stands alone in its table (R12, R120). -/
theorem eq_singleton_of_len_zero (h : table.Pairwise Separate) (he : e ∈ table) (hlen : e.len = 0) : table = [e] := by
  have begins (f : HcbEntry) : e.word <+: f.word := by rw [word_of_len_zero hlen]; exact List.nil_prefix
  obtain ⟨before, after, rfl⟩ := List.append_of_mem he
  obtain ⟨-, hafter, hcross⟩ := List.pairwise_append.mp h
  have noBefore : before = [] := List.eq_nil_iff_forall_not_mem.mpr fun f hf =>
    (hcross f hf e List.mem_cons_self).2 (begins f)
  have noAfter : after = [] := List.eq_nil_iff_forall_not_mem.mpr fun f hf =>
    ((List.pairwise_cons.mp hafter).1 f hf).1 (begins f)
  rw [noBefore, noAfter, List.nil_append]

/-! ## The trie of a table -/

/-- The leaves of the trie are the codewords of the table, and the trie has no node that leads to none of them, but for
its root. -/
structure Spells (t : Trie) (table : HcbTable) : Prop where
  leaf_iff : ∀ p x, subtrie t p = .leaf x ↔ ∃ e ∈ table, e.word = p ∧ e.sym = x
  present : ∀ p, subtrie t p ≠ .absent → p = [] ∨ ∃ e ∈ table, p <+: e.word

theorem spells_emptyTrie : Spells emptyTrie [] where
  leaf_iff p x := by rcases p with _ | ⟨_ | _, p⟩ <;> simp [emptyTrie]
  present p h := by
    rcases p with _ | ⟨_ | _, p⟩
    · exact .inl rfl
    · exact absurd (subtrie_absent p) h
    · exact absurd (subtrie_absent p) h

theorem spells_leaf (h : e.len = 0) : Spells (.leaf e.sym) [e] where
  leaf_iff p x := by cases p <;> simp [word_of_len_zero h]
  present p h := by
    cases p with
    | nil => exact .inl rfl
    | cons b p => exact absurd rfl h

theorem insertEntry_of_len_ne_zero (h : e.len ≠ 0) (t : Trie) :
    insertEntry size t e = insertCode e.sym e.code e.len t := if_neg h

/-- In a table of more than one entry, no entry of length 0 is inserted (R120). -/
theorem insertEntry_of_many (hsize : 1 < size) (h : insertEntry size t e = some t') :
    insertCode e.sym e.code e.len t = some t' := by
  by_cases hlen : e.len = 0
  · rw [insertEntry, if_pos hlen, if_pos hsize] at h; cases h
  · rwa [insertEntry_of_len_ne_zero hlen] at h

/-- An entry that is separate from all entries before it is inserted. -/
theorem Spells.insert (h : Spells t done) (hlen : e.len ≠ 0) (hsep : ∀ f ∈ done, Separate f e) :
    ∃ t', insertEntry size t e = some t' ∧ Spells t' (done ++ [e]) := by
  have hword : e.word ≠ [] := fun h => hlen (by simpa [HcbEntry.word] using congrArg List.length h)
  have leaves : subtrie t e.word = .absent := by
    by_contra hp
    rcases h.present _ hp with hnil | ⟨f, hf, hpre⟩
    · exact hword hnil
    · exact (hsep f hf).2 hpre
  have meetsNoLeaf (p : Bits) (hp : p <+: e.word) (x : Nat) : subtrie t p ≠ .leaf x := fun hleaf => by
    obtain ⟨f, hf, rfl, -⟩ := (h.leaf_iff p x).mp hleaf
    exact (hsep f hf).1 hp
  obtain ⟨t', ht'⟩ := insertCode_succeeds_iff.mpr ⟨leaves, meetsNoLeaf⟩
  refine ⟨t', (insertEntry_of_len_ne_zero hlen t).trans ht', fun p x => ?_, fun p hp => ?_⟩
  · rw [insertCode_leaf_iff ht', h.leaf_iff]
    simp [HcbEntry.word, or_and_right, exists_or, eq_comm]
  · rcases insertCode_present ht' hp with hp | hp
    · exact (h.present p hp).imp_right fun ⟨f, hf, hpre⟩ => ⟨f, List.mem_append_left _ hf, hpre⟩
    · exact .inr ⟨e, by simp, hp⟩

theorem insertEntries_cons_eq_some {rest : HcbTable} : (e :: rest).foldlM (insertEntry size) t = some t' ↔
    ∃ t₁, insertEntry size t e = some t₁ ∧ rest.foldlM (insertEntry size) t₁ = some t' := by
  rw [List.foldlM_cons]
  exact Option.bind_eq_some_iff

/-- The loop of R120 over the entries still to come. -/
theorem Spells.foldlM (rest : HcbTable) (h : Spells t done) (hlen : ∀ e ∈ rest, e.len ≠ 0)
    (hsep : (done ++ rest).Pairwise Separate) :
    ∃ t', rest.foldlM (insertEntry size) t = some t' ∧ Spells t' (done ++ rest) := by
  induction rest generalizing t done with
  | nil => exact ⟨t, rfl, by rwa [List.append_nil]⟩
  | cons e rest ih =>
    have hbefore : ∀ f ∈ done, Separate f e := fun f hf =>
      (List.pairwise_append.mp hsep).2.2 f hf e List.mem_cons_self
    obtain ⟨t₁, ht₁, hspells⟩ := h.insert (size := size) (hlen e List.mem_cons_self) hbefore
    rw [List.append_cons] at hsep ⊢
    obtain ⟨t₂, ht₂, hspells⟩ := ih hspells (fun f hf => hlen f (List.mem_cons_of_mem e hf)) hsep
    exact ⟨t₂, insertEntries_cons_eq_some.mpr ⟨t₁, ht₁, ht₂⟩, hspells⟩

/-- A well-formed table builds the trie that spells it (R120, R121). -/
theorem build_spells {i : Nat} (h : wfTable i table = true) : ∃ trie, build table = some trie ∧ Spells trie table := by
  have hsep := separate_of_wfTable h
  by_cases hzero : ∃ e ∈ table, e.len = 0
  · obtain ⟨e, he, hlen⟩ := hzero
    rw [eq_singleton_of_len_zero hsep he hlen]
    exact ⟨.leaf e.sym, by simp [build, insertEntry, hlen], spells_leaf hlen⟩
  · exact spells_emptyTrie.foldlM table (fun e he hlen => hzero ⟨e, he, hlen⟩) hsep

/-- Settles O27: the loop of R120 keeps the trie the one that spells the entries inserted so far. -/
theorem builtTrieSpellsTheTable : Obligations.BuiltTrieSpellsTheTable := by
  intro i table h
  obtain ⟨trie, hbuild, hspells⟩ := build_spells h
  refine ⟨trie, hbuild, fun e he => (hspells.leaf_iff _ _).mpr ⟨e, he, rfl, rfl⟩, fun path sym hleaf => ?_⟩
  obtain ⟨e, he, hword, hsym⟩ := (hspells.leaf_iff path sym).mp hleaf
  exact ⟨e, he, hsym, hword.symm⟩

/-! ## Reset -/

theorem wfTable_of_wfTablesFrom {i j : Nat} {tables : List HcbTable} (h : wfTablesFrom i tables = true)
    (ht : tables[j]? = some table) : wfTable (i + j) table = true := by
  induction tables generalizing i j with
  | nil => cases ht
  | cons first rest ih =>
    obtain ⟨hfirst, hrest⟩ := (Bool.and_eq_true _ _).mp h
    cases j with
    | zero => cases ht; exact hfirst
    | succ j => rw [Nat.add_comm j 1, ← Nat.add_assoc]; exact ih hrest ht

/-- Settles O8: an accepted configuration has twelve well-formed tables, and each builds. -/
theorem resetBuildsEveryTrie : Obligations.ResetBuildsEveryTrie := by
  obtain ⟨hlen, hwf⟩ := (Bool.and_eq_true _ _).mp Config.hcb.wf
  have hrom : State.reset.hrom = Config.hcb.tables.map buildTrie := rfl
  refine ⟨by rw [hrom, List.length_map]; exact of_decide_eq_true hlen, fun j table ht => ?_⟩
  obtain ⟨trie, hbuild, -⟩ := build_spells (wfTable_of_wfTablesFrom hwf ht)
  exact ⟨trie, hbuild, by rw [hrom, List.getElem?_map, ht, Option.map_some, buildTrie, hbuild, Option.getD_some]⟩

/-! ## A table that is refused -/

/-- The loop of R120 over a list, cut at one entry. -/
theorem insertEntries_split {before rest : HcbTable}
    (h : (before ++ e :: rest).foldlM (insertEntry size) t = some t') :
    ∃ t₁ t₂, before.foldlM (insertEntry size) t = some t₁ ∧ insertEntry size t₁ e = some t₂ ∧
      rest.foldlM (insertEntry size) t₂ = some t' := by
  rw [List.foldlM_append] at h
  obtain ⟨t₁, hbefore, h⟩ := Option.bind_eq_some_iff.mp h
  obtain ⟨t₂, he, hrest⟩ := insertEntries_cons_eq_some.mp h
  exact ⟨t₁, t₂, hbefore, he, hrest⟩

/-- Further entries leave a leaf where it is. -/
theorem leaf_kept_by_insertEntries (hsize : 1 < size) (rest : HcbTable)
    (h : rest.foldlM (insertEntry size) t = some t') (hp : subtrie t p = .leaf x) : subtrie t' p = .leaf x := by
  induction rest generalizing t with
  | nil => cases h; exact hp
  | cons e rest ih =>
    obtain ⟨t₁, he, hrest⟩ := insertEntries_cons_eq_some.mp h
    exact ih hrest ((insertCode_leaf_iff (insertEntry_of_many hsize he)).mpr (.inl hp))

/-- A codeword whose path meets a leaf, or begins the path of one, is not inserted (R120, R122). -/
theorem insertCode_conflict (hleaf : subtrie t p = .leaf x)
    (hp : p <+: natToBits n code ∨ natToBits n code <+: p) : insertCode sym code n t ≠ some t' := fun h => by
  obtain ⟨habsent, hpath⟩ := insertCode_succeeds_iff.mp ⟨t', h⟩
  rcases hp with hp | hp
  · exact hpath p hp x hleaf
  · exact subtrie_ne_absent_of_prefix hp (by rw [hleaf]; exact Trie.noConfusion) habsent

/-- Settles O28: the first entry's leaf is still there when the second is inserted, and in its way. -/
theorem prefixConflictIsRefused : Obligations.PrefixConflictIsRefused := by
  intro before between after e f hconflict
  by_contra hbuilt
  obtain ⟨trie, htrie⟩ := Option.ne_none_iff_exists'.mp hbuilt
  have hsize : 1 < (before ++ e :: between ++ f :: after).length := by simp; omega
  obtain ⟨t₃, t₄, hupToF, hf, -⟩ := insertEntries_split htrie
  obtain ⟨t₁, t₂, -, he, hbetween⟩ := insertEntries_split hupToF
  have hleaf : subtrie t₂ (natToBits e.len e.code) = .leaf e.sym :=
    (insertCode_leaf_iff (insertEntry_of_many hsize he)).mpr (.inr ⟨rfl, rfl⟩)
  exact insertCode_conflict (leaf_kept_by_insertEntries hsize between hbetween hleaf) hconflict
    (insertEntry_of_many hsize hf)

end Sys2Proof.Machine
end

section
/-! PROOFS. The descent of HUFF_DECODE along the bits ahead (R124, R125). -/

namespace Sys2Proof.Machine

open Sys2Proof.Grammar

variable {s : State} {p : Bits} {c0 c1 : Trie}

/-- One edge: a bit ahead is read and leads to its child. -/
theorem descend_node_ahead {b : Bool} (h : Ahead s [b]) :
    descend (.node c0 c1) s = descend (if b then c1 else c0) (s.advance 1) := by
  rw [descend, walk_bind_ok (readBits_flag h)]
  cases b <;> rfl

theorem descend_node_short (h : s.unread = 0) : descend (.node c0 c1) s = .error .read s := by
  rw [descend, walk_bind_error (readBits_short (by omega))]

/-- The descent follows the bits ahead to an internal node (R124). -/
theorem descend_ahead : ∀ (p : Bits) (t : Trie) (s : State), Ahead s p → subtrie t p = .node c0 c1 →
    descend t s = descend (.node c0 c1) (s.advance p.length)
  | [], _, _, _, hp => by rw [subtrie_nil] at hp; rw [hp]; rfl
  | _ :: _, .leaf _, _, _, hp => nomatch hp
  | _ :: _, .absent, _, _, hp => nomatch hp
  | b :: p, .node d0 d1, s, ha, hp => by
    obtain ⟨hb, hrest⟩ := ahead_append (x := [b]) ha
    rw [descend_node_ahead hb, descend_ahead p _ (s.advance 1) hrest hp, State.advance_advance, Nat.add_comm,
      List.length_cons]

/-- A path that leaves the trie raises after the bit that left it (R124). -/
theorem descend_leaves {t : Trie} {b : Bool} (ha : Ahead s (p ++ [b])) (hp : subtrie t p = .node c0 c1)
    (hleft : subtrie t (p ++ [b]) = .absent) :
    descend t s = .error .huffNoChild (s.advance (p ++ [b]).length) := by
  obtain ⟨hpath, hbit⟩ := ahead_append ha
  have missing : (if b then c1 else c0) = .absent := by
    rwa [subtrie_append, hp, subtrie_node_cons, subtrie_nil] at hleft
  rw [descend_ahead p t s hpath hp, descend_node_ahead hbit, missing, descend, walk_raise, State.advance_advance,
    List.length_append]
  rfl

/-- A stream that ends inside the trie raises where it ends (R100, R124). -/
theorem descend_ends {t : Trie} (ha : Ahead s p) (hend : p = s.unreadBits) (hp : subtrie t p = .node c0 c1) :
    descend t s = .error .read (s.advance p.length) := by
  have hunread : (s.advance p.length).unread = 0 := by
    rw [State.unread_advance, hend, State.unreadBits, streamBits_length, Nat.sub_self]
  rw [descend_ahead p t s ha hp, descend_node_short hunread]

/-- A walk that raises after reads, as a command that no error blocks (R301, R302). -/
theorem exec_of_raise_after {i : Instr} {n : Nat} {c : Cause} (hr : refusable i = true) (hw : i.wf = true)
    (he : s.err = 0) (hm : commandWalk i s = .error c (s.advance n)) :
    exec i s = .next (((s.advance n).withErr (errWord c (s.curPos + n))).respond (.error c (s.curPos + n))) := by
  have he' : (s.advance n).err = 0 := he
  rw [exec_refusable hr, hw, stateful_run he, runWalk_error hm, State.takeError_of_clear he', State.advance_curPos]

/-- Settles O29: the descent follows the bits ahead to a leaf, past a missing child, or to the end of the stream. -/
theorem huffDecodeFollowsTheTrie : Obligations.HuffDecodeFollowsTheTrie := by
  intro s t path ht he ha
  have hw : (Instr.huffDecode t).wf = true := decide_eq_true ht
  refine ⟨fun sym hleaf => ?_, fun p b c0 c1 hpath hp hleft => ?_, fun c0 c1 hend hp => ?_⟩
  · exact exec_of_parses rfl hw he ((huffDecode_parses hleaf).map Value.nat) ha
  · subst hpath
    exact exec_of_raise_after rfl hw he (walk_bind_error (descend_leaves ha hp hleft))
  · exact exec_of_raise_after rfl hw he (walk_bind_error (descend_ends ha hend hp))

end Sys2Proof.Machine
end

section
/-! PROOFS. The codebook value command: the components of a tuple as the digits of its index (R140, R141, R144). -/

namespace Sys2Proof.Machine

/-! ## The codebook parameters -/

theorem cbParams_dim {cb : Nat} (hlo : 1 ≤ cb) (hhi : cb ≤ 11) : (cbParams cb).dim = if cb < 5 then 4 else 2 := by
  interval_cases cb <;> rfl

/-- Signed or not, a codebook's digits stand for the values from -offset to LAV (R140). -/
theorem cbBase_eq (cb : Nat) : cbBase cb = cbOffset cb + (cbParams cb).lav + 1 := by
  unfold cbBase cbOffset
  cases (cbParams cb).signed
  · simp
  · simp [Nat.two_mul]

theorem cbBase_pos (cb : Nat) : 0 < cbBase cb := by rw [cbBase_eq]; omega

/-! ## Digits -/

/-- Horner's rule over the `d` low digits of `n` in base `b`, the most significant first. -/
theorem foldl_digits (b n d acc : Nat) :
    (List.range d).foldl (fun a k => a * b + n / b ^ (d - 1 - k) % b) acc = acc * b ^ d + n % b ^ d := by
  induction d generalizing acc with
  | zero => simp [Nat.mod_one]
  | succ d ih =>
    have shift : ∀ k, d + 1 - 1 - Nat.succ k = d - 1 - k := fun k => by omega
    rw [List.range_succ_eq_map, List.foldl_cons, List.foldl_map]
    simp only [shift]
    rw [ih, Nat.add_sub_cancel, Nat.sub_zero, Nat.mod_pow_succ]
    ring

/-- A component with the offset added is a digit of the index (R141). -/
theorem cbComponent_add_offset (cb idx k : Nat) : cbComponent cb idx k + (cbOffset cb : Int) =
    ((idx / cbBase cb ^ ((cbParams cb).dim - 1 - k) % cbBase cb : Nat) : Int) := Int.sub_add_cancel _ _

/-- Each component is in its codebook's range (R140, R144). -/
theorem cbComponent_range (cb idx k : Nat) :
    -(cbOffset cb : Int) ≤ cbComponent cb idx k ∧ cbComponent cb idx k ≤ ((cbParams cb).lav : Int) := by
  have hdigit := cbComponent_add_offset cb idx k
  have hlt := Nat.mod_lt (idx / cbBase cb ^ ((cbParams cb).dim - 1 - k)) (cbBase_pos cb)
  have hbase := cbBase_eq cb
  omega

/-! ## The tuple -/

theorem cbValue_length (cb idx : Nat) : (cbValue cb idx).length = (cbParams cb).dim := by simp [cbValue]

/-- The components, offset added, spell the index (R141). -/
theorem cbValue_spells {cb idx : Nat} (h : idx < cbSize cb) :
    (cbValue cb idx).foldl (fun acc x => acc * (cbBase cb : Int) + (x + (cbOffset cb : Int))) 0 = (idx : Int) := by
  have horner := foldl_digits (cbBase cb) idx (cbParams cb).dim 0
  rw [Nat.zero_mul, Nat.zero_add, ← cbSize, Nat.mod_eq_of_lt h] at horner
  simp only [cbValue, List.foldl_map, cbComponent_add_offset]
  exact (List.foldl_hom Nat.cast fun acc k => by push_cast; rfl).trans (congrArg Nat.cast horner)

/-- CB_VALUE with its arguments in range answers the tuple, whatever ERR holds (R141, R302). -/
theorem exec_cbValue {cb idx : Nat} (hlo : 1 ≤ cb) (hhi : cb ≤ 11) (h : idx < cbSize cb) (s : State) :
    exec (.cbValue cb idx) s = .next (s.respond (.ok (.tuple (cbValue cb idx)))) := by
  have hargs : (isSpectralCb cb && decide (idx < cbSize cb)) = true := by simp [isSpectralCb, hlo, hhi, h]
  rw [exec, execCbValue, hargs]
  rfl

/-- Settles O30: the tuple is the digits of the index, which spell it back, each below the base. -/
theorem cbValueIsThePositionalTuple : Obligations.CbValueIsThePositionalTuple := by
  intro s cb idx hlo hhi h
  refine ⟨cbValue cb idx, exec_cbValue hlo hhi h s, ?_, cbValue_spells h, fun x hx => ?_⟩
  · rw [cbValue_length, cbParams_dim hlo hhi]
  · obtain ⟨k, -, rfl⟩ := List.mem_map.mp hx
    exact cbComponent_range cb idx k

end Sys2Proof.Machine
end

section
/-! PROOFS. The frame of the commands that write the context (R171, R176, R222, R223). -/

namespace Sys2Proof.Machine

open Sys2Proof.Grammar

/-- Nothing but the cursor and the context differs. -/
def sameButCtx (s t : State) : Prop := t = { s with curPos := t.curPos, ctx := t.ctx }

theorem sameButCtx_steps : StepsCtx sameButCtx where
  trans s t u h1 h2 := by unfold sameButCtx at *; rw [h2, h1]
  advance _ _ _ := rfl
  ctx _ _ := rfl

/-- The walks of the commands that write the context change nothing else but the cursor. -/
theorem commandWalk_keeps_sameButCtx {i : Instr} (h : writesContext i = true) :
    Keeps sameButCtx (commandWalk i) := by
  have reads := Keeps.closedUnderReads sameButCtx_steps.toSteps
  have getCtx : Keeps sameButCtx getCtx := .readsForward sameButCtx_steps.toSteps .getCtx
  cases i with
  | icsInfo => exact reads.bind (icsInfoBody_keeps sameButCtx_steps) fun _ => reads.bind getCtx fun _ => reads.pure _
  | sectionData =>
    exact reads.bind (sectionDataBody_keeps sameButCtx_steps) fun _ => reads.bind getCtx fun _ => reads.pure _
  | ics cw => exact .ite (reads.raise _ rfl) (reads.bind (icsBody_keeps sameButCtx_steps) fun _ => reads.pure _)
  | sce => exact reads.bind (sceBody_keeps sameButCtx_steps) fun _ => reads.pure _
  | _ => cases h

/-- A relation of contexts that the walk of an instruction other than LOAD keeps holds across the instruction: the
response and ERR are no part of the context. -/
theorem exec_keeps_ctx {P : Ctx → Ctx → Prop} {i : Instr} {s t : State} (hi : i ≠ .load) (h : exec i s = .next t)
    (refl : P s.ctx s.ctx) (hk : Keeps (fun s t => P s.ctx t.ctx) (commandWalk i)) : P s.ctx t.ctx := by
  obtain ⟨u, r, -, hu, rfl | ⟨-, c, -, -, rfl⟩⟩ := exec_frame hi h refl (commandWalk_keeps sameBlock_steps i) hk
  · exact hu
  · exact hu

/-- A relation of contexts that a command's body keeps is kept where the command goes on to answer from the context. -/
theorem keeps_ctx_answer {P : Ctx → Ctx → Prop} {m : Walk Unit} (hm : Keeps (fun s t => P s.ctx t.ctx) m)
    (answer : Ctx → Value) :
    Keeps (fun s t => P s.ctx t.ctx) (do m; let c ← getCtx; pure (answer c)) := fun s => by
  refine ⟨fun v t h => ?_, fun c t h => ?_⟩
  · obtain ⟨_, u, hu, hanswer⟩ := walk_bind_eq_ok.mp h
    cases hanswer
    exact (hm s).1 _ _ hu
  · rcases walk_bind_eq_error.mp h with hu | ⟨_, _, _, hanswer⟩
    · exact (hm s).2 _ _ hu
    · cases hanswer

/-- ICS_INFO leaves global_gain alone, also where it raises (R171). -/
theorem icsInfoBody_keeps_globalGain : Keeps (fun s t => t.ctx.globalGain = s.ctx.globalGain) icsInfoBody := fun s => by
  obtain ⟨n, -, ⟨x, -, h⟩ | ⟨e, h⟩⟩ := icsInfoBody_cases s
  · have hrun := h s.ctx
    rw [State.withCtx_self] at hrun
    refine ⟨fun _ t ht => ?_, fun _ t ht => ?_⟩
    · rw [hrun] at ht; cases ht; rfl
    · rw [hrun] at ht; cases ht
  · obtain ⟨d, ⟨-, -, hgain⟩, hrun⟩ := h s.ctx
    rw [State.withCtx_self] at hrun
    refine ⟨fun _ t ht => ?_, fun _ t ht => ?_⟩
    · rw [hrun] at ht; cases ht
    · rw [hrun] at ht; cases ht; exact hgain

/-- Nothing but the section registers and V_SECT differs (R176). -/
def writesSections (c d : Ctx) : Prop :=
  d = { c with numSec := d.numSec, sect := d.sect, sfbCb := d.sfbCb, vSect := d.vSect }

/-- A context that hides to another, V_SECT apart, differs from it in the section registers and V_SECT only. -/
theorem writesSections_of_hidesTo {c d : Ctx} (h : hidesTo (clearValidSect c) d) : writesSections c d := by
  have restored := congrArg
    (fun e : Ctx => { e with numSec := d.numSec, sect := d.sect, sfbCb := d.sfbCb, vSect := d.vSect }) h
  exact restored

/-- SECTION_DATA leaves everything ICS_INFO wrote, also where it raises (R176). -/
theorem sectionDataBody_keeps_window : Keeps (fun s t => writesSections s.ctx t.ctx) sectionDataBody := fun s => by
  cases hv : s.ctx.vInfo with
  | false =>
    have hrun : sectionDataBody s = .error .contextUnwritten s := walk_bind_error (requireValid_clear hv)
    exact ⟨fun _ t ht => (by rw [hrun] at ht; cases ht), fun _ t ht => by rw [hrun] at ht; cases ht; rfl⟩
  | true =>
    have run := sectionDataBody_triple s.ctx s ⟨rfl, hv⟩
    refine ⟨fun _ t ht => ?_, fun e t ht => writesSections_of_hidesTo (run.2 e t ht)⟩
    obtain ⟨groups, -, -, hctx⟩ := run.1 _ t ht
    rw [hctx]
    rfl

/-- Settles O20: the four walks write the cursor and the context only, and the bodies of ICS_INFO and SECTION_DATA only
their own part of it. -/
theorem contextCommandsFrame : Obligations.ContextCommandsFrame := by
  intro i s t hw h
  have hi : i ≠ .load := fun e => by subst e; cases hw
  have hgain : i = .icsInfo → t.ctx.globalGain = s.ctx.globalGain := fun e => by
    subst e
    exact exec_keeps_ctx (P := fun c d => d.globalGain = c.globalGain) hi h rfl
      (keeps_ctx_answer (P := fun c d => d.globalGain = c.globalGain) icsInfoBody_keeps_globalGain _)
  have hwindow : i = .sectionData → writesSections s.ctx t.ctx := fun e => by
    subst e
    exact exec_keeps_ctx hi h rfl (keeps_ctx_answer sectionDataBody_keeps_window _)
  have hb := (exec_keeps_stream hi h).2.2
  obtain ⟨u, r, -, hu, ht⟩ := exec_frame hi h (sameButCtx_steps.refl s) (commandWalk_keeps sameBlock_steps i)
    (commandWalk_keeps_sameButCtx hw)
  refine ⟨r, ?_⟩
  obtain rfl | ⟨he, c, rfl, -, rfl⟩ := ht
  · refine ⟨?_, fun a => by rw [hb], .inl ?_, hgain, hwindow⟩
    · rw [hu]; rfl
    · rw [hu]; rfl
  · refine ⟨?_, fun a => by rw [hb], .inr ⟨he, c, _, rfl⟩, hgain, hwindow⟩
    rw [hu]; rfl

end Sys2Proof.Machine
end

section
/-! SUPPORT. Walks that raise over the bits they expect: what such a walk takes, raises and leaves behind. -/

namespace Sys2Proof.Machine

open Sys2Proof.Grammar

/-- With these bits ahead the walk takes exactly them, raises `e` and leaves the context `c`. -/
def Rejects {α : Type} (m : Walk α) (s : State) (bits : Bits) (e : Cause) (c : Ctx) : Prop :=
  Ahead s bits → m s = .error e ((s.advance bits.length).withCtx c)

namespace Rejects

variable {α β : Type} {s : State} {c d : Ctx} {x y : Bits} {a : α} {e : Cause}

theorem raise (e : Cause) : Rejects (raise e : Walk α) s [] e s.ctx := fun _ => rfl

/-- What follows a walk that raises is not run. -/
theorem bind {m : Walk α} {f : α → Walk β} (hm : Rejects m s x e c) : Rejects (m >>= f) s x e c :=
  fun h => walk_bind_error (hm h)

/-- Raising after a walk that answers. -/
theorem afterCtx {m : Walk α} {f : α → Walk β} (hm : Parses m s x a c)
    (hf : Rejects (f a) ((s.advance x.length).withCtx c) y e d) : Rejects (m >>= f) s (x ++ y) e d := fun h => by
  obtain ⟨hx, hy⟩ := ahead_append h
  rw [walk_bind_ok (hm hx), hf hy, State.withCtx_advance, State.advance_advance, State.withCtx_withCtx,
    List.length_append]

/-- Raising after a walk that leaves the context alone. -/
theorem after {m : Walk α} {f : α → Walk β} (hm : Parses m s x a s.ctx)
    (hf : Rejects (f a) (s.advance x.length) y e d) : Rejects (m >>= f) s (x ++ y) e d := afterCtx hm hf

/-- Raising where a walk has taken the last bits. -/
theorem last {m : Walk α} {f : α → Walk β} (hm : Parses m s x a s.ctx)
    (hf : Rejects (f a) (s.advance x.length) [] e d) : Rejects (m >>= f) s x e d := fun h => by
  rw [walk_bind_ok (hm h)]
  exact hf (ahead_nil _)

theorem updateThen {g : Ctx → Ctx} {f : Unit → Walk β} (hf : Rejects (f ()) (s.withCtx (g s.ctx)) x e d) :
    Rejects (updateCtx g >>= f) s x e d := fun h => by rw [walk_bind_ok (walk_updateCtx g s), hf h]; rfl

theorem getCtxThen {f : Ctx → Walk β} (hf : Rejects (f s.ctx) s x e d) : Rejects (getCtx >>= f) s x e d := fun h => by
  rw [walk_bind_ok (walk_getCtx s), hf h]

theorem requireThen {flag : Ctx → Bool} {f : Unit → Walk β} (hv : flag s.ctx = true) (hf : Rejects (f ()) s x e d) :
    Rejects (requireValid flag >>= f) s x e d := fun h => by rw [walk_bind_ok (requireValid_set hv), hf h]

theorem whileAgain {body : α → Walk (α ⊕ β)} (hc : Consumes body) {a' : α} (h : Parses (body a) s x (.inl a') c)
    (h' : Rejects (whileBits body a') ((s.advance x.length).withCtx c) y e d) :
    Rejects (whileBits body a) s (x ++ y) e d := fun ha => by
  obtain ⟨hx, hy⟩ := ahead_append ha
  rw [whileBits_again hc (h hx), h' hy, State.withCtx_advance, State.advance_advance, State.withCtx_withCtx,
    List.length_append]

theorem whileHere {body : α → Walk (α ⊕ β)} (h : Rejects (body a) s x e d) : Rejects (whileBits body a) s x e d :=
  fun ha => whileBits_error (h ha)

end Rejects

/-- A walk that raises over its bits, as a command that no error blocks: ERR and the response name the cause and the
position after the bits (R301). -/
theorem exec_of_rejects {i : Instr} {s : State} {bits : Bits} {e : Cause} {c : Ctx} (hr : refusable i = true)
    (hw : i.wf = true) (he : s.err = 0) (h : Rejects (commandWalk i) s bits e c) (ha : Ahead s bits) :
    exec i s = .next ((((s.advance bits.length).withCtx c).withErr (errWord e (s.curPos + bits.length))).respond
      (.error e (s.curPos + bits.length))) := by
  have he' : ((s.advance bits.length).withCtx c).err = 0 := he
  rw [exec_refusable hr, hw, stateful_run he, runWalk_error (h ha), State.takeError_of_clear he', State.withCtx_curPos,
    State.advance_curPos]

end Sys2Proof.Machine
end

section
/-! PROOFS. The side information as commands: ICS_INFO, SECTION_DATA, the scale factors, pulse, TNS and gain control
(R171 to R189). -/

namespace Sys2Proof.Machine

open Sys2Proof.Grammar

variable {s : State}

/-! ## ICS_INFO -/

/-- ICS_INFO answers from the context it leaves; the groups it counts are all the groups there are. -/
theorem icsInfoResult_context (x : IcsInfo) (c : Ctx) : icsInfoResult (x.context c) =
    .icsInfo (x.context c).windowSequence (x.context c).maxSfb (x.context c).numWindowGroups
      (x.context c).windowGroupLength := by
  have hall : (x.context c).windowGroupLength.take (x.context c).numWindowGroups = (x.context c).windowGroupLength := by
    obtain ⟨_, _, window⟩ := x
    cases window with
    | long ws maxSfb predictor => rfl
    | short maxSfb g => exact List.take_length
  rw [icsInfoResult, hall]

/-- Settles O32: the body parses an ics_info, and the answer is read off the context it leaves. -/
theorem icsInfoParsesWindowContext : Obligations.IcsInfoParsesWindowContext := by
  intro s x he hx ha
  rw [← icsInfoResult_context]
  exact exec_of_parses rfl rfl he ((icsInfoBody_parses hx).bindLast rfl) ha

/-- A max_sfb above a limit is written and raises right after its field, whatever would follow (R175). -/
theorem maxSfbField_rejects {n limit maxSfb : Nat} {rest : Nat → Walk Unit} (hfit : maxSfb < 2 ^ n)
    (hmax : limit < maxSfb) :
    Rejects (do let maxSfb ← readBits n
                updateCtx fun c => { c with maxSfb := maxSfb }
                if maxSfb > limit then raise .maxSfbRange else rest maxSfb)
      s (natToBits n maxSfb) .maxSfbRange { s.ctx with maxSfb := maxSfb } := by
  refine .last (.field hfit) <| .updateThen ?_
  rw [if_pos hmax]
  exact .raise _

/-- The window part raises right after a max_sfb above the band count (R175). -/
theorem icsInfoWindow_rejects {ws : WindowSequence} {maxSfb : Nat} (hmax : sfbLimit ws < maxSfb)
    (hfit : maxSfb < if isShort ws then 16 else 64) :
    Rejects (icsInfoWindow ws) s (natToBits (if isShort ws then 4 else 6) maxSfb) .maxSfbRange
      { s.ctx with maxSfb := maxSfb } := by
  unfold icsInfoWindow
  unfold sfbLimit at hmax
  cases hws : isShort ws with
  | true => rw [hws] at hmax hfit; exact maxSfbField_rejects (n := 4) hfit hmax
  | false => rw [hws] at hmax hfit; exact maxSfbField_rejects (n := 6) hfit hmax

/-- ICS_INFO over its head and a max_sfb above the band count (R175). -/
theorem icsInfoBody_rejects {reserved shape : Bool} {ws : WindowSequence} {maxSfb : Nat}
    (hmax : sfbLimit ws < maxSfb) (hfit : maxSfb < if isShort ws then 16 else 64) :
    Rejects icsInfoBody s
      ([reserved] ++ (natToBits 2 (windowCode ws) ++ ([shape] ++ natToBits (if isShort ws then 4 else 6) maxSfb)))
      .maxSfbRange { headContext reserved shape ws s.ctx with maxSfb := maxSfb } := by
  refine .updateThen <| .after (.flag reserved) <| .updateThen <| .after (.field (windowCode_lt ws)) <| .updateThen <|
    .after (.flag shape) <| .updateThen ?_
  rw [windowSequenceOf_windowCode]
  exact (icsInfoWindow_rejects hmax hfit).bind

/-- Settles O33: the window part raises after 1 + 2 + 1 bits and the field, where both flags have been cleared. -/
theorem maxSfbAboveTheBandCountRaises : Obligations.MaxSfbAboveTheBandCountRaises := by
  intro s reserved shape ws maxSfb he hmax hfit ha
  have run := exec_of_rejects (i := .icsInfo) rfl rfl he (icsInfoBody_rejects (reserved := reserved) hmax hfit).bind
    (by simpa using ha)
  refine ⟨_, run, ?_, rfl, rfl, rfl⟩
  simp only [State.withErr_curPos, State.withCtx_curPos, State.advance_curPos, List.length_append, natToBits_length,
    List.length_singleton]
  cases isShort ws <;> rfl

/-! ## The grouping and the band edges -/

/-- A 0 bit starts a group (R172). -/
theorem groupLengths_length : ∀ (bits : Bits) (done : List Nat) (cur : Nat),
    (groupLengths done cur bits).length = done.length + 1 + bits.countP (fun b => b == false)
  | [], done, cur => by simp [groupLengths]
  | true :: rest, done, cur => by
    rw [groupLengths, groupLengths_length rest, List.countP_cons]; rfl
  | false :: rest, done, cur => by
    rw [groupLengths, groupLengths_length rest, List.countP_cons, List.length_cons]
    exact Nat.add_right_comm _ _ _

/-- Settles O34: each bit adds a window to the last group or starts one with it. -/
theorem groupingPartitionsTheWindows : Obligations.GroupingPartitionsTheWindows := by
  refine ⟨fun g _ => ⟨grouping_sum g, groupLengths_length _ [] 1, ?_⟩, rfl, rfl, rfl⟩
  exact List.all_eq_true.mpr fun n hn => decide_eq_true (grouping_pos g n hn)

/-- The first entries of a list, by index. -/
theorem take_eq_map_getD (l : List Nat) {n : Nat} (h : n ≤ l.length) :
    l.take n = (List.range n).map fun i => l.getD i 0 := by
  refine List.ext_getElem (by simpa using h) fun i hi hi' => ?_
  have hl : i < l.length := by rw [List.length_take] at hi; omega
  simp [hl]

/-- The edges of the long table rise by multiples of 4 (R173). -/
theorem swbOffsetLong_width : ∀ i < 49, swbOffsetLong.getD i 0 ≤ swbOffsetLong.getD (i + 1) 0 ∧
    (swbOffsetLong.getD (i + 1) 0 - swbOffsetLong.getD i 0) % 4 = 0 := by decide

/-- The edges of the short table rise by multiples of 4 (R173). -/
theorem swbOffsetShort_width : ∀ i < 14, swbOffsetShort.getD i 0 ≤ swbOffsetShort.getD (i + 1) 0 ∧
    (swbOffsetShort.getD (i + 1) 0 - swbOffsetShort.getD i 0) % 4 = 0 := by decide

/-- R174's running sum from band `i` on telescopes to the scaled edges. -/
theorem shortOffsetsFrom_eq (len : Nat) : ∀ n i : Nat, i + n ≤ 14 →
    shortOffsetsFrom len (swbOffsetShort.getD i 0 * len) i n =
      (List.range' i (n + 1)).map fun j => swbOffsetShort.getD j 0 * len
  | 0, _, _ => rfl
  | n + 1, i, h => by
    have hle := (swbOffsetShort_width i (by omega)).1
    rw [shortOffsetsFrom, ← Nat.add_mul, Nat.add_sub_cancel' hle, shortOffsetsFrom_eq len n (i + 1) (by omega),
      List.range'_succ (n := n + 1), List.map_cons]

/-- The edges of one group of short windows (R174). -/
theorem shortOffsetsFrom_zero (len : Nat) {maxSfb : Nat} (h : maxSfb ≤ 14) :
    shortOffsetsFrom len 0 0 maxSfb = (swbOffsetShort.take (maxSfb + 1)).map (· * len) := by
  have scaled := shortOffsetsFrom_eq len maxSfb 0 (by omega)
  rw [show swbOffsetShort.getD 0 0 * len = 0 from Nat.zero_mul len, ← List.range_eq_range'] at scaled
  rw [scaled, take_eq_map_getD swbOffsetShort (show maxSfb + 1 ≤ 15 by omega), List.map_map]
  rfl

/-- The edges of a long window (R174). -/
theorem offsets_of_long {ws : WindowSequence} (hws : isShort ws = false) {maxSfb : Nat} (h : maxSfb ≤ 49)
    (lengths : List Nat) : offsets ws maxSfb lengths = [swbOffsetLong.take (maxSfb + 1)] := by
  rw [offsets, hws, take_eq_map_getD swbOffsetLong (show maxSfb + 1 ≤ 50 by omega)]; rfl

/-- The edges of EIGHT_SHORT (R174). -/
theorem offsets_of_short {ws : WindowSequence} (hws : isShort ws = true) {maxSfb : Nat} (h : maxSfb ≤ 14)
    (lengths : List Nat) : offsets ws maxSfb lengths =
      lengths.map fun len => (swbOffsetShort.take (maxSfb + 1)).map (· * len) := by
  rw [offsets, hws]
  exact List.map_congr_left fun len _ => shortOffsetsFrom_zero len h

/-- Scaling keeps the edges rising by multiples of 4, and so does dropping the bands above max_sfb (R174). -/
theorem scaled_width (table : List Nat) (len : Nat) {maxSfb i : Nat} (hi : i < maxSfb)
    (h : table.getD i 0 ≤ table.getD (i + 1) 0 ∧ (table.getD (i + 1) 0 - table.getD i 0) % 4 = 0) :
    ((table.take (maxSfb + 1)).map (· * len)).getD i 0 ≤ ((table.take (maxSfb + 1)).map (· * len)).getD (i + 1) 0 ∧
    (((table.take (maxSfb + 1)).map (· * len)).getD (i + 1) 0 -
      ((table.take (maxSfb + 1)).map (· * len)).getD i 0) % 4 = 0 := by
  have edge (j : Nat) (hj : j < maxSfb + 1) :
      ((table.take (maxSfb + 1)).map (· * len)).getD j 0 = table.getD j 0 * len := by
    have hmap := List.getD_map (table.take (maxSfb + 1)) 0 (n := j) (· * len)
    rw [Nat.zero_mul] at hmap
    rw [hmap, List.getD_eq_getElem?_getD, List.getElem?_take_of_lt hj, ← List.getD_eq_getElem?_getD]
  rw [edge i (by omega), edge (i + 1) (by omega), ← Nat.sub_mul, Nat.mul_mod, h.2, Nat.zero_mul]
  exact ⟨Nat.mul_le_mul_right len h.1, rfl⟩

/-- Settles O35: the edges are the table's, scaled by the group's length, and so are the widths. -/
theorem offsetsScaleTheBandTables : Obligations.OffsetsScaleTheBandTables := by
  intro ws maxSfb lengths hmax
  unfold sfbLimit at hmax
  cases hws : isShort ws with
  | false =>
    rw [hws] at hmax
    have hedges := offsets_of_long hws hmax lengths
    refine ⟨fun _ => hedges, fun h => (nomatch h), fun edges he i hi => ?_⟩
    rw [hedges, List.mem_singleton] at he
    have := scaled_width swbOffsetLong 1 hi (swbOffsetLong_width i (Nat.lt_of_lt_of_le hi hmax))
    simpa only [Nat.mul_one, List.map_id', he] using this
  | true =>
    rw [hws] at hmax
    have hedges := offsets_of_short hws hmax lengths
    refine ⟨fun h => (nomatch h), fun _ => hedges, fun edges he i hi => ?_⟩
    rw [hedges] at he
    obtain ⟨len, -, rfl⟩ := List.mem_map.mp he
    exact scaled_width swbOffsetShort len hi (swbOffsetShort_width i (Nat.lt_of_lt_of_le hi hmax))

/-! ## SECTION_DATA -/

/-- Settles O36: the body parses the sections of every group, and the answer is what it stored. -/
theorem sectionDataStoresTheSections : Obligations.SectionDataStoresTheSections := by
  intro s groups he hv hn hg ha
  exact exec_of_parses rfl rfl he ((sectionDataBody_parses hv hn hg).bindLast rfl) ha

/-- A section that would pass max_sfb raises after its length, with nothing stored (R177). -/
theorem sectionPass_rejects {k : Nat} {x : RawSection} (g : Nat) (hcb : x.cb < 16) (hk : k < s.ctx.maxSfb)
    (hlen : s.ctx.maxSfb < k + x.len) :
    Rejects (sectionPass g k) s (x.bits s.ctx.windowSequence) .sectionOverrun s.ctx := by
  have length := sectionLength_parses s.ctx.windowSequence (Nat.mod_lt x.len (sectEsc_pos s.ctx.windowSequence))
    (x.len / sectEsc s.ctx.windowSequence) 0 (s.advance (natToBits 4 x.cb).length)
  rw [Nat.zero_add, Nat.div_add_mod'] at length
  rw [RawSection.bits, List.append_assoc]
  refine .getCtxThen ?_
  rw [if_pos hk]
  refine .after (.field hcb) <| .last length ?_
  rw [if_pos hlen]
  exact .raise _

/-- The sections of the open group, from band `k` on, up to one that would pass max_sfb (R176, R177). -/
theorem sectionPasses_reject {c : Ctx} {groups : List (List Section)} {x : RawSection} {last : Nat} (hcb : x.cb < 16)
    (hlast : last < c.maxSfb) (hover : c.maxSfb < last + x.len) :
    ∀ (raws : List RawSection) (k : Nat) (cur : List Section) (s : State), s.ctx = withOpenGroup c groups cur →
      groupPrefix c.maxSfb k raws last →
      Rejects (whileBits (sectionPass groups.length) k) s ((raws ++ [x]).flatMap (RawSection.bits c.windowSequence))
        .sectionOverrun (withOpenGroup c groups (cur ++ storedFrom k raws))
  | [], k, cur, s, hs, h => by
    have hmax : s.ctx.maxSfb = c.maxSfb := by rw [hs]; rfl
    have hws : s.ctx.windowSequence = c.windowSequence := by rw [hs]; rfl
    have hk : k = last := h
    subst hk
    rw [storedFrom, List.append_nil, ← hs, List.nil_append, List.flatMap_singleton, ← hws]
    rw [← hmax] at hlast hover
    exact .whileHere (sectionPass_rejects groups.length hcb hlast hover)
  | y :: rest, k, cur, s, hs, h => by
    obtain ⟨hycb, hk, hlen, hrest⟩ := h
    rw [storedFrom_cons, ← List.append_assoc]
    exact .whileAgain (sectionPass_consumes _) (sectionPass_parses hs hycb hk hlen)
      (sectionPasses_reject hcb hlast hover rest (k + y.len) (cur ++ storedFrom k [y]) _ rfl hrest)

/-- A group whose sections lead past max_sfb (R177). -/
theorem sectionGroup_rejects {c : Ctx} {groups : List (List Section)} {raws : List RawSection} {x : RawSection}
    {last : Nat} (hs : s.ctx = withSections c groups) (hprefix : groupPrefix c.maxSfb 0 raws last) (hcb : x.cb < 16)
    (hlast : last < c.maxSfb) (hover : c.maxSfb < last + x.len) :
    Rejects (sectionGroup groups.length) s ((raws ++ [x]).flatMap (RawSection.bits c.windowSequence)) .sectionOverrun
      (withOpenGroup c groups (storedFrom 0 raws)) := by
  have opened : openGroup s.ctx = withOpenGroup c groups [] := by rw [hs]; exact openGroup_eq c groups
  exact .updateThen (sectionPasses_reject hcb hlast hover raws 0 [] (s.withCtx (openGroup s.ctx)) opened hprefix).bind

/-- Whole groups, then one whose sections lead past max_sfb, within the groups that are left (R176, R177). -/
theorem sectionGroups_reject {c : Ctx} {raws : List RawSection} {x : RawSection} {last : Nat}
    (hprefix : groupPrefix c.maxSfb 0 raws last) (hcb : x.cb < 16) (hlast : last < c.maxSfb)
    (hover : c.maxSfb < last + x.len) :
    ∀ (whole : List (List RawSection)) (groups : List (List Section)) (n : Nat) (s : State), whole.length < n →
      s.ctx = withSections c groups → (∀ g ∈ whole, groupOk c.maxSfb g) →
      Rejects (foldFrom (fun g _ => sectionGroup g) groups.length n ()) s
        (sectionBits c.windowSequence (whole ++ [raws ++ [x]])) .sectionOverrun
        (withOpenGroup c (groups ++ whole.map (storedFrom 0)) (storedFrom 0 raws))
  | _, _, 0, _, hn, _, _ => absurd hn (Nat.not_lt_zero _)
  | [], groups, n + 1, s, _, hs, _ => by
    rw [List.map_nil, List.append_nil, List.nil_append, sectionBits, List.flatMap_singleton]
    exact (sectionGroup_rejects hs hprefix hcb hlast hover).bind
  | g :: rest, groups, n + 1, s, hn, hs, h => by
    have tail := sectionGroups_reject hprefix hcb hlast hover rest (groups ++ [storedFrom 0 g]) n
      ((s.advance (g.flatMap (RawSection.bits c.windowSequence)).length).withCtx
        (withSections c (groups ++ [storedFrom 0 g]))) (Nat.lt_of_succ_lt_succ hn) rfl
      fun y hy => h y (List.mem_cons_of_mem g hy)
    rw [List.length_append, List.append_assoc] at tail
    exact .afterCtx (sectionGroup_parses hs (h g List.mem_cons_self)) tail

/-- SECTION_DATA over whole groups and a section that would pass max_sfb: the sections before it stay stored (R177). -/
theorem sectionDataBody_rejects {whole : List (List RawSection)} {raws : List RawSection} {x : RawSection} {last : Nat}
    (hv : s.ctx.vInfo = true) (hn : whole.length < s.ctx.numWindowGroups) (hg : ∀ g ∈ whole, groupOk s.ctx.maxSfb g)
    (hprefix : groupPrefix s.ctx.maxSfb 0 raws last) (hcb : x.cb < 16) (hlast : last < s.ctx.maxSfb)
    (hover : s.ctx.maxSfb < last + x.len) :
    Rejects sectionDataBody s (sectionBits s.ctx.windowSequence (whole ++ [raws ++ [x]])) .sectionOverrun
      (withOpenGroup (clearValidSect s.ctx) (whole.map (storedFrom 0)) (storedFrom 0 raws)) := by
  have groups := sectionGroups_reject (c := clearValidSect s.ctx) hprefix hcb hlast hover whole []
    s.ctx.numWindowGroups (s.withCtx (startSections s.ctx)) hn (startSections_eq s.ctx) hg
  exact .requireThen hv <| .updateThen <| .getCtxThen groups.bind

/-- Settles O37: the groups and sections before it are stored, and the section raises after its length. -/
theorem sectionPastMaxSfbRaises : Obligations.SectionPastMaxSfbRaises := by
  intro s groups k g x he hv hn hg hprefix hk hcb hover ha
  exact ⟨_, exec_of_rejects (i := .sectionData) rfl rfl he
    (sectionDataBody_rejects hv hn hg hprefix hcb hk hover).bind ha, rfl, rfl, rfl⟩

/-! ## Scale factors, pulse, TNS and gain control -/

/-- Settles O38: the body parses the codewords and counts them. -/
theorem scaleFactorDataCountsSymbols : Obligations.ScaleFactorDataCountsSymbols := by
  intro s words he hv hlen hw ha
  exact exec_of_parses rfl rfl he ((scaleFactorDataBody_parses hv hlen hw).map Value.nat) ha

/-- Two bits count the pulses, six give the first band, and each pulse is nine (R185). -/
theorem pulse_bits_length {x : Pulse} (h : x.Ok) : x.bits.length = 8 + 9 * x.pulses.length := by
  obtain ⟨hstart, -, -, hpulse⟩ := h
  have hsum : (x.pulses.map List.length).sum = x.pulses.length * 9 := by
    have := List.sum_eq_card_nsmul (x.pulses.map List.length) 9 (by simpa using hpulse)
    rwa [List.length_map, smul_eq_mul] at this
  rw [Pulse.bits, List.length_append, List.length_append, natToBits_length, hstart, List.length_flatten, hsum]
  omega

/-- Settles O39: the body parses the pulses, whose bits are so many. -/
theorem pulseDataConsumesItsPulses : Obligations.PulseDataConsumesItsPulses := by
  intro s x he hx ha
  have run := exec_of_parses (i := .pulseData) rfl rfl he ((pulseDataBody_parses hx).map Value.nat) ha
  rwa [pulse_bits_length hx] at run

/-- Settles O40: the body parses the filters of each window and measures them. -/
theorem tnsDataConsumesItsFilters : Obligations.TnsDataConsumesItsFilters := by
  intro s windows he hv hlen hw ha
  exact exec_of_parses rfl rfl he ((tnsDataBody_parses hv rfl hlen hw).map Value.nat) ha

/-- Settles O41: the body parses the adjustments of each band and measures them. -/
theorem gainControlDataConsumesItsBands : Obligations.GainControlDataConsumesItsBands := by
  intro s bands he hv hok ha
  exact exec_of_parses rfl rfl he ((gainControlDataBody_parses hv rfl hok).map Value.nat) ha

end Sys2Proof.Machine
end

section
/-! PROOFS. The spectral commands: ESC_SEQ, SPEC_UNIT and SPECTRAL_DATA (R200 to R211). -/

namespace Sys2Proof.Machine

open Sys2Proof.Grammar

/-- The prefix and its 0 are N + 1 bits, the word N + 4 (R204). -/
theorem escape_bits_length {e : Escape} (h : e.Ok) : e.bits.length = 2 * e.prefixLen + 5 := by
  unfold Escape.Ok at h
  rw [Escape.bits, List.length_append, List.length_replicate, List.length_cons, h]
  omega

/-- Settles O42: the walk parses the escape sequence, which is 2N + 5 bits, and the answer cuts its word to 32 bits. -/
theorem escapeSequenceIsTwoNPlusFive : Obligations.EscapeSequenceIsTwoNPlusFive := by
  intro s e he hok ha
  have run := exec_of_parses (i := .escSeq) rfl rfl he
    ((escSeq_parses hok).map fun r => Value.escape r.1 (r.2 % 2 ^ 32)) ha
  rwa [escape_bits_length hok] at run

/-- Settles O43: the walk parses the codeword, then the signs and the escapes that its tuple asks for. -/
theorem specUnitConsumesSignsThenEscapes : Obligations.SpecUnitConsumesSignsThenEscapes := by
  intro s cb u hlo hhi he hok ha
  have hw : (Instr.specUnit cb).wf = true := by simp [Instr.wf, isSpectralCb, hlo, hhi]
  exact exec_of_parses rfl hw he ((specUnit_parses hok).map fun r => Value.unitOf r.1 r.2.1 r.2.2) ha

/-- Settles O44: the body parses the units section by section; the bits it counts are those of all units together. -/
theorem spectralDataDecodesEverySection : Obligations.SpectralDataDecodesEverySection := by
  intro s units he hv hunits ha
  rw [← List.length_flatMap]
  exact exec_of_parses rfl rfl he ((spectralDataBody_parses hv hunits).map fun r => Value.spectral r.1 r.2) ha

end Sys2Proof.Machine
end

section
/-! PROOFS. PCE, FIL and EXT_PAYLOAD as commands (R225 to R230). -/

namespace Sys2Proof.Machine

open Sys2Proof.Grammar

variable {s : State}

/-- A walk over its bits that leaves the context alone, as a command that no error blocks. -/
theorem exec_of_parses_same_ctx {i : Instr} {bits : Bits} {v : Value} (hr : refusable i = true) (hw : i.wf = true)
    (he : s.err = 0) (h : Parses (commandWalk i) s bits v s.ctx) (ha : Ahead s bits) :
    exec i s = .next ((s.advance bits.length).respond (.ok v)) := exec_of_parses hr hw he h ha

/-- Settles O46: the body parses the element, whose padding leads to the next byte boundary. -/
theorem pceConsumesItsFieldsAndAlignment : Obligations.PceConsumesItsFieldsAndAlignment := by
  intro s x he hx ha
  exact exec_of_parses_same_ctx rfl rfl he ((pceBody_parses hx).map fun r => Value.pce r.1 r.2) ha

/-- A count of 4 bits, or of 12 where it is escaped, and 8 bits for each byte counted (R227, R229). -/
theorem fil_bits_length {x : Fil} (h : x.Ok) : x.bits.length = (if x.escaped then 12 else 4) + 8 * x.count := by
  have hcount : x.countBits.length = if x.escaped then 12 else 4 := by unfold Fil.countBits; split <;> simp
  rw [Fil.bits, List.length_append, hcount]
  by_cases hz : x.count = 0
  · rw [if_pos hz, hz]; rfl
  · obtain ⟨-, hbody⟩ := h.2 hz
    rw [if_neg hz, List.length_append, natToBits_length, hbody]
    omega

/-- Settles O47: the body parses the fill element, whose bits are so many. -/
theorem filConsumesEightBitsAByte : Obligations.FilConsumesEightBitsAByte := by
  intro s x he hx ha
  have run := exec_of_parses_same_ctx (i := .fil) rfl rfl he ((filBody_parses hx).map Value.nat) ha
  rwa [fil_bits_length hx] at run

/-- A type whose payload is refused raises once its 4 bits are read (R230). -/
theorem extPayload_rejects {cnt code : Nat} {cause : Cause} (hcode : code < 16)
    (h : extBody cnt (extTypeOf code) = raise cause) :
    Rejects (extPayload cnt) s (natToBits 4 code) cause s.ctx := by
  refine .last (.field hcode) ?_
  rw [h]
  exact (Rejects.raise cause).bind

/-- Settles O48: a payload that is not refused is parsed, and its bits are 8 for each byte; a refused one raises. -/
theorem extPayloadConsumesEightBitsAByte : Obligations.ExtPayloadConsumesEightBitsAByte := by
  intro s cnt code body he hlo hhi hcode
  have hw : (Instr.extPayload cnt).wf = true := extCountOk_iff.mpr ⟨hlo, hhi⟩
  refine ⟨fun hok hbody ha => ?_, fun cause hcause ha => ?_⟩
  · have run := exec_of_parses_same_ctx rfl hw he ((extPayload_parses hlo hok hbody).map fun r => Value.ext r.1 r.2) ha
    rwa [List.length_append, natToBits_length, hbody, show 4 + (8 * cnt - 4) = 8 * cnt by omega] at run
  · have raises : extBody cnt (extTypeOf code) = raise cause := by
      rcases hcause with ⟨rfl, rfl⟩ | ⟨rfl, rfl⟩ | ⟨rfl, rfl⟩
      · rfl
      · rfl
      · rfl
    have run := exec_of_rejects (i := .extPayload cnt) rfl hw he (extPayload_rejects hcode raises).bind ha
    rwa [natToBits_length] at run

end Sys2Proof.Machine
end

section
/-! PROOFS. One pass of the dispatch loop: the element it takes, and how the loop ends (R231 to R236). -/

namespace Sys2Proof.Machine

open Sys2Proof.Grammar

variable {s : State}

/-! ## Before an element -/

/-- Before bits that are ahead the stream is not at its end. -/
theorem curPos_ne_curLen_of_ahead {bits : Bits} (ha : Ahead s bits) (hbits : 0 < bits.length) :
    s.curPos ≠ s.curLen := fun hend => by
  have hunread := (ahead_spec ha).1
  rw [State.unread, hend, Nat.sub_self] at hunread
  omega

/-- At a checkpoint the record is empty (R24, R107). -/
theorem record_of_checkpoint (hmark : s.curMark = s.curPos) : s.record = [] := by
  rw [State.record, hmark, Nat.sub_self, streamBits_zero]

/-- An individual_channel_stream writes every register of the context (R222). -/
theorem ics_context_eq (x : Ics) (c d : Ctx) : x.context c = x.context d := by
  obtain ⟨_, ⟨_, _, window⟩, _, _, _, _, _, _⟩ := x
  cases window with
  | long ws maxSfb predictor => rfl
  | short maxSfb g => rfl

/-- What the grammar allows depends on the block's tries only. -/
theorem icsOk_of_hrom {t : State} {x : Ics} (hrom : t.hrom = s.hrom) (h : x.Ok s) : x.Ok t := by
  unfold Ics.Ok at h ⊢
  rwa [ics_context_eq x t.ctx s.ctx, isCodeword_of_hrom hrom, specUnitOk_of_hrom hrom]

theorem elementOk_of_hrom {t : State} {pos : Nat} {x : Element} (hrom : t.hrom = s.hrom) (h : x.Ok s pos) :
    x.Ok t pos := by
  cases x with
  | sce tag ics =>
    obtain ⟨htag, hics⟩ := h
    exact ⟨htag, icsOk_of_hrom hrom hics⟩
  | pce x => exact h
  | fil x => exact h
  | skipped id => exact h

theorem elementsOk_of_hrom {t : State} (hrom : t.hrom = s.hrom) :
    ∀ {pos : Nat} {xs : List Element}, elementsOk s pos xs → elementsOk t pos xs
  | _, [], _ => trivial
  | _, _ :: _, ⟨hx, hrest⟩ => ⟨elementOk_of_hrom hrom hx, elementsOk_of_hrom hrom hrest⟩

/-! ## The element -/

/-- The arm of a skipped id clears the record and parses nothing (R236). -/
theorem elementArm_skipped {id : Nat} (hlo : 1 ≤ id) (hhi : id ≤ 4) :
    elementArm (elementIdOf id) s = .ok (.skipped id) s.markHere := by
  interval_cases id
  · rfl
  · rfl
  · rfl
  · rfl

theorem element_id_lt {pos : Nat} {x : Element} (hx : x.Ok s pos) : x.id < 2 ^ 3 := by
  cases x with
  | sce tag ics => exact (by decide : 0 < 2 ^ 3)
  | pce x => exact (by decide : 5 < 2 ^ 3)
  | fil x => exact (by decide : 6 < 2 ^ 3)
  | skipped id => exact Nat.lt_of_le_of_lt hx.2 (by decide)

/-- The arm of an element's id, with the id as the record so far: it takes the element's body (R231, R233, R236). -/
theorem elementArm_element {pos : Nat} {x : Element} (hx : x.Ok s pos) (hpos : s.curPos = pos + 3)
    (hmark : s.curMark ≤ s.curPos) (hrec : s.record = natToBits 3 x.id) (ha : Ahead s x.body) :
    elementArm (elementIdOf x.id) s =
      .ok x.result ((s.advance x.body.length).withCtx (x.context s.ctx)).markHere := by
  have recorded {α : Type} {body : Walk α} {a : α} {id : Nat} {c : Ctx} (hb : Parses body s x.body a c) :
      recordElement id body s = .ok (.element id (bitSeq x.bits)) ((s.advance x.body.length).withCtx c).markHere := by
    rw [Element.bits, ← hrec]
    exact recordElement_ahead id hmark hb ha
  cases x with
  | sce tag ics =>
    obtain ⟨htag, hics⟩ := hx
    exact recorded (sceBody_parses htag hics)
  | pce x =>
    have hok : x.Ok s.curPos := by rw [hpos]; exact hx
    exact recorded (pceBody_parses hok)
  | fil x => exact recorded (filBody_parses hx)
  | skipped id =>
    obtain ⟨hlo, hhi⟩ := hx
    exact elementArm_skipped hlo hhi

/-- The block past an element, with the checkpoint at the cursor and the context the element leaves (R231, R236). -/
def State.pastElement (s : State) (x : Element) : State :=
  ((s.advance x.bits.length).withCtx (x.context s.ctx)).markHere

/-- The dispatch step at a checkpoint takes the element ahead and moves the checkpoint past it (R231). -/
theorem elementStepBody_element {x : Element} (hd : s.dstate ≠ .ended) (hmark : s.curMark = s.curPos)
    (hx : x.Ok s s.curPos) (ha : Ahead s x.bits) :
    elementStepBody s = .ok x.result (s.pastElement x) := by
  obtain ⟨hid, hbody⟩ := ahead_append ha
  have hrec := record_advance (Nat.le_of_eq hmark) hid
  rw [record_of_checkpoint hmark, List.nil_append] at hrec
  rw [natToBits_length] at hbody hrec
  have harm := elementArm_element (s := s.advance 3) (pos := s.curPos) hx rfl
    (Nat.le_trans (Nat.le_of_eq hmark) (Nat.le_add_right _ _)) hrec hbody
  rw [elementStepBody_id hd (curPos_ne_curLen_of_ahead hid (by simp)) (element_id_lt hx) hid, harm,
    State.advance_advance, State.pastElement, Element.bits, List.length_append, natToBits_length]
  rfl

/-- Settles O52: at a checkpoint the record starts with the element's id, and its body completes it. -/
theorem elementStepReturnsTheElement : Obligations.ElementStepReturnsTheElement := by
  intro s x he hd hmark hx ha
  exact exec_of_value rfl rfl he (walk_bind_ok (elementStepBody_element hd hmark hx ha))

/-! ## The ends of the loop -/

/-- Once ENDED the dispatch step does nothing (R234). -/
theorem elementStepBody_done (hd : s.dstate = .ended) : elementStepBody s = .ok .done s := by
  rw [elementStepBody, walk_bind_ok (walk_getState s), if_pos hd, walk_pure]

/-- With no bit left the loop ends (R231, R232). -/
theorem elementStepBody_exhausted (hd : s.dstate ≠ .ended) (hend : s.curPos = s.curLen) :
    elementStepBody s = .ok .exhausted (s.withDState .ended) := by
  rw [elementStepBody, walk_bind_ok (walk_getState s), if_neg hd, if_pos hend, walk_bind_ok (walk_setDState _ s),
    walk_pure]

/-- With fewer bits left than an id has, the read of the id raises (R232). -/
theorem elementStepBody_short (hd : s.dstate ≠ .ended) (hmore : s.curPos ≠ s.curLen) (hshort : s.unread < 3) :
    elementStepBody s = .error .read s := by
  rw [elementStepBody, walk_bind_ok (walk_getState s), if_neg hd, if_neg hmore, walk_bind_error (readBits_short hshort)]

/-- END takes the record, its id included, and ends the loop (R231). -/
theorem elementStepBody_end (hd : s.dstate ≠ .ended) (hmark : s.curMark ≤ s.curPos)
    (ha : Ahead s [true, true, true]) :
    elementStepBody s = .ok (.endElement (bitSeq (s.record ++ [true, true, true])))
      ((s.advance 3).markHere.withDState .ended) := by
  rw [elementStepBody_id (id := 7) hd (curPos_ne_curLen_of_ahead ha (by decide)) (by decide) ha,
    ← record_advance hmark ha]
  rfl

/-- Settles O53: the four ends of a dispatch step. -/
theorem elementStepEndsTheLoop : Obligations.ElementStepEndsTheLoop := by
  intro s he
  refine ⟨fun hd => ?_, fun hd hend => ?_, fun hd hlt hshort => ?_, fun hd hmark ha => ?_⟩
  · exact exec_of_value rfl rfl he (walk_bind_ok (elementStepBody_done hd))
  · exact exec_of_value rfl rfl he (walk_bind_ok (elementStepBody_exhausted hd hend))
  · have hunread : s.unread < 3 := by unfold State.unread; omega
    exact exec_of_raise rfl rfl he (walk_bind_error (elementStepBody_short hd (Nat.ne_of_lt hlt) hunread))
  · exact exec_of_value rfl rfl he (walk_bind_ok (elementStepBody_end hd hmark ha))

end Sys2Proof.Machine
end

section
/-! PROOFS. RUN_FRAME: the results it lists, and the bits they account for (R237, R238). -/

namespace Sys2Proof.Machine

open Sys2Proof.Grammar

variable {s t : State}

/-! ## A pass of the loop -/

/-- The list of results once a step's result has been seen (R237). -/
def listResult (l : List StepResult) (r : StepResult) : List StepResult := if isListed r then l ++ [r] else l

/-- A pass whose result does not end the loop. -/
theorem framePass_again {l : List StepResult} {r : StepResult} (h : elementStepBody s = .ok r t)
    (hr : endsLoop r = false) : framePass l s = .ok (.inl (listResult l r)) t := by
  rw [framePass, walk_bind_ok h, hr]; rfl

/-- A pass whose result ends the loop. -/
theorem framePass_ends {l : List StepResult} {r : StepResult} (h : elementStepBody s = .ok r t)
    (hr : endsLoop r = true) : framePass l s = .ok (.inr (listResult l r, stepKind r)) t := by
  rw [framePass, walk_bind_ok h, hr]; rfl

/-- An element's result is listed and lets the loop go on (R235, R237). -/
theorem element_result_goes_on (x : Element) (l : List StepResult) :
    endsLoop x.result = false ∧ listResult l x.result = l ++ [x.result] := by
  cases x with
  | sce tag ics => exact ⟨rfl, rfl⟩
  | pce x => exact ⟨rfl, rfl⟩
  | fil x => exact ⟨rfl, rfl⟩
  | skipped id => exact ⟨rfl, rfl⟩

/-! ## Elements and END -/

/-- The loop over elements and END, from a checkpoint on; `l` is what has been listed before (R231, R237). -/
theorem framePasses_elements : ∀ (xs : List Element) (l : List StepResult) (s : State), s.dstate ≠ .ended →
    s.curMark = s.curPos → elementsOk s s.curPos xs → Ahead s (elementsBits xs ++ [true, true, true]) →
    whileBits framePass l s =
      .ok (l ++ (xs.map Element.result ++ [.endElement (bitSeq [true, true, true])]), .endId)
        (((s.advance ((elementsBits xs).length + 3)).withCtx (elementsContext xs s.ctx)).markHere.withDState .ended)
  | [], l, s, hd, hmark, _, ha => by
    have last := elementStepBody_end hd (Nat.le_of_eq hmark) ha
    rw [record_of_checkpoint hmark, List.nil_append] at last
    exact whileBits_done (framePass_ends last rfl)
  | x :: rest, l, s, hd, hmark, ⟨hx, hrest⟩, ha => by
    rw [elementsBits, List.flatMap_cons, List.append_assoc] at ha
    obtain ⟨hahead, hmore⟩ := ahead_append ha
    obtain ⟨hgo, hlist⟩ := element_result_goes_on x l
    have pass := framePass_again (l := l) (elementStepBody_element hd hmark hx hahead) hgo
    rw [hlist] at pass
    have hok : elementsOk (s.pastElement x) (s.pastElement x).curPos rest :=
      elementsOk_of_hrom (s := s) (t := s.pastElement x) rfl hrest
    have tail := framePasses_elements rest (l ++ [x.result]) (s.pastElement x) hd rfl hok hmore
    rw [whileBits_again framePass_consumes pass, tail]
    simp [State.pastElement, elementsBits, elementsContext, State.advance, State.withCtx, State.markHere,
      State.withDState, Nat.add_assoc]

/-- Settles O54: each element takes a pass of the loop, and END the last one. -/
theorem runFrameReturnsEveryElement : Obligations.RunFrameReturnsEveryElement := by
  intro s xs he hd hmark hok ha
  exact exec_of_value rfl rfl he (walk_bind_ok (framePasses_elements xs [] s hd hmark hok ha))

/-! ## The bits accounted for -/

theorem accountedBits_append (l m : List StepResult) : accountedBits (l ++ m) = accountedBits l + accountedBits m := by
  rw [accountedBits, List.map_append, List.sum_append]; rfl

/-- A result that is not listed accounts for no bit (R237, R238). -/
theorem accountedBits_listResult (l : List StepResult) (r : StepResult) :
    accountedBits (listResult l r) = accountedBits l + accountedBits [r] := by
  cases r with
  | done => rfl
  | exhausted => rfl
  | element id rec => exact accountedBits_append l _
  | endElement rec => exact accountedBits_append l _
  | skipped id => exact accountedBits_append l _

/-- The checkpoint stays and the cursor does not move back. -/
def markStays (s t : State) : Prop := t.curMark = s.curMark ∧ s.curPos ≤ t.curPos

theorem markStays_steps : StepsCtx markStays where
  trans _ _ _ h1 h2 := ⟨h2.1.trans h1.1, Nat.le_trans h1.2 h2.2⟩
  advance _ _ _ := ⟨rfl, Nat.le_add_right _ _⟩
  ctx _ _ := ⟨rfl, Nat.le_refl _⟩

/-- From the checkpoint `mark` a step with result `r` has led to `t`: the result accounts for the bits since the
checkpoint, which is at the cursor again, and a result that ends the loop has left DSTATE at ENDED (R233, R238). -/
def Accounts (mark : Nat) (r : StepResult) (t : State) : Prop :=
  t.curPos = mark + accountedBits [r] ∧ t.curMark = t.curPos ∧ (endsLoop r = true → t.dstate = .ended)

theorem Accounts.ended {mark : Nat} {r : StepResult} (h : Accounts mark r t) (hend : endsLoop r = true) :
    t.dstate = .ended := h.2.2 hend

/-- A record has as many bits as the cursor has moved since the checkpoint (R107). -/
theorem recordElement_accounts {α : Type} {body : Walk α} {id : Nat} {r : StepResult} (hb : Keeps markStays body)
    (hmark : s.curMark ≤ s.curPos) (h : recordElement id body s = .ok r t) : Accounts s.curMark r t := by
  obtain ⟨_, u, hu, htake⟩ := walk_bind_eq_ok.mp h
  obtain ⟨hmarked, hpos⟩ := (hb s).1 _ u hu
  cases htake
  refine ⟨?_, rfl, fun hend => nomatch hend⟩
  simp only [accountedBits, List.map_cons, List.map_nil, List.sum_cons, List.sum_nil, bitSeq_record,
    State.markHere_curPos]
  omega

/-- Every arm of the dispatch loop, with a 3-bit id as the record so far. -/
theorem elementArm_accounts {e : ElementId} {r : StepResult} (hid : s.curPos = s.curMark + 3)
    (h : elementArm e s = .ok r t) : Accounts s.curMark r t := by
  have hmark : s.curMark ≤ s.curPos := by omega
  have skipped {id : Nat} (h : skipElement id s = .ok r t) : Accounts s.curMark r t := by
    cases h
    exact ⟨hid, rfl, fun hend => nomatch hend⟩
  have reads {α : Type} {body : Walk α} (hb : ReadsForward body) : Keeps markStays body :=
    .readsForward markStays_steps.toSteps hb
  cases e with
  | sce => exact recordElement_accounts (sceBody_keeps markStays_steps) hmark h
  | pce => exact recordElement_accounts (reads pceBody_readsForward) hmark h
  | fil => exact recordElement_accounts (reads filBody_readsForward) hmark h
  | cpe => exact skipped h
  | cce => exact skipped h
  | lfe => exact skipped h
  | dse => exact skipped h
  | endId =>
    cases h
    refine ⟨?_, rfl, fun _ => rfl⟩
    simp only [accountedBits, List.map_cons, List.map_nil, List.sum_cons, List.sum_nil, bitSeq_record,
      State.withDState_curPos, State.markHere_curPos]
    omega

/-- Every dispatch step from a checkpoint (R233, R234). -/
theorem elementStepBody_accounts {r : StepResult} (hmark : s.curMark = s.curPos) (h : elementStepBody s = .ok r t) :
    Accounts s.curPos r t := by
  by_cases hd : s.dstate = .ended
  · rw [elementStepBody_done hd] at h
    cases h
    exact ⟨rfl, hmark, fun _ => hd⟩
  · by_cases hend : s.curPos = s.curLen
    · rw [elementStepBody_exhausted hd hend] at h
      cases h
      exact ⟨rfl, hmark, fun _ => rfl⟩
    · rw [elementStepBody, walk_bind_ok (walk_getState s), if_neg hd, if_neg hend] at h
      obtain ⟨_, u, hid, harm⟩ := walk_bind_eq_ok.mp h
      obtain ⟨-, rfl, -⟩ := readBits_unread hid
      rw [← hmark]
      exact elementArm_accounts (s := s.advance 3) (by rw [State.advance_curPos, State.advance_curMark, hmark]) harm

/-- What each pass of a loop keeps holds where the loop goes on, so what its last pass brings about holds at its end. -/
theorem loopFuel_ends {α β : Type} {I : α → State → Prop} {Q : β → State → Prop} {body : α → Walk (α ⊕ β)}
    (again : ∀ a a' s t, I a s → body a s = .ok (.inl a') t → I a' t)
    (ends : ∀ a b s t, I a s → body a s = .ok (.inr b) t → Q b t) :
    ∀ (fuel : Nat) {a : α} {b : β} {s t : State}, I a s → loopFuel body fuel a s = .ok b t → Q b t
  | 0, _, _, _, _, _, h => nomatch h
  | fuel + 1, a, b, s, t, hI, h => by
    obtain ⟨r, u, hbody, hrest⟩ := walk_bind_eq_ok.mp h
    cases r with
    | inl a' => exact loopFuel_ends again ends fuel (again a a' s u hI hbody) hrest
    | inr b' => cases hrest; exact ends a b s t hI hbody

/-- What a pass of RUN_FRAME's loop can end in: its step's result, listed, with the loop going on or not (R237). -/
theorem framePass_cases {l : List StepResult} {x : List StepResult ⊕ List StepResult × LoopKind}
    (h : framePass l s = .ok x t) : ∃ r, elementStepBody s = .ok r t ∧
      ((endsLoop r = false ∧ x = .inl (listResult l r)) ∨
        (endsLoop r = true ∧ x = .inr (listResult l r, stepKind r))) := by
  obtain ⟨r, u, hstep, hp⟩ := walk_bind_eq_ok.mp h
  cases hr : endsLoop r with
  | false =>
    rw [framePass_again hstep hr] at h
    cases h
    exact ⟨r, hstep, .inl ⟨hr, rfl⟩⟩
  | true =>
    rw [framePass_ends hstep hr] at h
    cases h
    exact ⟨r, hstep, .inr ⟨hr, rfl⟩⟩

/-- From position `start` the listed results have led to the cursor, where the checkpoint is (R238). -/
def AccountedFrom (start : Nat) (l : List StepResult) (t : State) : Prop :=
  t.curPos = start + accountedBits l ∧ t.curMark = t.curPos

theorem AccountedFrom.checkpoint {start : Nat} {l : List StepResult} (h : AccountedFrom start l t) :
    t.curMark = t.curPos := h.2

theorem AccountedFrom.listResult {start : Nat} {l : List StepResult} {r : StepResult} (hl : AccountedFrom start l s)
    (hr : Accounts s.curPos r t) : AccountedFrom start (listResult l r) t := by
  obtain ⟨hpos, -⟩ := hl
  obtain ⟨hpos', hmark', -⟩ := hr
  exact ⟨by rw [accountedBits_listResult, ← Nat.add_assoc, ← hpos, hpos'], hmark'⟩

/-- The results of a whole run from a checkpoint, and the loop's end (R237, R238). -/
theorem runFrameBody_accounts {l : List StepResult} {kind : LoopKind} (hmark : s.curMark = s.curPos)
    (h : runFrameBody s = .ok (l, kind) t) : AccountedFrom s.curPos l t ∧ t.dstate = .ended := by
  refine loopFuel_ends (I := AccountedFrom s.curPos) (Q := fun b t => AccountedFrom s.curPos b.1 t ∧ t.dstate = .ended)
    (fun l l' u v hl hpass => ?_) (fun l b u v hl hpass => ?_) _ ⟨rfl, hmark⟩ h
  · obtain ⟨r, hstep, ⟨-, hx⟩ | ⟨-, hx⟩⟩ := framePass_cases hpass
    · cases hx
      exact hl.listResult (elementStepBody_accounts hl.checkpoint hstep)
    · cases hx
  · obtain ⟨r, hstep, ⟨-, hx⟩ | ⟨hend, hx⟩⟩ := framePass_cases hpass
    · cases hx
    · cases hx
      have step := elementStepBody_accounts hl.checkpoint hstep
      exact ⟨hl.listResult step, step.ended hend⟩

/-- A command that no error blocks has answered with a value: its walk ended in it. -/
theorem commandWalk_of_response {i : Instr} {v : Value} (hr : refusable i = true) (hw : i.wf = true) (he : s.err = 0)
    (h : exec i s = .next t) (hv : t.responses = s.responses ++ [.ok v]) :
    ∃ u, commandWalk i s = .ok v u ∧ t = u.respond (.ok v) := by
  have same := commandWalk_keeps sameBlock_steps i s
  rw [exec_refusable hr, hw, stateful_run he] at h
  cases hm : commandWalk i s with
  | ok w u =>
    rw [runWalk_ok hm] at h
    cases h
    have hu : u.responses = s.responses := by rw [same.1 w u hm]
    rw [State.respond_responses, hu, List.append_cancel_left_eq] at hv
    cases hv
    exact ⟨u, rfl, rfl⟩
  | error c u =>
    rw [runWalk_error hm] at h
    cases h
    have hu : u.responses = s.responses := by rw [same.2 c u hm]
    rw [State.takeError_responses, hu, List.append_cancel_left_eq] at hv
    cases hv

/-- Settles O55: every pass accounts for the bits it takes, and the last one leaves DSTATE at ENDED. -/
theorem runFrameAccountsForEveryBit : Obligations.RunFrameAccountsForEveryBit := by
  intro s t l kind he hmark h hv
  obtain ⟨u, hwalk, rfl⟩ := commandWalk_of_response rfl rfl he h hv
  obtain ⟨⟨l', kind'⟩, w, hrun, hanswer⟩ := walk_bind_eq_ok.mp hwalk
  cases hanswer
  obtain ⟨⟨hpos, hmarked⟩, hended⟩ := runFrameBody_accounts hmark hrun
  exact ⟨hpos, hmarked, hended⟩

end Sys2Proof.Machine
end

section
/-! SUPPORT. The numbers that parts of a bit sequence and the bits of a byte sequence spell. -/

namespace Sys2Proof.Machine

theorem toNat_append_add {n m : Nat} (x : BitVec n) (y : BitVec m) :
    (x ++ y).toNat = x.toNat * 2 ^ m + y.toNat := by
  rw [BitVec.toNat_append, ← Nat.shiftLeft_add_eq_or_of_lt y.isLt, Nat.shiftLeft_eq]

theorem bitsToNat_split (bits : Bits) (k : Nat) :
    bitsToNat bits = bitsToNat (bits.take k) * 2 ^ (bits.length - k) + bitsToNat (bits.drop k) := by
  rw [← List.length_drop, ← bitsToNat_append, List.take_append_drop]

theorem bitsToNat_drop_lt (bits : Bits) (k : Nat) : bitsToNat (bits.drop k) < 2 ^ (bits.length - k) := by
  rw [← List.length_drop]
  exact bitsToNat_lt _

theorem bitsToNat_take (bits : Bits) (k : Nat) : bitsToNat (bits.take k) = bitsToNat bits / 2 ^ (bits.length - k) := by
  rw [bitsToNat_split bits k, Nat.mul_comm, Nat.mul_add_div (Nat.two_pow_pos _),
    Nat.div_eq_of_lt (bitsToNat_drop_lt bits k), Nat.add_zero]

theorem bitsToNat_drop (bits : Bits) (k : Nat) : bitsToNat (bits.drop k) = bitsToNat bits % 2 ^ (bits.length - k) := by
  rw [bitsToNat_split bits k, Nat.mul_add_mod_of_lt (bitsToNat_drop_lt bits k)]

/-- The bits `[first, first + width)` of a sequence spell a slice of its number. -/
theorem bitsToNat_slice (bits : Bits) {first width : Nat} (h : first + width ≤ bits.length) :
    bitsToNat ((bits.drop first).take width) = bitsToNat bits / 2 ^ (bits.length - first - width) % 2 ^ width := by
  have above : bits.length - first = bits.length - first - width + width := by omega
  rw [bitsToNat_take, bitsToNat_drop, List.length_drop, above, Nat.pow_add, Nat.add_sub_cancel,
    Nat.mod_mul_right_div_self]

theorem bytesToBits_cons (b : Byte) (rest : List Byte) :
    bytesToBits (b :: rest) = natToBits 8 b.toNat ++ bytesToBits rest := rfl

@[simp] theorem bytesToBits_length (bytes : List Byte) : (bytesToBits bytes).length = 8 * bytes.length := by
  induction bytes with
  | nil => rfl
  | cons b rest ih => rw [bytesToBits_cons, List.length_append, natToBits_length, ih, List.length_cons]; omega

theorem bitsToNat_bytesToBits_cons (b : Byte) (rest : List Byte) :
    bitsToNat (bytesToBits (b :: rest)) = b.toNat * 2 ^ (8 * rest.length) + bitsToNat (bytesToBits rest) := by
  rw [bytesToBits_cons, bitsToNat_append, bitsToNat_natToBits_of_lt b.isLt, bytesToBits_length]

end Sys2Proof.Machine
end

section
/-! SUPPORT. The ADTS header: its fields are slices of its 56 bits, which its bytes and the packed record both spell
(R260). -/

namespace Sys2Proof.Machine

/-! ## The fields of a header word -/

theorem headerField_eq_slice (w : BitVec 56) (first width : Nat) :
    headerField w first width = w.toNat / 2 ^ (56 - first - width) % 2 ^ width := by
  rw [headerField, BitVec.extractLsb'_toNat, Nat.shiftRight_eq_div_pow]

theorem extractLsb'_toNat_eq_headerField (w : BitVec 56) {start width : Nat} (h : start + width ≤ 56) :
    (w.extractLsb' start width).toNat = headerField w (56 - start - width) width := by
  rw [headerField, show 56 - (56 - start - width) - width = start by omega]

theorem headerField_lt (w : BitVec 56) (first width : Nat) : headerField w first width < 2 ^ width := BitVec.isLt _

theorem headerField_all (w : BitVec 56) : headerField w 0 56 = w.toNat := by
  rw [headerField, BitVec.extractLsb'_eq_self]

/-- Two fields side by side are one field. -/
theorem headerField_join (w : BitVec 56) {first a next b : Nat} (hnext : next = first + a) (h : next + b ≤ 56) :
    headerField w first a * 2 ^ b + headerField w next b = headerField w first (a + b) := by
  have left : 56 - first - a = 56 - next - b + b := by omega
  have both : 56 - first - (a + b) = 56 - next - b := by omega
  rw [headerField_eq_slice, headerField_eq_slice, headerField_eq_slice, left, both, Nat.pow_add,
    ← Nat.div_div_eq_div_mul, Nat.add_comm a b, Nat.pow_add, Nat.mod_mul]
  ring

theorem headerFits_iff (h : AdtsHeader) : headerFits h = true ↔
    h.syncword < 2 ^ 12 ∧ h.mpegVersion < 2 ^ 1 ∧ h.layer < 2 ^ 2 ∧ h.protectionAbsent < 2 ^ 1 ∧ h.profile < 2 ^ 2 ∧
    h.samplingFrequencyIndex < 2 ^ 4 ∧ h.privateBit < 2 ^ 1 ∧ h.channelConfiguration < 2 ^ 3 ∧
    h.originality < 2 ^ 1 ∧ h.home < 2 ^ 1 ∧ h.copyrightIdBit < 2 ^ 1 ∧ h.copyrightIdStart < 2 ^ 1 ∧
    h.frameLength < 2 ^ 13 ∧ h.bufferFullness < 2 ^ 11 ∧ h.frames < 2 ^ 2 := by
  simp only [headerFits, Bool.and_eq_true, decide_eq_true_eq, and_assoc]

theorem headerFits_parseHeader (w : BitVec 56) : headerFits (parseHeader w) = true := by
  simp only [headerFits_iff, parseHeader, headerField_lt, and_self]

/-- Packing puts the parsed fields back together, each beside the one before. -/
theorem packHeader_parseHeader (w : BitVec 56) : packHeader (parseHeader w) = w := by
  apply BitVec.eq_of_toNat_eq
  simp only [packHeader, parseHeader, toNat_append_add, BitVec.toNat_ofNat, Nat.mod_eq_of_lt (headerField_lt _ _ _),
    -Nat.reducePow]
  simp (disch := omega) only [headerField_join, Nat.reduceAdd, headerField_all, -Nat.reducePow]

/-- Parsing cuts each field out of the packed record where packing has put it. -/
theorem parseHeader_packHeader {h : AdtsHeader} (fits : headerFits h = true) : parseHeader (packHeader h) = h := by
  cases h
  simp only [headerFits_iff] at fits
  simp (disch := omega) only [parseHeader, headerField, packHeader, BitVec.extractLsb'_append_eq_of_le,
    BitVec.extractLsb'_append_eq_right, BitVec.extractLsb'_eq_self, Nat.reduceSub, BitVec.toNat_ofNat,
    Nat.mod_eq_of_lt]

/-! ## The bytes of a header word -/

theorem headerWord_toNat {bytes : List Byte} (h : 7 ≤ bytes.length) :
    (headerWord bytes).toNat = bitsToNat (bytesToBits (bytes.take 7)) := by
  match bytes, h with
  | b0 :: b1 :: b2 :: b3 :: b4 :: b5 :: b6 :: rest, _ =>
    rw [show (b0 :: b1 :: b2 :: b3 :: b4 :: b5 :: b6 :: rest).take 7 = [b0, b1, b2, b3, b4, b5, b6] from rfl]
    simp only [headerWord, List.getD_cons_zero, List.getD_cons_succ, toNat_append_add, bitsToNat_bytesToBits_cons,
      List.length_cons, List.length_nil, show bytesToBits [] = [] from rfl, bitsToNat_nil]
    ring

/-- A field of the header of a byte sequence, as the bits of the first seven bytes spell it. -/
theorem headerField_headerWord {bytes : List Byte} (h : 7 ≤ bytes.length) {first width : Nat}
    (inside : first + width ≤ 56) :
    headerField (headerWord bytes) first width =
      bitsToNat (((bytesToBits (bytes.take 7)).drop first).take width) := by
  have hlen : (bytesToBits (bytes.take 7)).length = 56 := by
    rw [bytesToBits_length, List.length_take, Nat.min_eq_left h]
  rw [bitsToNat_slice _ (by rwa [hlen]), hlen, headerField_eq_slice, headerWord_toNat h]

theorem headerToBytes_headerWord (b0 b1 b2 b3 b4 b5 b6 : Byte) :
    headerToBytes (headerWord [b0, b1, b2, b3, b4, b5, b6]) = [b0, b1, b2, b3, b4, b5, b6] := by
  simp (disch := omega) only [headerToBytes, headerWord, List.getD_cons_zero, List.getD_cons_succ,
    BitVec.extractLsb'_append_eq_of_le, BitVec.extractLsb'_append_eq_right, BitVec.extractLsb'_eq_self, Nat.reduceSub]

/-- The bytes of a header word are fields side by side, so joined they are the word. -/
theorem headerWord_headerToBytes (w : BitVec 56) : headerWord (headerToBytes w) = w := by
  apply BitVec.eq_of_toNat_eq
  simp (disch := omega) only [headerWord, headerToBytes, List.getD_cons_zero, List.getD_cons_succ, toNat_append_add,
    extractLsb'_toNat_eq_headerField, -Nat.reducePow]
  simp (disch := omega) only [headerField_join, Nat.reduceAdd, Nat.reduceSub, headerField_all, -Nat.reducePow]

/-- The values of the seven bytes of a packed record (R260). -/
def headerByteValues (h : AdtsHeader) : List Nat :=
  [h.syncword / 16,
    h.syncword % 16 * 16 + h.mpegVersion * 8 + h.layer * 2 + h.protectionAbsent,
    h.profile * 64 + h.samplingFrequencyIndex * 4 + h.privateBit * 2 + h.channelConfiguration / 4,
    h.channelConfiguration % 4 * 64 + h.originality * 32 + h.home * 16 + h.copyrightIdBit * 8 +
      h.copyrightIdStart * 4 + h.frameLength / 2048,
    h.frameLength / 8 % 256,
    h.frameLength % 8 * 32 + h.bufferFullness / 64,
    h.bufferFullness % 64 * 4 + h.frames]

theorem headerByteValues_lt {h : AdtsHeader} (fits : headerFits h = true) :
    ∀ v ∈ headerByteValues h, v < 2 ^ 8 := by
  have bounds := (headerFits_iff h).mp fits
  simp only [headerByteValues, List.forall_mem_cons, List.not_mem_nil, false_implies, implies_true, and_true]
  omega

/-- The seven values spell the packed record, so they are its bytes. -/
theorem headerToBytes_packHeader {h : AdtsHeader} (fits : headerFits h = true) :
    headerToBytes (packHeader h) = (headerByteValues h).map (BitVec.ofNat 8) := by
  have spelled : packHeader h = headerWord ((headerByteValues h).map (BitVec.ofNat 8)) := by
    have bounds := (headerFits_iff h).mp fits
    apply BitVec.eq_of_toNat_eq
    simp (disch := omega) only [packHeader, headerWord, headerByteValues, List.map_cons, List.getD_cons_zero,
      List.getD_cons_succ, toNat_append_add, BitVec.toNat_ofNat, Nat.mod_eq_of_lt]
    omega
  rw [spelled]
  exact headerToBytes_headerWord _ _ _ _ _ _ _

theorem headerToBytes_packHeader_toNat {h : AdtsHeader} (fits : headerFits h = true) :
    (headerToBytes (packHeader h)).map BitVec.toNat = headerByteValues h := by
  have same (v : Nat) (hv : v ∈ headerByteValues h) : (BitVec.ofNat 8 v).toNat = v :=
    (BitVec.toNat_ofNat v 8).trans (Nat.mod_eq_of_lt (headerByteValues_lt fits v hv))
  rw [headerToBytes_packHeader fits, List.map_map]
  exact (List.map_congr_left same).trans (List.map_id _)

end Sys2Proof.Machine
end

section
/-! SUPPORT. What the two ADTS commands answer, and the statements about them. -/

namespace Sys2Proof.Machine

@[simp] theorem pureCommand_ok (v : Value) (s : State) : pureCommand true (.ok v) s = s.respond (.ok v) := rfl

@[simp] theorem pureCommand_error (c : Cause) (s : State) :
    pureCommand true (.error c) s = s.respond (.error c 0) := rfl

theorem exec_adtsParse (s : State) : exec .adtsParse s = .next (pureCommand true (adtsParse s.dataIn.bytes) s) := rfl

theorem exec_adtsGenerate (s : State) :
    exec .adtsGenerate s = .next (pureCommand true (adtsGenerate s.dataIn.header) s) := rfl

theorem adtsParse_of_short {bytes : List Byte} (h : bytes.length < 7) : adtsParse bytes = .error .read := if_pos h

theorem adtsParse_of_enough {bytes : List Byte} (h : 7 ≤ bytes.length) :
    adtsParse bytes = .ok (.header (parseHeader (headerWord bytes))
      (headerBytes Config.rdbSkipRule (parseHeader (headerWord bytes)))) := if_neg (Nat.not_lt.mpr h)

theorem adtsGenerate_of_fits {h : AdtsHeader} (fits : headerFits h = true) :
    adtsGenerate h = .ok (.bytes (headerToBytes (packHeader h))) := if_pos fits

theorem adtsGenerate_of_not_fits {h : AdtsHeader} (fits : headerFits h = false) :
    adtsGenerate h = .error .fieldRange := if_neg (Bool.eq_false_iff.mp fits)

/-- The payload offset under the default rule (R266). -/
theorem headerBytes_default (h : AdtsHeader) :
    headerBytes Config.rdbSkipRule h = 7 + (if h.protectionAbsent = 0 then 2 + 2 * h.frames else 0) := rfl

theorem headerBytes_default_le {h : AdtsHeader} (fits : headerFits h = true) :
    headerBytes Config.rdbSkipRule h ≤ 17 := by
  have bounds := (headerFits_iff h).mp fits
  rw [headerBytes_default]
  split <;> omega

/-- Where each field stands in the 56 header bits: its first bit and its width, in header order (R260). -/
def headerLayout : List (Nat × Nat) :=
  [(0, 12), (12, 1), (13, 2), (15, 1), (16, 2), (18, 4), (22, 1), (23, 3), (26, 1), (27, 1), (28, 1), (29, 1), (30, 13),
    (43, 11), (54, 2)]

theorem headerLayout_inside : ∀ p ∈ headerLayout, p.1 + p.2 ≤ 56 := by decide

/-- Settles O56: the listed places are those of the layout, and each field is the slice of the header bits there. -/
theorem adtsParseExtractsTheFields : Obligations.AdtsParseExtractsTheFields := by
  intro s
  refine ⟨fun hshort => ?_, fun henough => ?_⟩
  · rw [exec_adtsParse, adtsParse_of_short hshort, pureCommand_error]
  · refine ⟨_, _, by rw [exec_adtsParse, adtsParse_of_enough henough, pureCommand_ok], ?_, headerBytes_default _,
      Nat.le_add_right _ _, headerBytes_default_le (headerFits_parseHeader _)⟩
    intro first width value hmem
    change _ ∈ headerLayout.map fun p => (p.1, p.2, headerField (headerWord s.dataIn.bytes) p.1 p.2) at hmem
    obtain ⟨p, hp, hentry⟩ := List.mem_map.mp hmem
    cases hentry
    exact headerField_headerWord henough (headerLayout_inside p hp)

/-- Settles O57: the bytes of a packed record are its seven byte values, which the statement lists. -/
theorem adtsGeneratePacksTheFields : Obligations.AdtsGeneratePacksTheFields := by
  rintro s h rfl
  refine ⟨fun hnot => ?_, fun fits => ?_⟩
  · rw [exec_adtsGenerate, adtsGenerate_of_not_fits hnot, pureCommand_error]
  · have answer : exec .adtsGenerate s =
        .next (s.respond (.ok (.bytes (headerToBytes (packHeader s.dataIn.header))))) := by
      rw [exec_adtsGenerate, adtsGenerate_of_fits fits, pureCommand_ok]
    refine ⟨_, _, _, _, _, _, _, answer, ?_⟩
    simpa only [headerToBytes, headerByteValues, List.map_cons, List.map_nil, List.cons.injEq, and_true]
      using headerToBytes_packHeader_toNat fits

/-- Settles O58: packing inverts parsing on every header word, and parsing packing on every record that fits; a word
and its bytes determine each other. -/
theorem adtsCommandsAreInverse : Obligations.AdtsCommandsAreInverse := by
  refine ⟨fun b0 b1 b2 b3 b4 b5 b6 => ⟨_, _, adtsParse_of_enough (Nat.le_refl 7), ?_⟩, fun h fits =>
    ⟨_, _, adtsGenerate_of_fits fits, ?_, rfl⟩⟩
  · rw [adtsGenerate_of_fits (headerFits_parseHeader _), packHeader_parseHeader, headerToBytes_headerWord]
  · have enough : 7 ≤ (headerToBytes (packHeader h)).length := Nat.le_refl 7
    rw [adtsParse_of_enough enough, headerWord_headerToBytes, parseHeader_packHeader fits]

end Sys2Proof.Machine
end

section
/-! SUPPORT. The laws of the host's programs: sequencing, and what a command the host issues comes back with (R280,
R288). -/

namespace Sys2Proof.Machine

/-! ## Sequencing -/

section sequencing
variable {α β : Type}

theorem hostWalk_bind_ok {m : HostWalk α} {f : α → HostWalk β} {s t : State} {a : α} (h : m s = .ok a t) :
    (m >>= f) s = f a t := by
  simp only [bind, EStateM.bind, h]

theorem hostWalk_bind_error {m : HostWalk α} {f : α → HostWalk β} {s t : State} {e : HostFailure}
    (h : m s = .error e t) : (m >>= f) s = .error e t := by
  simp only [bind, EStateM.bind, h]

/-- An operation that succeeds has not failed anywhere on its way (R288). -/
theorem hostWalk_bind_eq_ok {m : HostWalk α} {f : α → HostWalk β} {s u : State} {b : β} :
    (m >>= f) s = .ok b u ↔ ∃ a t, m s = .ok a t ∧ f a t = .ok b u := by
  cases h : m s with
  | ok a t => simp [hostWalk_bind_ok h]
  | error e t => simp [hostWalk_bind_error h]

@[simp] theorem hostWalk_pure (a : α) (s : State) : (pure a : HostWalk α) s = .ok a s := rfl

theorem hostWalk_pure_eq_ok {a b : α} {s t : State} : (pure a : HostWalk α) s = .ok b t ↔ a = b ∧ s = t := by
  rw [hostWalk_pure, EStateM.Result.ok.injEq]

end sequencing

/-! ## A command issued -/

section issue
variable {word : Word} {data : DataIn} {i : Instr} {s u : State}

/-- A command the host issues runs on the state that has taken it (R40). -/
theorem step_of_issued (hd : decode word = .ok i) :
    step { s with inputs := .command ⟨word, data⟩ :: s.inputs } = exec i (s.accept data s.inputs) :=
  step_of_decoded (s := { s with inputs := .command ⟨word, data⟩ :: s.inputs }) rfl hd

/-- A result put last on the response channel is what the host takes. -/
theorem issue_of_ok {v : Value} (hd : decode word = .ok i)
    (h : exec i (s.accept data s.inputs) = .next (u.respond (.ok v))) : ∃ t, issue word data s = .ok v t := by
  refine ⟨u.respond (.ok v), ?_⟩
  simp only [issue, step_of_issued hd, h, State.respond_responses, List.getLast?_concat]

/-- An error put last on the response channel is the host's failure (R288). -/
theorem issue_of_error {c : Cause} {pos : Nat} (hd : decode word = .ok i)
    (h : exec i (s.accept data s.inputs) = .next (u.respond (.error c pos))) :
    ∃ t, issue word data s = .error (.block c pos) t := by
  refine ⟨u.respond (.error c pos), ?_⟩
  simp only [issue, step_of_issued hd, h, State.respond_responses, List.getLast?_concat]

end issue

theorem decode_adtsParse : decode (commandWord 0x40 0 0) = .ok .adtsParse := by decide
theorem decode_adtsGenerate : decode (commandWord 0x41 0 0) = .ok .adtsGenerate := by decide

/-- An access unit that holds a header is parsed whatever state the block is in, for ADTS_PARSE is pure (R281, R302). -/
theorem hostParse_of_enough {au : List Byte} (h : 7 ≤ au.length) (s : State) :
    ∃ t, hostParse au s = .ok (parseHeader (headerWord au),
      headerBytes Config.rdbSkipRule (parseHeader (headerWord au))) t := by
  obtain ⟨t, ht⟩ := issue_of_ok (s := s) (data := ⟨au, emptyHeader⟩) decode_adtsParse
    (by rw [exec_adtsParse, State.accept_dataIn, adtsParse_of_enough h, pureCommand_ok])
  exact ⟨t, hostWalk_bind_ok ht⟩

theorem hostParse_of_short {au : List Byte} (h : au.length < 7) (s : State) :
    ∃ t, hostParse au s = .error (.block .read 0) t := by
  obtain ⟨t, ht⟩ := issue_of_error (s := s) (data := ⟨au, emptyHeader⟩) decode_adtsParse
    (by rw [exec_adtsParse, State.accept_dataIn, adtsParse_of_short h, pureCommand_error])
  exact ⟨t, hostWalk_bind_error ht⟩

/-- A header the host has read is that of the access unit's first seven bytes. -/
theorem hostParse_eq_ok {au : List Byte} {s t : State} {r : AdtsHeader × Nat} (h : hostParse au s = .ok r t) :
    r.1 = parseHeader (headerWord au) := by
  by_cases hlen : 7 ≤ au.length
  · obtain ⟨u, hu⟩ := hostParse_of_enough hlen s
    rw [hu] at h
    cases h
    rfl
  · obtain ⟨u, hu⟩ := hostParse_of_short (Nat.not_le.mp hlen) s
    rw [hu] at h
    cases h

end Sys2Proof.Machine
end

section
/-! SUPPORT. What `Prepare` decides and what `Frame` builds, and the statements about the host's two operations. -/

namespace Sys2Proof.Machine

/-! ## The pass-through (R282) -/

/-- A nonzero channel_configuration ends `Prepare` before anything is loaded. -/
theorem prepare_of_channelConfiguration_ne_zero {au : List Byte} (hlen : 7 ≤ au.length)
    (hcc : (parseHeader (headerWord au)).channelConfiguration ≠ 0) (s : State) :
    ∃ t, prepare au s = .ok none t := by
  obtain ⟨t, ht⟩ := hostParse_of_enough hlen s
  refine ⟨t, ?_⟩
  rw [prepare, hostWalk_bind_ok ht, if_pos hcc, hostWalk_pure]

/-- With channel_configuration 0, `Prepare` never answers the pass-through. -/
theorem prepare_ne_passThrough {au : List Byte} (hcc : (parseHeader (headerWord au)).channelConfiguration = 0)
    (s t : State) : prepare au s ≠ .ok none t := by
  intro h
  obtain ⟨r, u, hparse, h⟩ := hostWalk_bind_eq_ok.mp h
  rw [hostParse_eq_ok hparse, if_neg (not_not_intro hcc)] at h
  split at h
  · obtain ⟨_, _, _, h⟩ := hostWalk_bind_eq_ok.mp h
    obtain ⟨_, _, _, h⟩ := hostWalk_bind_eq_ok.mp h
    obtain ⟨hnone, _⟩ := hostWalk_pure_eq_ok.mp h
    cases hnone
  · cases h

/-! ## The frames emitted (R287) -/

/-- A frame that carries `cc` as its channel_configuration and its own length as its frame_length (R287). -/
def CarriesChannelCount (cc : Nat) (out : List Byte) : Prop :=
  (parseHeader (headerWord out)).channelConfiguration = cc ∧ (parseHeader (headerWord out)).frameLength = out.length

/-- What follows a packed header does not change how it is parsed. -/
theorem parseHeader_headerWord_append {h : AdtsHeader} (fits : headerFits h = true) (p : List Byte) :
    parseHeader (headerWord (headerToBytes (packHeader h) ++ p)) = h := by
  have front : headerWord (headerToBytes (packHeader h) ++ p) = headerWord (headerToBytes (packHeader h)) := rfl
  rw [front, headerWord_headerToBytes, parseHeader_packHeader fits]

/-- The header of an output frame: the source's with the four fields R287 sets. -/
def frameHeader (h : AdtsHeader) (cc : Nat) (bits : Bits) : AdtsHeader :=
  { h with
    frameLength := 7 + (pack (payloadBits bits)).length
    channelConfiguration := cc
    protectionAbsent := 1
    frames := 0 }

/-- A frame whose header fits is that header's bytes and the packed payload. -/
theorem frame_of_fits {h : AdtsHeader} {cc : Nat} {bits : Bits} (fits : headerFits (frameHeader h cc bits) = true)
    (s : State) : ∃ t, frame h cc bits s =
      .ok (headerToBytes (packHeader (frameHeader h cc bits)) ++ pack (payloadBits bits)) t := by
  obtain ⟨t, ht⟩ := issue_of_ok (s := s) (data := ⟨[], frameHeader h cc bits⟩) decode_adtsGenerate
    (by rw [exec_adtsGenerate, State.accept_dataIn, adtsGenerate_of_fits fits, pureCommand_ok])
  exact ⟨t, hostWalk_bind_ok ht⟩

/-- A header that does not fit fails the operation (R262, R287). -/
theorem frame_of_not_fits {h : AdtsHeader} {cc : Nat} {bits : Bits} (fits : headerFits (frameHeader h cc bits) = false)
    (s : State) : ∃ t, frame h cc bits s = .error (.block .fieldRange 0) t := by
  obtain ⟨t, ht⟩ := issue_of_error (s := s) (data := ⟨[], frameHeader h cc bits⟩) decode_adtsGenerate
    (by rw [exec_adtsGenerate, State.accept_dataIn, adtsGenerate_of_not_fits fits, pureCommand_error])
  exact ⟨t, hostWalk_bind_error ht⟩

theorem frame_carriesChannelCount {h : AdtsHeader} {cc : Nat} {bits : Bits} {s t : State} {out : List Byte}
    (hframe : frame h cc bits s = .ok out t) : CarriesChannelCount cc out := by
  cases fits : headerFits (frameHeader h cc bits) with
  | false =>
    obtain ⟨u, hu⟩ := frame_of_not_fits fits s
    rw [hu] at hframe
    cases hframe
  | true =>
    obtain ⟨u, hu⟩ := frame_of_fits fits s
    rw [hu] at hframe
    cases hframe
    rw [CarriesChannelCount, parseHeader_headerWord_append fits, List.length_append]
    exact ⟨rfl, rfl⟩

theorem monoFrame_carriesChannelCount {h : AdtsHeader} {bits : Option Bits} {s t : State} {r : Option (List Byte)}
    (hmono : monoFrame h bits s = .ok r t) {out : List Byte} (hout : r = some out) : CarriesChannelCount 1 out := by
  subst hout
  cases bits with
  | none => cases hmono
  | some bits =>
    obtain ⟨f, u, hframe, hpure⟩ := hostWalk_bind_eq_ok.mp hmono
    obtain ⟨hf, _⟩ := hostWalk_pure_eq_ok.mp hpure
    cases hf
    exact frame_carriesChannelCount hframe

/-! ## The two operations -/

/-- What transmux_mono emits for channel_configuration 0: two mono frames, each possibly absent (R285). -/
theorem transmuxMono_eq_ok {au : List Byte} (hcc : (parseHeader (headerWord au)).channelConfiguration = 0)
    {s t : State} {r : HostPair} (h : transmuxMono au s = .ok r t) :
    ∃ H rec rec' u v, monoFrame H rec u = .ok r.primary v ∧ monoFrame H rec' v = .ok r.secondary t := by
  obtain ⟨prepared, u, hprep, h⟩ := hostWalk_bind_eq_ok.mp h
  rcases prepared with _ | ⟨H, recs⟩
  · exact absurd hprep (prepare_ne_passThrough hcc s u)
  · obtain ⟨p, v, hp, h⟩ := hostWalk_bind_eq_ok.mp h
    obtain ⟨q, w, hq, h⟩ := hostWalk_bind_eq_ok.mp h
    obtain ⟨rfl, rfl⟩ := hostWalk_pure_eq_ok.mp h
    exact ⟨H, _, _, u, v, hp, hq⟩

/-- What transmux_stereo emits for channel_configuration 0: nothing, or a stereo frame and a mono frame, the second
possibly absent (R286). -/
theorem transmuxStereo_eq_ok {au : List Byte} (hcc : (parseHeader (headerWord au)).channelConfiguration = 0)
    {s t : State} {r : HostPair} (h : transmuxStereo au s = .ok r t) :
    r = ⟨none, none⟩ ∨ ∃ H bits rec u v p,
      frame H 2 bits u = .ok p v ∧ r.primary = some p ∧ monoFrame H rec v = .ok r.secondary t := by
  obtain ⟨prepared, u, hprep, h⟩ := hostWalk_bind_eq_ok.mp h
  rcases prepared with _ | ⟨H, _ | ⟨first, rest⟩⟩
  · exact absurd hprep (prepare_ne_passThrough hcc s u)
  · exact .inl (hostWalk_pure_eq_ok.mp h).1.symm
  · obtain ⟨p, v, hp, h⟩ := hostWalk_bind_eq_ok.mp h
    obtain ⟨q, w, hq, h⟩ := hostWalk_bind_eq_ok.mp h
    obtain ⟨rfl, rfl⟩ := hostWalk_pure_eq_ok.mp h
    exact .inr ⟨H, _, _, u, v, p, hp, rfl, hq⟩

/-- Settles O59: both operations begin with `Prepare`, which answers the pass-through. -/
theorem nonzeroChannelConfigurationPassesThrough : Obligations.NonzeroChannelConfigurationPassesThrough := by
  intro s au hlen hcc
  obtain ⟨t, ht⟩ := prepare_of_channelConfiguration_ne_zero hlen hcc s
  exact ⟨t, hostWalk_bind_ok ht, hostWalk_bind_ok ht⟩

/-- Settles O60: every output is a frame `Frame` built, with the channel count it was given. -/
theorem outputsCarryTheirChannelCount : Obligations.OutputsCarryTheirChannelCount := by
  intro s t au r hcc
  refine ⟨fun hmono out hout => ?_, fun hstereo => ?_⟩
  · obtain ⟨H, rec, rec', u, v, hprimary, hsecondary⟩ := transmuxMono_eq_ok hcc hmono
    exact hout.elim (monoFrame_carriesChannelCount hprimary) (monoFrame_carriesChannelCount hsecondary)
  · rcases transmuxStereo_eq_ok hcc hstereo with rfl | ⟨H, bits, rec, u, v, p, hframe, hprimary, hsecondary⟩
    · exact ⟨nofun, nofun⟩
    · refine ⟨fun out hout => ?_, fun _ => monoFrame_carriesChannelCount hsecondary⟩
      obtain rfl : p = out := Option.some.inj (hprimary.symm.trans hout)
      exact frame_carriesChannelCount hframe

end Sys2Proof.Machine
end

section
/-! PROOFS. Pending errors, recorded errors and the pure commands (R301 to R303, R306 to R308). -/

namespace Sys2Proof.Machine

open Sys2Proof.Grammar

/-! ## A pending error -/

/-- A refusable instruction that is well formed answers a pending error with its fields (R302, R308). -/
theorem exec_refused {i : Instr} {s : State} (hr : refusable i = true) (hw : i.wf = true) (he : s.err ≠ 0) :
    exec i s = .next s.refuse := by
  rw [exec_refusable hr, hw, stateful_refused he]

/-- With an error pending, an instruction other than LOAD does nothing but answer (R302, R307). -/
theorem exec_pending_answers {i : Instr} {s t : State} (hi : i ≠ .load) (he : s.err ≠ 0) (h : exec i s = .next t) :
    ∃ r, t = s.respond r := by
  rcases exec_cases hi h with answered | ⟨clear, -⟩ | ⟨clear, -⟩
  · exact answered
  · exact absurd clear he
  · exact absurd clear he

/-- Settles O9: the preamble refuses before the walk runs, and an answer leaves ERR alone. -/
theorem pendingErrorStaysUntilLoad : Obligations.PendingErrorStaysUntilLoad := by
  refine ⟨fun i s hr hw he => exec_refused hr hw he, fun i s t hi he h => ?_⟩
  obtain ⟨r, rfl⟩ := exec_pending_answers hi he h
  rfl

/-! ## An error that is raised -/

/-- A walk that leaves ERR and the responses alone, run to its response with no error pending: its value is answered
and ERR stays clear, or its cause is answered and recorded with the cursor it had reached (R301). -/
theorem runWalk_answers_or_records {m : Walk Value} (hm : Keeps sameBlock m) {s : State} (he : s.err = 0) :
    (∃ v, (runWalk m s).responses = s.responses ++ [.ok v] ∧ (runWalk m s).err = 0) ∨
    (∃ c, (runWalk m s).responses = s.responses ++ [.error c (runWalk m s).curPos] ∧
      (runWalk m s).err = errWord c (runWalk m s).curPos) := by
  cases hrun : m s with
  | ok v u =>
    have hu := (hm s).1 v u hrun
    rw [runWalk_ok hrun]
    refine .inl ⟨v, ?_, ?_⟩
    · rw [State.respond_responses, hu]
    · rw [State.respond_err, hu]; exact he
  | error c u =>
    have hu := (hm s).2 c u hrun
    have hue : u.err = 0 := by rw [hu]; exact he
    rw [runWalk_error hrun, State.takeError_of_clear hue]
    refine .inr ⟨c, ?_, rfl⟩
    rw [State.respond_responses, State.withErr_responses, State.respond_curPos, State.withErr_curPos, hu]

/-- Settles O10: every walk leaves ERR and the responses to the end of its command. -/
theorem raisedErrorIsRecordedWhereFound : Obligations.RaisedErrorIsRecordedWhereFound := by
  intro i s t hr hw he h
  rw [exec_refusable hr, hw, stateful_run he] at h
  cases h
  exact runWalk_answers_or_records (commandWalk_keeps sameBlock_steps i) he

/-! ## The pure commands -/

/-- One state given two responses tells them apart. -/
theorem State.respond_injective (s : State) : Function.Injective s.respond := by
  intro r r' h
  have lists : s.responses ++ [r] = s.responses ++ [r'] := congrArg State.responses h
  exact List.singleton_inj.mp (List.append_cancel_left lists)

/-- A pure command is never refused: it answers its result or its error, whatever ERR holds (R302). -/
theorem pureCommand_ne_refused (ok : Bool) (r : Except Cause Value) (s : State) (k : BitVec 4) (c : BitVec 8)
    (p : BitVec 20) : pureCommand ok r s ≠ s.respond (.refused k c p) := by
  intro h
  cases ok with
  | false => cases s.respond_injective h
  | true => cases r with
    | ok v => cases s.respond_injective h
    | error e => cases s.respond_injective h

/-- What a pure command does is `pureCommand` of some check and some outcome. -/
theorem exec_groupP_pureCommand {i : Instr} (h : groupP i = true) (s : State) :
    ∃ ok r, exec i s = .next (pureCommand ok r s) := by
  cases i with
  | cbValue cb idx => exact ⟨_, _, rfl⟩
  | adtsParse => exact ⟨_, _, rfl⟩
  | adtsGenerate => exact ⟨_, _, rfl⟩
  | _ => cases h

/-- Settles O12: the answer is fixed by the operands and the data-in, and no pure command answers a refusal. -/
theorem pureCommandsOnlyAnswer : Obligations.PureCommandsOnlyAnswer := by
  intro i h s
  obtain ⟨r, answers⟩ := exec_groupP h s
  refine ⟨r, answers s rfl, fun k c p refused => ?_, answers⟩
  obtain ⟨ok, outcome, hexec⟩ := exec_groupP_pureCommand h s
  rw [answers s rfl, refused] at hexec
  exact pureCommand_ne_refused ok outcome s k c p (Host.Outcome.next.inj hexec).symm

end Sys2Proof.Machine
end
